-- ==== Sys2Proof/Word.lean ====
section
/-! DEFINITION. The word types of HUFFCORE (00_scope.md R6, R8): every quantity is an unsigned number of a stated width,
a bit string or a byte sequence; bit 0 is the least significant bit. -/

namespace Sys2Proof

/-- A byte of a byte buffer (20_memory.md R70). -/
abbrev Byte := BitVec 8

/-- A Symbol, "a single byte value (0-255)" (R6, `SYM_W`). -/
abbrev Sym := BitVec 8

/-- A host register (R6, `REG_W`); also one frequency count (`FREQ_W`) and one command word (30_encoding.md R100). -/
abbrev Word := BitVec 32

/-- A length or cursor (R6, `LEN_W`). -/
abbrev Len := BitVec 64

/-- A node index (R6, `IDX_W`): 0 to 255 leaves, 256 to 510 internal nodes, 511 `ABSENT`. -/
abbrev NodeIdx := BitVec 9

/-- A node weight (R6, `WEIGHT_W`). -/
abbrev Weight := BitVec 40

/-- A bit string, first bit first (R8). -/
abbrev Bits := List Bool

/-- The node index that means "no node" (R6). -/
abbrev absent : NodeIdx := 511#9

/-- The node index of the leaf that owns a symbol (10_state.md R26). -/
abbrev leafIdx (s : Sym) : NodeIdx := s.setWidth 9

end Sys2Proof
end

