-- ==== Sys2Proof/Syntax.lean ====
section
/-! DEFINITION. The 18 commands of HUFFCORE (30_encoding.md R101, R102), one constructor per row of spec/opcode_table.json. -/

namespace Sys2Proof

/-- A command with its operand fields taken as they stand in `ARG`, unsigned (30_encoding.md R101). An operand outside
its range (`n` above 16, mode byte above 2) is still an instruction of its row: its meaning raises the error R101 names. -/
inductive Instr where
  | nop
  | softReset
  | clrErr
  | ioAbort
  | tbBuild
  | cgGen
  | cgEmit
  | bpInit
  /-- `n = ARG[20:16]`, `v = ARG[15:0]`. -/
  | bpPutbits (n : BitVec 5) (v : BitVec 16)
  /-- `s = ARG[7:0]`. -/
  | bpPutsym (s : Sym)
  | bpFlush
  | buInit
  /-- `n = ARG[4:0]`. -/
  | buGet (n : BitVec 5)
  /-- `m = ARG[15:8]`, the container's mode byte; `s = ARG[7:0]`. -/
  | twCfg (m : Byte) (s : Sym)
  | twLoad
  | twStart
  | twStep
  | twRun
  deriving DecidableEq, Repr

end Sys2Proof
end

