-- ==== Sys2Proof/WellFormed.lean ====
section
/-! DEFINITION. Which instructions have every operand in the range 30_encoding.md R101 gives it. -/

namespace Sys2Proof

/-- Operands in range (30_encoding.md R101): `n` is 0 to 16 in `BP_PUTBITS` and `BU_GET`, the mode byte of `TW_CFG` is
0, 1 or 2. An ill-formed instruction still decodes and runs: it raises `BAD_ARG` or `FMT_MODE` (R105). -/
def Instr.wf : Instr → Bool
  | .nop => true
  | .softReset => true
  | .clrErr => true
  | .ioAbort => true
  | .tbBuild => true
  | .cgGen => true
  | .cgEmit => true
  | .bpInit => true
  | .bpPutbits n _ => n.toNat ≤ 16
  | .bpPutsym _ => true
  | .bpFlush => true
  | .buInit => true
  | .buGet n => n.toNat ≤ 16
  | .twCfg m _ => m.toNat ≤ 2
  | .twLoad => true
  | .twStart => true
  | .twStep => true
  | .twRun => true

end Sys2Proof
end

