-- ==== Sys2Proof/Decode.lean ====
section
/-! DEFINITION. The command word (30_encoding.md R100 to R106): decoding, total on all 2^32 words and rejecting by name,
and the encoder written from the same two tables (R101, R102). -/

namespace Sys2Proof

/-- The 18 defined opcodes (30_encoding.md R102). -/
inductive Opcode where
  | nop | softReset | clrErr | ioAbort
  | tbBuild
  | cgGen | cgEmit
  | bpInit | bpPutbits | bpPutsym | bpFlush
  | buInit | buGet
  | twCfg | twLoad | twStart | twStep | twRun
  deriving DecidableEq, Repr

/-- The value of `OPC` (30_encoding.md R102). -/
def Opcode.code : Opcode → BitVec 8
  | .nop => 0x00#8
  | .softReset => 0x01#8
  | .clrErr => 0x02#8
  | .ioAbort => 0x03#8
  | .tbBuild => 0x10#8
  | .cgGen => 0x20#8
  | .cgEmit => 0x21#8
  | .bpInit => 0x30#8
  | .bpPutbits => 0x31#8
  | .bpPutsym => 0x32#8
  | .bpFlush => 0x33#8
  | .buInit => 0x40#8
  | .buGet => 0x41#8
  | .twCfg => 0x50#8
  | .twLoad => 0x51#8
  | .twStart => 0x52#8
  | .twStep => 0x53#8
  | .twRun => 0x54#8

/-- The bits of `ARG` that are reserved and must be 0 (30_encoding.md R101). -/
def Opcode.reserved : Opcode → BitVec 24
  | .bpPutbits => 0xE00000#24
  | .bpPutsym => 0xFFFF00#24
  | .buGet => 0xFFFFE0#24
  | .twCfg => 0xFF0000#24
  | .nop | .softReset | .clrErr | .ioAbort | .tbBuild | .cgGen | .cgEmit | .bpInit | .bpFlush | .buInit
  | .twLoad | .twStart | .twStep | .twRun => 0xFFFFFF#24

/-- Every opcode of the table. -/
def allOpcodes : List Opcode :=
  [.nop, .softReset, .clrErr, .ioAbort, .tbBuild, .cgGen, .cgEmit, .bpInit, .bpPutbits,
   .bpPutsym, .bpFlush, .buInit, .buGet, .twCfg, .twLoad, .twStart, .twStep, .twRun]

/-- `OPC = c[31:24]` (30_encoding.md R100). -/
def opcField (c : Word) : BitVec 8 := c.extractLsb' 24 8

/-- `ARG = c[23:0]` (30_encoding.md R100). -/
def argField (c : Word) : BitVec 24 := c.extractLsb' 0 24

/-- The command an opcode and its operand field stand for (30_encoding.md R101). -/
def instrOf (op : Opcode) (arg : BitVec 24) : Instr :=
  match op with
  | .nop => .nop
  | .softReset => .softReset
  | .clrErr => .clrErr
  | .ioAbort => .ioAbort
  | .tbBuild => .tbBuild
  | .cgGen => .cgGen
  | .cgEmit => .cgEmit
  | .bpInit => .bpInit
  | .bpPutbits => .bpPutbits (arg.extractLsb' 16 5) (arg.extractLsb' 0 16)
  | .bpPutsym => .bpPutsym (arg.extractLsb' 0 8)
  | .bpFlush => .bpFlush
  | .buInit => .buInit
  | .buGet => .buGet (arg.extractLsb' 0 5)
  | .twCfg => .twCfg (arg.extractLsb' 8 8) (arg.extractLsb' 0 8)
  | .twLoad => .twLoad
  | .twStart => .twStart
  | .twStep => .twStep
  | .twRun => .twRun

/-- Why a word is no command (30_encoding.md R103 steps 3 and 4). -/
inductive Reject where
  /-- `OPC` is not one of the 18 opcodes (R104): `ILLEGAL_CMD`. -/
  | illegalCmd
  /-- A reserved bit of `ARG` is 1 (R105): `BAD_ARG`. -/
  | badArg
  deriving DecidableEq, Repr

/-- Decoding a command word, in the order of 30_encoding.md R103: first the opcode, then the reserved bits of `ARG`. -/
def decode (c : Word) : Except Reject Instr :=
  match allOpcodes.find? (fun op => op.code == opcField c) with
  | none => .error .illegalCmd
  | some op =>
    if argField c &&& op.reserved = 0 then .ok (instrOf op (argField c)) else .error .badArg

/-- The opcode of a command. -/
def Instr.opcode : Instr → Opcode
  | .nop => .nop
  | .softReset => .softReset
  | .clrErr => .clrErr
  | .ioAbort => .ioAbort
  | .tbBuild => .tbBuild
  | .cgGen => .cgGen
  | .cgEmit => .cgEmit
  | .bpInit => .bpInit
  | .bpPutbits _ _ => .bpPutbits
  | .bpPutsym _ => .bpPutsym
  | .bpFlush => .bpFlush
  | .buInit => .buInit
  | .buGet _ => .buGet
  | .twCfg _ _ => .twCfg
  | .twLoad => .twLoad
  | .twStart => .twStart
  | .twStep => .twStep
  | .twRun => .twRun

/-- The operand field of a command, reserved bits 0 (30_encoding.md R101). -/
def Instr.arg : Instr → BitVec 24
  | .bpPutbits n v => 0#3 ++ n ++ v
  | .bpPutsym s => 0#16 ++ s
  | .buGet n => 0#19 ++ n
  | .twCfg m s => 0#8 ++ m ++ s
  | .nop | .softReset | .clrErr | .ioAbort | .tbBuild | .cgGen | .cgEmit | .bpInit | .bpFlush | .buInit
  | .twLoad | .twStart | .twStep | .twRun => 0#24

/-- The command word, `OPC << 24 | ARG` (30_encoding.md R100, R135). -/
def encode (i : Instr) : Word := i.opcode.code ++ i.arg

/-- The command the decoder reads from a word of spec/opcode_table.json: a command is one 32-bit word, numbered as the
table numbers it (bit 0 the least significant); bits from `nbits` up are 0. -/
def decodeTableWord (nbits w : Nat) : Option Instr :=
  match decode (BitVec.ofNat 32 (w % 2 ^ min nbits 32)) with
  | .ok i => some i
  | .error _ => none

end Sys2Proof
end

