-- ==== Sys2Proof/Config.lean ====
section
/-! DEFINITION. What an implementation of HUFFCORE fixes and what it leaves open (00_scope.md R6, 93_implementation_defined.md
O1, O3), and the constants of the register map. The opaque constants have no body: no proof can see a value of one. -/

namespace Sys2Proof.Config

/-- The 32 bits an implementation fixes for `OBUF_CAP` (O3, log 6). -/
opaque obufCapBits : Word

/-- The 32 bits an implementation fixes for `IBUF_CAP` (O3, log 6). -/
opaque ibufCapBits : Word

/-- The 32 bits an implementation fixes for `SOUT_CAP` (O3, log 6). -/
opaque soutCapBits : Word

/-- A capacity is a natural from 1 to 2^32 - 1 (R6): every value of that range, and no other, is `capOf` of some word.
DESIGN CHOICE (log 6, safe): the one word that is no capacity, 0, stands for 4096, a value of the range like any other. -/
def capOf (bits : Word) : Word := if bits = 0 then 4096 else bits

/-- `OBUF_CAP` (R6). -/
def obufCap : Word := capOf obufCapBits

/-- `IBUF_CAP` (R6). -/
def ibufCap : Word := capOf ibufCapBits

/-- `SOUT_CAP` (R6). -/
def soutCap : Word := capOf soutCapBits

/-- The value of the `k`-th read of a register other than `ID` and `STATUS` while `BUSY = 1`: some 32-bit number, and
nothing more is known (20_memory.md R78, 93 O1, log 5). -/
opaque unspecifiedRead : Nat → Word

/-- What `busy_o` shows between a power-up and the hardware reset that must follow it: the state is unspecified then
(70_reset_and_hazards.md R330 (b), 93 O2, log 23). -/
opaque unresetBusy : Nat → Bool

/-- What `err_o` shows there (70_reset_and_hazards.md R330 (b), 93 O2, log 23). -/
opaque unresetErr : Nat → Bool

/-- `ID`: ASCII `H`, `U`, `F`, then the command-set version (10_state.md R31). -/
def idValue : Word := 0x48554601#32

end Sys2Proof.Config
end

