-- ==== Sys2Proof/Machine/State.lean ====
section
/-! DEFINITION. The whole state of HUFFCORE (10_state.md R50) as plain data, grouped by the unit that owns it, the host's
pending operations, and the state after reset. -/

namespace Sys2Proof.Machine

/-- The resting values of `SEQ` (10_state.md R23). The transient value BUSY is `State.running`. -/
inductive Resting where
  | idle
  | error
  deriving DecidableEq, Repr

/-- `MODE` (10_state.md R28): 0 EMPTY, 1 SINGLE, 2 GENERAL; "3 never held". -/
inductive Mode where
  | empty
  | single
  | general
  deriving DecidableEq, Repr

/-- An entry of the node arena (10_state.md R26, 30_encoding.md R110). -/
structure NodeEntry where
  left : NodeIdx
  right : NodeIdx
  weight : Weight
  deriving DecidableEq, Repr

/-- The reset value of a node entry, `(511, 511, 0)` (10_state.md R26). -/
def NodeEntry.reset : NodeEntry := ⟨absent, absent, 0⟩

/-- `NODE[256..510]`: entry `i` of the vector is `NODE[256 + i]` (10_state.md R26). -/
abbrev Nodes := Vector NodeEntry 255

/-- The tree descriptors and the arena (10_state.md R26, R28). -/
structure Tree where
  nodes : Nodes
  k : BitVec 9
  root : NodeIdx
  mode : Mode
  singleSym : Sym
  /-- `TREE_VALID` -/
  valid : Bool
  deriving DecidableEq, Repr

/-- No tree (10_state.md R50). -/
def Tree.reset : Tree := ⟨Vector.replicate 255 NodeEntry.reset, 0, absent, .empty, 0, false⟩

/-- The code table (10_state.md R27): entry `s` is the bit string `CODE[s].bits`; `CODE[s].len` is its length, so the
empty string is "symbol `s` has no code". -/
structure CodeTable where
  entries : Vector Bits 256
  /-- `CODE_VALID` -/
  valid : Bool
  deriving DecidableEq, Repr

/-- All entries `(0, ε)` (10_state.md R50). -/
def CodeTable.reset : CodeTable := ⟨Vector.replicate 256 [], false⟩

/-- The bit packer (10_state.md R40). -/
structure Packer where
  /-- `BP_OPEN` -/
  isOpen : Bool
  acc : Byte
  bitcnt : Len
  obuf : List Byte
  deriving DecidableEq, Repr

/-- Packer closed and empty (10_state.md R50). -/
def Packer.reset : Packer := ⟨false, 0, 0, []⟩

/-- The bytes of `IBUF` as address and byte pairs: addresses strictly rising, no byte 0 listed; an unlisted byte reads as
0, the reset contents of `IBUF` (10_state.md R42). -/
abbrev Memory := List Host.Cell

/-- What the host gives the unpacker, and what survives an error (10_state.md R42): `IBUF`, `IBUF_LEN`, `BU_BASE`,
`BU_LIMIT`. -/
structure InBuf where
  mem : Memory
  len : Word
  base : Word
  limit : Len
  deriving DecidableEq, Repr

/-- `IBUF` all bytes 0, `IBUF_LEN` and the window 0 (10_state.md R50). -/
def InBuf.reset : InBuf := ⟨[], 0, 0, 0⟩

/-- The unpacker's cursor and result (10_state.md R42). -/
structure Unpacker where
  /-- `BU_OPEN` -/
  isOpen : Bool
  pos : Len
  data : Word
  deriving DecidableEq, Repr

/-- Unpacker closed, cursor and result 0 (10_state.md R50). -/
def Unpacker.reset : Unpacker := ⟨false, 0, 0⟩

/-- The tree walker (10_state.md R44). -/
structure Walker where
  /-- `TW_ACTIVE` -/
  active : Bool
  /-- `TW_DONE` -/
  done : Bool
  cur : NodeIdx
  count : Len
  sout : List Byte
  deriving DecidableEq, Repr

/-- Walker inactive, `TW_CUR = 511`, `SOUT` empty (10_state.md R50). -/
def Walker.reset : Walker := ⟨false, false, absent, 0, []⟩

/-- The select and index registers (10_state.md R50). -/
structure Selects where
  freq : Sym
  node : NodeIdx
  code : Sym
  obuf : Word
  ibuf : Word
  sout : Word
  deriving DecidableEq, Repr

/-- All 0 (10_state.md R50). -/
def Selects.reset : Selects := ⟨0, 0, 0, 0, 0, 0⟩

/-- `ERR.CODE`, `ERR.CLASS`, `ERRINFO` (10_state.md R34). -/
structure ErrRegs where
  code : BitVec 8
  cls : BitVec 4
  info : Len
  deriving DecidableEq, Repr

/-- No error recorded (10_state.md R50). -/
def ErrRegs.reset : ErrRegs := ⟨0, 0, 0⟩

/-- The constants behind `CAP_OBUF`, `CAP_IBUF`, `CAP_SOUT` (10_state.md R46). -/
structure Caps where
  obuf : Word
  ibuf : Word
  sout : Word
  deriving DecidableEq, Repr

/-- The capacities this HUFFCORE was built with (00_scope.md R6). -/
def Caps.reset : Caps := ⟨Config.obufCap, Config.ibufCap, Config.soutCap⟩

/-- The width of a register access (20_memory.md R83: only `word` is valid). -/
inductive AccessWidth where
  | byte
  | half
  | word
  deriving DecidableEq, Repr

/-- One operation of the host (10_state.md R20, R51). -/
inductive HostOp where
  /-- A register read at a byte offset. -/
  | read (w : AccessWidth) (off : BitVec 8)
  /-- A register write; a word write at offset 0x04 presents a command. -/
  | write (w : AccessWidth) (off : BitVec 8) (data : Word)
  /-- `rst_n` held low (70_reset_and_hazards.md R330 (a)). -/
  | hardReset
  /-- Power removed and applied again (70_reset_and_hazards.md R330 (b)). -/
  | powerUp
  deriving DecidableEq, Repr

/-- An operation of the host together with the length of the busy window it opens, if it opens one: how many of the
host's next operations still find `BUSY = 1` (93 O4: the latency is open; here it is an input, log 2). -/
structure HostEvent where
  op : HostOp
  hold : Nat
  deriving DecidableEq, Repr

/-- What keeps HUFFCORE busy. -/
inductive Work where
  /-- A command word presented to `CMD` whose command has not completed (10_state.md R23). -/
  | command (c : Word)
  /-- The clearing of the memories after a hardware reset (70_reset_and_hazards.md R332). -/
  | clearing
  deriving DecidableEq, Repr

/-- A busy window: what runs, and how many of the host's next operations find it still running. -/
structure Running where
  work : Work
  left : Nat
  deriving DecidableEq, Repr

/-- The state of HUFFCORE (10_state.md R50) and of the host in front of it. -/
structure State where
  /-- `SEQ` at rest. -/
  seq : Resting
  /-- `SEQ = BUSY` while this is present (10_state.md R23). -/
  running : Option Running
  err : ErrRegs
  /-- `FREQ[0..255]` (10_state.md R25). -/
  freq : Vector Word 256
  tree : Tree
  codes : CodeTable
  /-- `ORIGLEN` (10_state.md R29). -/
  origLen : Len
  bp : Packer
  ibuf : InBuf
  bu : Unpacker
  tw : Walker
  sel : Selects
  caps : Caps
  /-- The read data port: the value of the last register read (10_state.md R51, log 7). -/
  rdata : Word
  /-- The model's own field: the host's operations still to come (log 1). -/
  events : List HostEvent
  /-- The model's own field: how many unspecified reads have been answered and power-ups made (logs 5, 23). -/
  freeCount : Nat
  /-- The model's own field: power came up and no hardware reset has followed yet (log 8). -/
  awaitingReset : Bool
  deriving DecidableEq, Repr

/-- Reasons to stop that no state within 10_state.md R49 can give (log 11). Both are safe: the model stops where the
hardware's rules say nothing. -/
inductive Fault where
  /-- Raised by `CG_GEN`, `CG_EMIT`, `TW_LOAD`, `TW_RUN` when a recursion or loop of their rules would not end: for the
  first two, following children from `ROOT` does not end at leaves (R49 (c) broken); for the last two, never. Safe. -/
  | noTree
  /-- Raised by a bit read of the unpacker whose byte lies outside `IBUF` (20_memory.md R84 (d) broken). Safe. -/
  | ibufOutside
  deriving DecidableEq, Repr

/-- Runs the model does not accept. -/
inductive Refusal where
  /-- An instruction without a meaning; no arm of `exec` answers it. Safe. -/
  | notModelled (mnemonic : String)
  /-- Raised by a register access between power-up and the hardware reset that must follow it: "no access is allowed
  then" (70_reset_and_hazards.md R330 (b), 93 O2: refuse). Safe. -/
  | accessBeforeReset
  deriving DecidableEq, Repr

/-- The state right after reset (10_state.md R50, 70_reset_and_hazards.md R331), no host operation pending. -/
def State.reset : State where
  seq := .idle
  running := none
  err := ErrRegs.reset
  freq := Vector.replicate 256 0
  tree := Tree.reset
  codes := CodeTable.reset
  origLen := 0
  bp := Packer.reset
  ibuf := InBuf.reset
  bu := Unpacker.reset
  tw := Walker.reset
  sel := Selects.reset
  caps := Caps.reset
  rdata := 0
  events := []
  freeCount := 0
  awaitingReset := false

end Sys2Proof.Machine
end

