-- ==== Sys2Proof/Machine/Ops.lean ====
section
/-! DEFINITION. The named operations every command is written over: byte memory, tables, `append`, raising an error and
the one error entry all of them share (60_exceptions.md R299, R300), the return from ERROR, and reset. -/

namespace Sys2Proof.Machine

/-! ## Byte memory in canonical form -/

/-- The byte at an index; an unlisted byte is 0 (10_state.md R42). -/
def Memory.read : Memory → Nat → Byte
  | [], _ => 0
  | (a, b) :: m, x => if a = x then b else Memory.read m x

/-- Write a byte and keep the canonical form: sorted, and a 0 removes the entry. -/
def Memory.write : Memory → Nat → Byte → Memory
  | [], x, v => if v = 0 then [] else [(x, v)]
  | (a, b) :: m, x, v =>
    if x < a then (if v = 0 then (a, b) :: m else (x, v) :: (a, b) :: m)
    else if a = x then (if v = 0 then m else (x, v) :: m)
    else (a, b) :: Memory.write m x v

/-- The canonical form: addresses strictly rising, no listed byte equal to what an unlisted one reads as. -/
abbrev Memory.wf (m : Memory) : Prop :=
  m.Pairwise (fun x y => x.1 < y.1) ∧ ∀ c ∈ m, c.2 ≠ 0

/-! ## Tables (20_memory.md R70, R84) -/

/-- `T[s]` of a table over the symbols; always in range (R84 (a)). -/
def symGet {α : Type} (t : Vector α 256) (s : Sym) : α := t[s.toNat]'(s.isLt)

/-- `T[s] <- v`. -/
def symSet {α : Type} (t : Vector α 256) (s : Sym) (v : α) : Vector α 256 := t.set s.toNat v s.isLt

/-- An internal node index, 256 to 510 (10_state.md R26). -/
abbrev isInternal (n : NodeIdx) : Bool := 256 ≤ n.toNat && n.toNat ≤ 510

/-- `NODE[n]`; where no entry exists (a leaf index, 511), the reset entry, as the host reads it (10_state.md R38). -/
def nodeGet (t : Nodes) (n : NodeIdx) : NodeEntry :=
  if 256 ≤ n.toNat then t[n.toNat - 256]?.getD NodeEntry.reset else NodeEntry.reset

/-- `NODE[n] <- v`, made only with `n` from 256 to 510 (10_state.md R26). -/
def nodeSet (t : Nodes) (n : NodeIdx) (v : NodeEntry) : Nodes :=
  if 256 ≤ n.toNat then t.setIfInBounds (n.toNat - 256) v else t

/-- `clear_nodes()` (41_tree_builder.md R141). -/
def clearNodes : Nodes := Vector.replicate 255 NodeEntry.reset

/-! ## Errors (60_exceptions.md R291) -/

/-- The 16 errors (60_exceptions.md R291). -/
inductive ErrCode where
  | ioAbort | obufFull | soutFull
  | fmtMode | fmtTreeTrunc | fmtTreeDup | fmtTreeRootleaf | fmtLenMode | fmtTreeBig
  | corEos | corWalkoff
  | illegalCmd | badArg | badSeq | noCode | badRange
  deriving DecidableEq, Repr

/-- `CODE` of an error (60_exceptions.md R291). -/
def ErrCode.code : ErrCode → BitVec 8
  | .ioAbort => 0x10#8
  | .obufFull => 0x11#8
  | .soutFull => 0x12#8
  | .fmtMode => 0x20#8
  | .fmtTreeTrunc => 0x21#8
  | .fmtTreeDup => 0x22#8
  | .fmtTreeRootleaf => 0x23#8
  | .fmtLenMode => 0x24#8
  | .fmtTreeBig => 0x25#8
  | .corEos => 0x30#8
  | .corWalkoff => 0x31#8
  | .illegalCmd => 0x40#8
  | .badArg => 0x41#8
  | .badSeq => 0x42#8
  | .noCode => 0x43#8
  | .badRange => 0x44#8

/-- `CLASS` of an error: 1 IoError, 2 FormatError, 3 CorruptDataError, 4 UsageError (60_exceptions.md R290, R291). -/
def ErrCode.cls : ErrCode → BitVec 4
  | .ioAbort | .obufFull | .soutFull => 1#4
  | .fmtMode | .fmtTreeTrunc | .fmtTreeDup | .fmtTreeRootleaf | .fmtLenMode | .fmtTreeBig => 2#4
  | .corEos | .corWalkoff => 3#4
  | .illegalCmd | .badArg | .badSeq | .noCode | .badRange => 4#4

/-- What ends a command before its completion: a `raise`, or a fault no state within 10_state.md R49 can reach. -/
inductive Stop where
  | raise (e : ErrCode) (info : Len)
  | fault (f : Fault)
  deriving DecidableEq, Repr

/-- A command's work on a copy of what it may write (60_exceptions.md R299). -/
abbrev Cmd (α : Type) := Except Stop α

/-- `raise E(info)` (00_scope.md R9). -/
def raise {α : Type} (e : ErrCode) (info : Len) : Cmd α := .error (.raise e info)

/-- `raise E(c)` with `c` a command word, zero-extended (60_exceptions.md R297). -/
def raiseWord {α : Type} (e : ErrCode) (c : Word) : Cmd α := raise e (c.setWidth 64)

/-- `raise BAD_SEQ(c)` unless the flag a command needs is set; `c` is the command's own word (60_exceptions.md R291, R297). -/
def need (flag : Bool) (i : Instr) : Cmd Unit :=
  if flag then .ok () else raiseWord .badSeq (encode i)

/-- `append(B, v)`: one byte more, or the buffer's full error with its length (20_memory.md R76). -/
def append (full : ErrCode) (cap : Word) (buf : List Byte) (v : Byte) : Cmd (List Byte) :=
  if buf.length = cap.toNat then raise full (BitVec.ofNat 64 buf.length) else .ok (buf ++ [v])

/-- Error entry, `abort_run(code, class, info)` (60_exceptions.md R300), applied to the state before the command (R299):
`SEQ`, `ERR`, `ERRINFO` written, everything the block produced reset, everything the host put in kept. -/
def abortRun (e : ErrCode) (info : Len) (s : State) : State :=
  { s with
    seq := .error
    err := ⟨e.code, e.cls, info⟩
    tree := Tree.reset
    codes := CodeTable.reset
    bp := Packer.reset
    bu := Unpacker.reset
    tw := Walker.reset }

/-- The return from ERROR, `SEQ <- IDLE ; ERR <- 0 ; ERRINFO <- 0`; it restores nothing (60_exceptions.md R302,
46_system_commands.md R252). -/
def clearError (s : State) : State := { s with seq := .idle, err := ErrRegs.reset }

/-- Every element of 10_state.md R50 at its reset value (70_reset_and_hazards.md R330): what hardware reset and
`SOFT_RESET` do. The capacities are constants (R46); the host's side of State is not HUFFCORE's to reset. -/
def resetElements (s : State) : State :=
  { State.reset with
    caps := s.caps
    rdata := s.rdata
    events := s.events
    freeCount := s.freeCount }

/-- The architectural effect of a command, one transition (20_memory.md R77): its whole effect, or error entry on the
state before it (60_exceptions.md R299). -/
def runCommand (s : State) (work : Cmd State) : Host.Outcome State Fault Refusal :=
  match work with
  | .ok t => .next t
  | .error (.raise e info) => .next (abortRun e info s)
  | .error (.fault f) => .fault f

/-- A command that is ignored in ERROR and runs in IDLE (30_encoding.md R103 step 2, 60_exceptions.md R301). -/
def whenIdle (s : State) (work : Cmd State) : Host.Outcome State Fault Refusal :=
  match s.seq with
  | .error => .next s
  | .idle => runCommand s work

end Sys2Proof.Machine
end

