-- ==== Sys2Proof/Machine/Operands.lean ====
section
/-! DEFINITION. Operand forms: the ranges of the operand fields (30_encoding.md R101), multi-bit values as bit strings most
significant bit first (20_memory.md R72), and the register images of table entries (30_encoding.md R110, R111). -/

namespace Sys2Proof.Machine

/-- `n` of `BP_PUTBITS` and `BU_GET` is at most 16, else `BAD_ARG(c)` (30_encoding.md R101, R103 step 4). -/
def needCount (n : BitVec 5) (i : Instr) : Cmd Unit :=
  if n.toNat ≤ 16 then .ok () else raiseWord .badArg (encode i)

/-- The container's mode byte (30_encoding.md R127). -/
def modeOfByte (m : Byte) : Option Mode :=
  if m = 0 then some .empty else if m = 1 then some .single else if m = 2 then some .general else none

/-- The number of a mode (10_state.md R28). -/
def modeCode : Mode → BitVec 2
  | .empty => 0#2
  | .single => 1#2
  | .general => 2#2

/-- The low `n` bits of a value, `v[n-1]` first (20_memory.md R72). -/
def lowBits {w : Nat} (v : BitVec w) : Nat → Bits
  | 0 => []
  | n + 1 => v.getLsbD n :: lowBits v n

/-- `sym8(n)`: the 8 bits of a symbol, most significant first (30_encoding.md R120). -/
def symBits (s : Sym) : Bits := lowBits s 8

/-- `x <- (x << 1) | b` (44_bit_unpacker.md R204, 45_tree_walker.md R225). -/
def shiftIn {w : Nat} (x : BitVec w) (b : Bool) : BitVec w := (x <<< 1) ||| (BitVec.ofBool b).setWidth w

/-- `v[i] <- b` in a byte (43_bit_packer.md R181). -/
def setBit (v : Byte) (i : Nat) (b : Bool) : Byte :=
  if b then v ||| (1#8 <<< i) else v &&& ~~~(1#8 <<< i)

/-- `x[31:0]` of a 64-bit quantity (20_memory.md R73). -/
def lowHalf (x : Len) : Word := x.extractLsb' 0 32

/-- `x[63:32]` of a 64-bit quantity (20_memory.md R73). -/
def highHalf (x : Len) : Word := x.extractLsb' 32 32

/-- Replace `x[31:0]`, leave the other half alone (10_state.md R36, R43). -/
def setLowHalf (x : Len) (v : Word) : Len := highHalf x ++ v

/-- Replace `x[63:32]`, leave the other half alone (10_state.md R36, R43). -/
def setHighHalf (x : Len) (v : Word) : Len := v ++ lowHalf x

/-- `CODE[s].len` (10_state.md R27). -/
def codeLen (code : Bits) : BitVec 8 := BitVec.ofNat 8 code.length

/-- The 256-bit image `B` of a code: its bits from bit 255 downward, zeros below (30_encoding.md R111). -/
def codeImage (code : Bits) : BitVec 256 :=
  (List.range 256).foldl (fun x i => shiftIn x (code.getD i false)) 0

/-- `CODE_BITSj = B[255 - 32*j : 224 - 32*j]` (30_encoding.md R111). -/
def codeWord (code : Bits) (j : Nat) : Word := (codeImage code).extractLsb' (224 - 32 * j) 32

/-- `NODE_LR`: `[8:0]` left, `[24:16]` right, the rest zero (10_state.md R38). -/
def nodeLR (e : NodeEntry) : Word := 0#7 ++ e.right ++ 0#7 ++ e.left

/-- `NODE_W_LO` (10_state.md R38). -/
def nodeWLo (e : NodeEntry) : Word := e.weight.extractLsb' 0 32

/-- `NODE_W_HI`: `[7:0] = weight[39:32]` (10_state.md R38). -/
def nodeWHi (e : NodeEntry) : Word := 0#24 ++ e.weight.extractLsb' 32 8

/-- `TREEINFO`: `[8:0] K`, `[24:16] ROOT`, `[29:28] MODE`, the rest zero (10_state.md R35). -/
def treeInfo (t : Tree) : Word := 0#2 ++ modeCode t.mode ++ 0#3 ++ t.root ++ 0#7 ++ t.k

/-- `BU_DATA`: `[15:0] BITS`, `[20:16] CNT`, `[31] EOS`, the rest zero (10_state.md R43). -/
def buData (eos : Bool) (cnt : BitVec 5) (bits : BitVec 16) : Word := BitVec.ofBool eos ++ 0#10 ++ cnt ++ bits

/-- `ERR`: `[7:0] CODE`, `[11:8] CLASS`, the rest zero (10_state.md R34). -/
def errWord (e : ErrRegs) : Word := 0#20 ++ e.cls ++ e.code

/-- The byte of a buffer at an index, 0 beyond its length (20_memory.md R85). -/
def byteAt (buf : List Byte) (i : Nat) : Byte := buf.getD i 0

end Sys2Proof.Machine
end

