-- ==== Sys2Proof/Machine/Flags.lean ====
section
/-! DEFINITION. The eight status flags (10_state.md R24), `STATUS` (R33), and the flags an access clears because what they
guard no longer belongs to what is now held (20_memory.md R81). -/

namespace Sys2Proof.Machine

/-- `SEQ` with its transient value (10_state.md R23). -/
inductive Seq where
  | idle
  | busy
  | error
  deriving DecidableEq, Repr

/-- The value of `SEQ` (10_state.md R23). -/
def State.seqValue (s : State) : Seq :=
  match s.running, s.seq with
  | some _, _ => .busy
  | none, .idle => .idle
  | none, .error => .error

/-- `BUSY`: from the acceptance of a command to its completion (10_state.md R24), and while reset clears the memories
(70_reset_and_hazards.md R332). -/
def State.busy (s : State) : Bool := s.running.isSome

/-- `ERROR`: set by any `raise`, cleared by `CLR_ERR`, `SOFT_RESET`, reset (10_state.md R24). DEDUCED (log 4, unsafe):
a command accepted in ERROR does not clear it before it completes. -/
def State.errorFlag (s : State) : Bool := s.seq == .error

/-- `STATUS` (10_state.md R33): `[0] BUSY`, `[1] ERROR`, `[2] TREE_VALID`, `[3] CODE_VALID`, `[4] BP_OPEN`, `[5] BU_OPEN`,
`[6] TW_ACTIVE`, `[7] TW_DONE`, `[31:8]` zero. DEDUCED (log 3, unsafe): in a busy window the flags other than `BUSY` are
those from before the command, since no intermediate state is architectural (20_memory.md R77). -/
def statusWord (s : State) : Word :=
  0#24 ++ BitVec.ofBool s.tw.done ++ BitVec.ofBool s.tw.active ++ BitVec.ofBool s.bu.isOpen ++ BitVec.ofBool s.bp.isOpen
    ++ BitVec.ofBool s.codes.valid ++ BitVec.ofBool s.tree.valid ++ BitVec.ofBool s.errorFlag ++ BitVec.ofBool s.busy

/-- The port `busy_o`, a copy of `STATUS.BUSY` (10_state.md R51, 60_exceptions.md R305); between power-up and the first
hardware reset a free value, as the state is unspecified then (70_reset_and_hazards.md R330 (b), log 23). -/
def busyPort (s : State) : Bool :=
  if s.awaitingReset then Config.unresetBusy s.freeCount else (statusWord s).getLsbD 0

/-- The port `err_o`, a copy of `STATUS.ERROR` (10_state.md R51, 60_exceptions.md R305); between power-up and the first
hardware reset a free value (70_reset_and_hazards.md R330 (b), log 23). -/
def errPort (s : State) : Bool :=
  if s.awaitingReset then Config.unresetErr s.freeCount else (statusWord s).getLsbD 1

/-- Clear `TW_ACTIVE` and `TW_DONE` (10_state.md R24, R36). -/
def Walker.cancel (k : Walker) : Walker := { k with active := false, done := false }

/-- A walk was started for the old length: the effect of a write of `ORIGLEN_LO` or `ORIGLEN_HI` on the flags
(10_state.md R36). -/
def cancelWalk (s : State) : State := { s with tw := s.tw.cancel }

/-- Tree, code table and walk no longer belong to the frequency table: the effect of a write of `FREQ_DATA` on the flags
(10_state.md R37). -/
def cancelTree (s : State) : State :=
  { s with
    tree := { s.tree with valid := false }
    codes := { s.codes with valid := false }
    tw := s.tw.cancel }

/-- The window the unpacker was opened on no longer matches its registers: the effect of a write of `IBUF_LEN`,
`BU_BASE`, `BU_LIMIT_LO` or `BU_LIMIT_HI` on the flags; `BU_POS` is kept (44_bit_unpacker.md R206). -/
def closeUnpacker (s : State) : State := { s with bu := { s.bu with isOpen := false } }

/-- The flags a new tree clears: the code table and the walk were made for the old one (10_state.md R24). -/
def withNewTree (s : State) (t : Tree) : State :=
  { s with
    tree := t
    codes := { s.codes with valid := false }
    tw := s.tw.cancel }

end Sys2Proof.Machine
end

