-- ==== Sys2Proof/Machine/BitPacker.lean ====
section
/-! DEFINITION. bit_packer (43_bit_packer.md): `BP_INIT`, `BP_PUTBITS`, `BP_PUTSYM`, `BP_FLUSH`. -/

namespace Sys2Proof.Machine

/-- `bp_put(b)` (43_bit_packer.md R181): the bit goes to bit `7 - (BP_BITCNT mod 8)` of `BP_ACC`; a full byte is
appended to `OBUF`, which may raise `OBUF_FULL`. -/
def bpPut (cap : Word) (p : Packer) (b : Bool) : Cmd Packer :=
  let acc := setBit p.acc (7 - p.bitcnt.toNat % 8) b
  let cnt := p.bitcnt + 1
  if cnt.toNat % 8 = 0 then
    match append .obufFull cap p.obuf acc with
    | .ok obuf => .ok { p with acc := 0, bitcnt := cnt, obuf := obuf }
    | .error e => .error e
  else .ok { p with acc := acc, bitcnt := cnt }

/-- `bp_put` of every bit of a string, first bit first. -/
def bpPutAll (cap : Word) : Packer → Bits → Cmd Packer
  | p, [] => .ok p
  | p, b :: bs =>
    match bpPut cap p b with
    | .ok q => bpPutAll cap q bs
    | .error e => .error e

/-- `BP_INIT` (43_bit_packer.md R180). -/
def execBpInit (s : State) : Host.Outcome State Fault Refusal :=
  whenIdle s (.ok { s with bp := ⟨true, 0, 0, []⟩ })

/-- `BP_PUTBITS n, v` (43_bit_packer.md R182): `n` above 16 is `BAD_ARG`, a closed packer `BAD_SEQ`; else the `n` low bits
of `v`, most significant first. -/
def execBpPutbits (n : BitVec 5) (v : BitVec 16) (s : State) : Host.Outcome State Fault Refusal :=
  whenIdle s do
    needCount n (.bpPutbits n v)
    need s.bp.isOpen (.bpPutbits n v)
    let p ← bpPutAll s.caps.obuf s.bp (lowBits v n.toNat)
    .ok { s with bp := p }

/-- `BP_PUTSYM sym` (43_bit_packer.md R183): the packer open, the code table valid, the symbol with a code, checked in
this order; else the code's bits, first bit first. -/
def execBpPutsym (sym : Sym) (s : State) : Host.Outcome State Fault Refusal :=
  whenIdle s do
    need s.bp.isOpen (.bpPutsym sym)
    need s.codes.valid (.bpPutsym sym)
    if symGet s.codes.entries sym = [] then raise .noCode (sym.setWidth 64) else
    let p ← bpPutAll s.caps.obuf s.bp (symGet s.codes.entries sym)
    .ok { s with bp := p }

/-- The work of `BP_FLUSH` on the packer (43_bit_packer.md R184): a partial byte is appended, `BP_BITCNT` is kept, the
packer closes. -/
def bpFlush (cap : Word) (p : Packer) : Cmd Packer :=
  if p.bitcnt.toNat % 8 = 0 then .ok { p with isOpen := false } else
    match append .obufFull cap p.obuf p.acc with
    | .ok obuf => .ok { p with isOpen := false, acc := 0, obuf := obuf }
    | .error e => .error e

/-- `BP_FLUSH` (43_bit_packer.md R184). -/
def execBpFlush (s : State) : Host.Outcome State Fault Refusal :=
  whenIdle s do
    need s.bp.isOpen .bpFlush
    let p ← bpFlush s.caps.obuf s.bp
    .ok { s with bp := p }

end Sys2Proof.Machine
end

