-- ==== Sys2Proof/Machine/CodeGen.lean ====
section
/-! DEFINITION. canonical_code_generator (42_code_generator.md): `CG_GEN` and `CG_EMIT`. Both recursions go down at most 255
internal nodes (R164), so they carry a depth; it runs out only where following children never ends (`Fault.noTree`). -/

namespace Sys2Proof.Machine

/-- The greatest depth of a leaf: a path passes at most 255 internal nodes (00_scope.md R6, `CODE_MAXLEN`). -/
def maxDepth : Nat := 255

/-- `visit(n, p)` (42_code_generator.md R161): a leaf records the accumulated path; an absent child nothing; an internal
node is visited on the left with `p·0`, then on the right with `p·1`. -/
def visit (t : Nodes) : Nat → NodeIdx → Bits → Vector Bits 256 → Cmd (Vector Bits 256)
  | d, n, p, codes =>
    if n.toNat < 256 then .ok (symSet codes (n.setWidth 8) p)
    else if n = absent then .ok codes
    else
      match d with
      | 0 => .error (.fault .noTree)
      | d + 1 =>
        match visit t d (nodeGet t n).left (p ++ [false]) codes with
        | .ok codes' => visit t d (nodeGet t n).right (p ++ [true]) codes'
        | .error e => .error e

/-- No symbol has a code: the first act of `CG_GEN` (42_code_generator.md R160). -/
def emptyCodes : Vector Bits 256 := Vector.replicate 256 []

/-- The code table of a tree, by mode (42_code_generator.md R160, R163). -/
def genCodes (t : Tree) : Cmd (Vector Bits 256) :=
  match t.mode with
  | .empty => .ok emptyCodes
  | .single => .ok (symSet emptyCodes t.singleSym [false])
  | .general => visit t.nodes maxDepth t.root [] emptyCodes

/-- `CG_GEN` (42_code_generator.md R160). -/
def execCgGen (s : State) : Host.Outcome State Fault Refusal :=
  whenIdle s do
    need s.tree.valid .cgGen
    let codes ← genCodes s.tree
    .ok { s with codes := ⟨codes, true⟩ }

/-- `desc(n)` (30_encoding.md R120): a leaf is 1 and its symbol, most significant bit first; an internal node 0, then the
left subtree, then the right. -/
def desc (t : Nodes) : Nat → NodeIdx → Cmd Bits
  | d, n =>
    if n.toNat < 256 then .ok (true :: symBits (n.setWidth 8))
    else if n = absent then .error (.fault .noTree)
    else
      match d with
      | 0 => .error (.fault .noTree)
      | d + 1 =>
        match desc t d (nodeGet t n).left with
        | .error e => .error e
        | .ok l =>
          match desc t d (nodeGet t n).right with
          | .error e => .error e
          | .ok r => .ok (false :: (l ++ r))

/-- `CG_EMIT` (42_code_generator.md R165): a valid tree, `MODE = 2`, the packer open, checked in this order; then the bits
of `desc(ROOT)` go through `bp_put`. -/
def execCgEmit (s : State) : Host.Outcome State Fault Refusal :=
  whenIdle s do
    need s.tree.valid .cgEmit
    need (s.tree.mode == .general) .cgEmit
    need s.bp.isOpen .cgEmit
    let bits ← desc s.tree.nodes maxDepth s.tree.root
    let p ← bpPutAll s.caps.obuf s.bp bits
    .ok { s with bp := p }

end Sys2Proof.Machine
end

