-- ==== Sys2Proof/Machine/System.lean ====
section
/-! DEFINITION. The system commands (46_system_commands.md): `NOP`, `SOFT_RESET`, `CLR_ERR`, `IO_ABORT`. The first three run in
IDLE and in ERROR (60_exceptions.md R301). -/

namespace Sys2Proof.Machine

/-- `NOP` (46_system_commands.md R250). -/
def execNop (s : State) : Host.Outcome State Fault Refusal := runCommand s (.ok s)

/-- `SOFT_RESET` (46_system_commands.md R251). -/
def execSoftReset (s : State) : Host.Outcome State Fault Refusal := runCommand s (.ok (resetElements s))

/-- `CLR_ERR` (46_system_commands.md R252). -/
def execClrErr (s : State) : Host.Outcome State Fault Refusal := runCommand s (.ok (clearError s))

/-- `IO_ABORT` (46_system_commands.md R253): its effect is the error entry `IO_ABORT(0)`. -/
def execIoAbort (s : State) : Host.Outcome State Fault Refusal := whenIdle s (raise .ioAbort 0)

end Sys2Proof.Machine
end

