-- ==== Sys2Proof/Machine/TreeBuilder.lean ====
section
/-! DEFINITION. huffman_tree_builder (41_tree_builder.md): `TB_BUILD`. -/

namespace Sys2Proof.Machine

/-- A node in the builder's queue: its weight, exact (00_scope.md R11: sums stay below 2^40), and its index. -/
structure QNode where
  weight : Nat
  idx : NodeIdx
  deriving DecidableEq, Repr

/-- The order of the queue: lighter first, at equal weight the smaller index (41_tree_builder.md R144). -/
def QNode.before (x y : QNode) : Bool :=
  x.weight < y.weight || (x.weight == y.weight && x.idx.toNat < y.idx.toNat)

/-- The least of a node and a list of nodes in the order of R144. -/
def leastNode : QNode → List QNode → QNode
  | m, [] => m
  | m, x :: xs => leastNode (if x.before m then x else m) xs

/-- Take the least node out of the queue (41_tree_builder.md R140). -/
def popLeast : List QNode → Option (QNode × List QNode)
  | [] => none
  | x :: xs => some (leastNode x xs, (x :: xs).erase (leastNode x xs))

/-- The node a merge makes of the two nodes popped, and its index (41_tree_builder.md R140, R147: first popped left). -/
def mergedEntry (a b : QNode) : NodeEntry := ⟨a.idx, b.idx, BitVec.ofNat 40 (a.weight + b.weight)⟩

/-- `while |live| >= 2`: merge the two least, push the merged node (41_tree_builder.md R140). One unit of fuel a merge; the
length of the queue is always enough (R146: `K - 1` merges). -/
def mergeLoop : Nat → Nat → List QNode → Nodes → List QNode × Nodes
  | 0, _, live, nodes => (live, nodes)
  | fuel + 1, next, live, nodes =>
    match popLeast live with
    | none => (live, nodes)
    | some (a, rest) =>
      match popLeast rest with
      | none => (live, nodes)
      | some (b, rest') =>
        let idx := BitVec.ofNat 9 next
        mergeLoop fuel (next + 1) (rest' ++ [⟨a.weight + b.weight, idx⟩]) (nodeSet nodes idx (mergedEntry a b))

/-- The leaves of the symbols `i, i+1, ...` whose counts are listed, without those of count 0 (41_tree_builder.md R142):
leaf `i` has index `i` and its count as weight. -/
def leavesFrom : Nat → List Word → List QNode
  | _, [] => []
  | i, c :: cs => if c = 0 then leavesFrom (i + 1) cs else ⟨c.toNat, BitVec.ofNat 9 i⟩ :: leavesFrom (i + 1) cs

/-- `live` at the start: the leaves of the symbols with a count that is not 0 (41_tree_builder.md R140). -/
def liveLeaves (freq : Vector Word 256) : List QNode := leavesFrom 0 freq.toList

/-- The sum of all 256 counts (00_scope.md R12). -/
def freqSum (freq : Vector Word 256) : Nat := (freq.toList.map BitVec.toNat).sum

/-- The tree of a frequency table (41_tree_builder.md R140): `K = 0` (R143), `K = 1` (R145), `K >= 2` (R146). -/
def buildTree (freq : Vector Word 256) : Tree :=
  match liveLeaves freq with
  | [] => ⟨clearNodes, 0, absent, .empty, 0, true⟩
  | [x] => ⟨nodeSet clearNodes 256 ⟨x.idx, absent, BitVec.ofNat 40 x.weight⟩, 1, 256, .single, x.idx.setWidth 8, true⟩
  | live =>
    match mergeLoop live.length 256 live clearNodes with
    | (queue, nodes) =>
      ⟨nodes, BitVec.ofNat 9 live.length, (queue.head?.map QNode.idx).getD absent, .general, 0, true⟩

/-- `TB_BUILD`: the tree of `FREQ`, `ORIGLEN` the sum of the counts; code table and walk of an earlier tree discarded
(41_tree_builder.md R140, R151 (e)). It has no error of its own (R140, 60_exceptions.md R292). -/
def execTbBuild (s : State) : Host.Outcome State Fault Refusal :=
  whenIdle s (.ok { withNewTree s (buildTree s.freq) with origLen := BitVec.ofNat 64 (freqSum s.freq) })

end Sys2Proof.Machine
end

