-- ==== Sys2Proof/Machine/BitUnpacker.lean ====
section
/-! DEFINITION. bit_unpacker (44_bit_unpacker.md): `BU_INIT` and `BU_GET`. -/

namespace Sys2Proof.Machine

/-- The byte of `IBUF` a bit fetch reads; the index is within `IBUF` in every state of 10_state.md R49 (20_memory.md
R84 (d)), and an index outside it is a fault. -/
def ibufFetch (cap : Word) (w : InBuf) (i : Nat) : Cmd Byte :=
  if i < cap.toNat then .ok (Memory.read w.mem i) else .error (.fault .ibufOutside)

/-- `bu_next()` (44_bit_unpacker.md R201): `none` is `EOS`, which changes nothing; else the bit at the cursor, most
significant bit of a byte first, and the cursor moves by 1. The byte is read now, not earlier ("lazy"). -/
def buNext (cap : Word) (w : InBuf) (u : Unpacker) : Cmd (Option Bool × Unpacker) :=
  if u.pos = w.limit then .ok (none, u)
  else
    match ibufFetch cap w (w.base.toNat + u.pos.toNat / 8) with
    | .error e => .error e
    | .ok byte => .ok (some (byte.getLsbD (7 - u.pos.toNat % 8)), { u with pos := u.pos + 1 })

/-- `8 * BU_BASE + BU_LIMIT <= 8 * IBUF_LEN`, on unbounded naturals (44_bit_unpacker.md R203, 00_scope.md R11 (d)). -/
def windowFits (w : InBuf) : Bool := 8 * w.base.toNat + w.limit.toNat ≤ 8 * w.len.toNat

/-- `BU_INIT` (44_bit_unpacker.md R203). DEDUCED (log 24, unsafe): it clears `BU_DATA` as R203's operation says, where
10_state.md R43 names only `BU_GET`, error entry and reset as writing it. -/
def execBuInit (s : State) : Host.Outcome State Fault Refusal :=
  whenIdle s (if windowFits s.ibuf then .ok { s with bu := ⟨true, 0, 0⟩ } else raise .badRange s.ibuf.limit)

/-- `for i in 1 .. n: x <- (x << 1) | bu_next()` (44_bit_unpacker.md R204); called with at least `n` bits left, so `EOS`
does not occur. -/
def buTake (cap : Word) (w : InBuf) : Nat → BitVec 16 → Unpacker → Cmd (BitVec 16 × Unpacker)
  | 0, x, u => .ok (x, u)
  | n + 1, x, u =>
    match buNext cap w u with
    | .error e => .error e
    | .ok (none, u') => .ok (x, u')
    | .ok (some b, u') => buTake cap w n (shiftIn x b) u'

/-- The work of `BU_GET n` (44_bit_unpacker.md R204): with fewer than `n` bits left nothing is consumed and `EOS` is set. -/
def buGet (cap : Word) (w : InBuf) (n : BitVec 5) (u : Unpacker) : Cmd Unpacker :=
  if w.limit.toNat - u.pos.toNat < n.toNat then .ok { u with data := buData true 0 0 }
  else
    match buTake cap w n.toNat 0 u with
    | .error e => .error e
    | .ok (x, u') => .ok { u' with data := buData false n x }

/-- `BU_GET n` (44_bit_unpacker.md R204). -/
def execBuGet (n : BitVec 5) (s : State) : Host.Outcome State Fault Refusal :=
  whenIdle s do
    needCount n (.buGet n)
    need s.bu.isOpen (.buGet n)
    let u ← buGet s.caps.ibuf s.ibuf n s.bu
    .ok { s with bu := u }

end Sys2Proof.Machine
end

