-- ==== Sys2Proof/Machine/TreeWalker.lean ====
section
/-! DEFINITION. huffman_decoder_tree_walker (45_tree_walker.md): `TW_CFG`, `TW_LOAD`, `TW_START`, `TW_STEP`, `TW_RUN`. -/

namespace Sys2Proof.Machine

/-! ## TW_CFG -/

/-- The tree `TW_CFG` leaves for a mode (45_tree_walker.md R220). -/
def cfgTree (m : Mode) (s : Sym) : Tree :=
  match m with
  | .empty => ⟨clearNodes, 0, absent, .empty, 0, true⟩
  | .single => ⟨nodeSet clearNodes 256 ⟨leafIdx s, absent, 0⟩, 1, 256, .single, s, true⟩
  | .general => ⟨clearNodes, 0, absent, .general, 0, false⟩

/-- `TW_CFG m, sym` (45_tree_walker.md R220): a mode byte above 2 is `FMT_MODE`. -/
def execTwCfg (m : Byte) (sym : Sym) (s : State) : Host.Outcome State Fault Refusal :=
  whenIdle s
    (match modeOfByte m with
    | none => raiseWord .fmtMode (encode (.twCfg m sym))
    | some mode => .ok (withNewTree s (cfgTree mode sym)))

/-! ## TW_LOAD -/

/-- The working state of the parse (10_state.md R48 (c), (d)): the cursor, `next`, the symbols seen, the nodes. -/
structure Parse where
  bu : Unpacker
  next : Nat
  seen : List Sym
  nodes : Nodes
  deriving DecidableEq, Repr

/-- `b <- bu_next(); if b = EOS: raise FMT_TREE_TRUNC(BU_POS)` (45_tree_walker.md R225). -/
def parseBit (cap : Word) (w : InBuf) (p : Parse) : Cmd (Bool × Parse) :=
  match buNext cap w p.bu with
  | .error e => .error e
  | .ok (none, u) => raise .fmtTreeTrunc u.pos
  | .ok (some b, u) => .ok (b, { p with bu := u })

/-- The bits of a symbol, most significant first (45_tree_walker.md R225). -/
def parseSymBits (cap : Word) (w : InBuf) : Nat → Sym → Parse → Cmd (Sym × Parse)
  | 0, s, p => .ok (s, p)
  | n + 1, s, p =>
    match parseBit cap w p with
    | .error e => .error e
    | .ok (b, q) => parseSymBits cap w n (shiftIn s b) q

/-- A leaf, its marker 1 just read: its symbol, which no earlier leaf may carry (45_tree_walker.md R225, R226). -/
def parseLeaf (cap : Word) (w : InBuf) (p : Parse) : Cmd (NodeIdx × Parse) :=
  match parseSymBits cap w 8 0 p with
  | .error e => .error e
  | .ok (s, q) =>
    if s ∈ q.seen then raise .fmtTreeDup q.bu.pos else .ok (leafIdx s, { q with seen := s :: q.seen })

/-- `parse_internal()` (45_tree_walker.md R225), the marker 0 just read, over the parser of its children: a 256th internal
node is `FMT_TREE_BIG`; the index is taken before the children are read, the entry written after. -/
def parseInternal (child : Parse → Cmd (NodeIdx × Parse)) (p : Parse) : Cmd (NodeIdx × Parse) :=
  if p.next > 510 then raise .fmtTreeBig p.bu.pos
  else
    match child { p with next := p.next + 1 } with
    | .error e => .error e
    | .ok (l, q) =>
      match child q with
      | .error e => .error e
      | .ok (r, q') => .ok (BitVec.ofNat 9 p.next, { q' with nodes := nodeSet q'.nodes (BitVec.ofNat 9 p.next) ⟨l, r, 0⟩ })

/-- `parse_node()` (45_tree_walker.md R225). The depth is that of nested internal nodes; 256 is always enough, since a
256th internal node raises. -/
def parseNode (cap : Word) (w : InBuf) : Nat → Parse → Cmd (NodeIdx × Parse)
  | 0, _ => .error (.fault .noTree)
  | d + 1, p =>
    match parseBit cap w p with
    | .error e => .error e
    | .ok (true, q) => parseLeaf cap w q
    | .ok (false, q) => parseInternal (parseNode cap w d) q

/-- The work of `TW_LOAD` (45_tree_walker.md R225): a first marker 1 is `FMT_TREE_ROOTLEAF`; then the root is parsed as
node 256. -/
def loadTree (cap : Word) (w : InBuf) (u : Unpacker) : Cmd (Tree × Unpacker) :=
  match parseBit cap w ⟨u, 256, [], clearNodes⟩ with
  | .error e => .error e
  | .ok (true, p) => raise .fmtTreeRootleaf p.bu.pos
  | .ok (false, p) =>
    match parseInternal (parseNode cap w 256) p with
    | .error e => .error e
    | .ok (_, q) => .ok (⟨q.nodes, BitVec.ofNat 9 q.seen.length, 256, .general, 0, true⟩, q.bu)

/-- `TW_LOAD` (45_tree_walker.md R225). -/
def execTwLoad (s : State) : Host.Outcome State Fault Refusal :=
  whenIdle s do
    need s.bu.isOpen .twLoad
    let (t, u) ← loadTree s.caps.ibuf s.ibuf s.bu
    .ok { withNewTree s t with bu := u }

/-! ## TW_START, TW_STEP, TW_RUN -/

/-- `TW_START` (45_tree_walker.md R230): a valid tree; in MODE 2 the unpacker open; in MODE 0 `ORIGLEN = 0`, else
`FMT_LEN_MODE`; checked in this order. -/
def execTwStart (s : State) : Host.Outcome State Fault Refusal :=
  whenIdle s do
    need s.tree.valid .twStart
    need (s.tree.mode != .general || s.bu.isOpen) .twStart
    if s.tree.mode = .empty ∧ s.origLen ≠ 0 then raise .fmtLenMode s.origLen else
    .ok { s with tw := ⟨true, s.origLen == 0, s.tree.root, 0, []⟩ }

/-- `if TW_COUNT = ORIGLEN: TW_DONE <- 1` (45_tree_walker.md R231). -/
def Walker.finish (origLen : Len) (k : Walker) : Walker :=
  if k.count = origLen then { k with done := true } else k

/-- Emit one symbol: `append(SOUT, v) ; TW_COUNT <- TW_COUNT + 1` (45_tree_walker.md R231). -/
def Walker.emit (cap : Word) (v : Byte) (k : Walker) : Cmd Walker :=
  match append .soutFull cap k.sout v with
  | .error e => .error e
  | .ok sout => .ok { k with sout := sout, count := k.count + 1 }

/-- `tw_step()` (45_tree_walker.md R231). In single-symbol mode one copy of the symbol, no bit read; in general mode one bit:
to the left child on 0, the right on 1; a leaf emits its symbol and the walk restarts from the root. -/
def twStep (caps : Caps) (w : InBuf) (t : Tree) (origLen : Len) (u : Unpacker) (k : Walker) : Cmd (Unpacker × Walker) :=
  if t.mode = .single then
    match k.emit caps.sout t.singleSym with
    | .error e => .error e
    | .ok k' => .ok (u, k'.finish origLen)
  else
    match buNext caps.ibuf w u with
    | .error e => .error e
    | .ok (none, u') => raise .corEos u'.pos
    | .ok (some b, u') =>
      let c := if b then (nodeGet t.nodes k.cur).right else (nodeGet t.nodes k.cur).left
      if c = absent then raise .corWalkoff u'.pos
      else if c.toNat < 256 then
        match k.emit caps.sout (c.setWidth 8) with
        | .error e => .error e
        | .ok k' => .ok (u', ({ k' with cur := t.root } : Walker).finish origLen)
      else .ok (u', ({ k with cur := c } : Walker).finish origLen)

/-- `TW_STEP` (45_tree_walker.md R232). -/
def execTwStep (s : State) : Host.Outcome State Fault Refusal :=
  whenIdle s do
    need s.tw.active .twStep
    need (!s.tw.done) .twStep
    need (s.tree.mode != .general || s.bu.isOpen) .twStep
    let (u, k) ← twStep s.caps s.ibuf s.tree s.origLen s.bu s.tw
    .ok { s with bu := u, tw := k }

/-- `while TW_DONE = 0: tw_step()` (45_tree_walker.md R233), one unit of fuel a step. -/
def twLoop (caps : Caps) (w : InBuf) (t : Tree) (origLen : Len) : Nat → Unpacker → Walker → Cmd (Unpacker × Walker)
  | 0, u, k => if k.done then .ok (u, k) else .error (.fault .noTree)
  | fuel + 1, u, k =>
    if k.done then .ok (u, k)
    else
      match twStep caps w t origLen u k with
      | .error e => .error e
      | .ok (u', k') => twLoop caps w t origLen fuel u' k'

/-- More steps than a walk can take: each moves a 64-bit cursor towards its end (45_tree_walker.md R233). -/
def walkFuel : Nat := 2 ^ 64 + 1

/-- `TW_RUN` (45_tree_walker.md R233). -/
def execTwRun (s : State) : Host.Outcome State Fault Refusal :=
  whenIdle s do
    need s.tw.active .twRun
    need (s.tree.mode != .general || s.tw.done || s.bu.isOpen) .twRun
    let (u, k) ← twLoop s.caps s.ibuf s.tree s.origLen walkFuel s.bu s.tw
    .ok { s with bu := u, tw := k }

end Sys2Proof.Machine
end

