-- ==== Sys2Proof/Machine/Dispatch.lean ====
section
/-! DEFINITION. One arm per command: the meaning of each is one definition of its own (30_encoding.md R102). -/

namespace Sys2Proof.Machine

def exec (i : Instr) (s : State) : Host.Outcome State Fault Refusal :=
  match i with
  | .nop => Sys2Proof.Machine.execNop s
  | .softReset => Sys2Proof.Machine.execSoftReset s
  | .clrErr => Sys2Proof.Machine.execClrErr s
  | .ioAbort => Sys2Proof.Machine.execIoAbort s
  | .tbBuild => Sys2Proof.Machine.execTbBuild s
  | .cgGen => Sys2Proof.Machine.execCgGen s
  | .cgEmit => Sys2Proof.Machine.execCgEmit s
  | .bpInit => Sys2Proof.Machine.execBpInit s
  | .bpPutbits n v => Sys2Proof.Machine.execBpPutbits n v s
  | .bpPutsym sym => Sys2Proof.Machine.execBpPutsym sym s
  | .bpFlush => Sys2Proof.Machine.execBpFlush s
  | .buInit => Sys2Proof.Machine.execBuInit s
  | .buGet n => Sys2Proof.Machine.execBuGet n s
  | .twCfg m sym => Sys2Proof.Machine.execTwCfg m sym s
  | .twLoad => Sys2Proof.Machine.execTwLoad s
  | .twStart => Sys2Proof.Machine.execTwStart s
  | .twStep => Sys2Proof.Machine.execTwStep s
  | .twRun => Sys2Proof.Machine.execTwRun s

end Sys2Proof.Machine
end

