-- ==== Sys2Proof/Machine/Registers.lean ====
section
/-! DEFINITION. The register map (10_state.md R30 to R47): what a host read of each register returns and what a host write
does, side effects included (20_memory.md R75). `CMD` is presented in Accept.lean. -/

namespace Sys2Proof.Machine

/-- The 50 registers (10_state.md R30). -/
inductive Reg where
  | id | cmd | status | err | errinfoLo | errinfoHi | treeinfo | single
  | origlenLo | origlenHi | freqSel | freqData | nodeSel | nodeLr | nodeWLo | nodeWHi
  | codeSel | codeLen
  | codeBits (j : Fin 8)
  | bpBitcntLo | bpBitcntHi | bpBytes | bpAcc | obufIdx | obufData
  | ibufLen | ibufIdx | ibufData | buBase | buLimitLo | buLimitHi | buPosLo | buPosHi | buData
  | twCountLo | twCountHi | twCur | soutLen | soutIdx | soutData
  | capObuf | capIbuf | capSout
  deriving DecidableEq, Repr

/-- The byte offset of a register (10_state.md R30). -/
def Reg.offset : Reg → BitVec 8
  | .id => 0x00#8
  | .cmd => 0x04#8
  | .status => 0x08#8
  | .err => 0x0C#8
  | .errinfoLo => 0x10#8
  | .errinfoHi => 0x14#8
  | .treeinfo => 0x18#8
  | .single => 0x1C#8
  | .origlenLo => 0x20#8
  | .origlenHi => 0x24#8
  | .freqSel => 0x28#8
  | .freqData => 0x2C#8
  | .nodeSel => 0x30#8
  | .nodeLr => 0x34#8
  | .nodeWLo => 0x38#8
  | .nodeWHi => 0x3C#8
  | .codeSel => 0x40#8
  | .codeLen => 0x44#8
  | .codeBits j => BitVec.ofNat 8 (0x48 + 4 * j.val)
  | .bpBitcntLo => 0x68#8
  | .bpBitcntHi => 0x6C#8
  | .bpBytes => 0x70#8
  | .bpAcc => 0x74#8
  | .obufIdx => 0x78#8
  | .obufData => 0x7C#8
  | .ibufLen => 0x80#8
  | .ibufIdx => 0x84#8
  | .ibufData => 0x88#8
  | .buBase => 0x8C#8
  | .buLimitLo => 0x90#8
  | .buLimitHi => 0x94#8
  | .buPosLo => 0x98#8
  | .buPosHi => 0x9C#8
  | .buData => 0xA0#8
  | .twCountLo => 0xA4#8
  | .twCountHi => 0xA8#8
  | .twCur => 0xAC#8
  | .soutLen => 0xB0#8
  | .soutIdx => 0xB4#8
  | .soutData => 0xB8#8
  | .capObuf => 0xBC#8
  | .capIbuf => 0xC0#8
  | .capSout => 0xC4#8

/-- Every register, in the order of the map. -/
def allRegs : List Reg :=
  ([.id, .cmd, .status, .err, .errinfoLo, .errinfoHi, .treeinfo, .single, .origlenLo, .origlenHi] : List Reg) ++
  ([.freqSel, .freqData, .nodeSel, .nodeLr, .nodeWLo, .nodeWHi, .codeSel, .codeLen] : List Reg) ++
  ([.codeBits 0, .codeBits 1, .codeBits 2, .codeBits 3, .codeBits 4, .codeBits 5, .codeBits 6, .codeBits 7] : List Reg) ++
  ([.bpBitcntLo, .bpBitcntHi, .bpBytes, .bpAcc, .obufIdx, .obufData] : List Reg) ++
  ([.ibufLen, .ibufIdx, .ibufData, .buBase, .buLimitLo, .buLimitHi, .buPosLo, .buPosHi, .buData] : List Reg) ++
  ([.twCountLo, .twCountHi, .twCur, .soutLen, .soutIdx, .soutData, .capObuf, .capIbuf, .capSout] : List Reg)

/-- The register an access reaches: only a word access at a register's offset reaches one (20_memory.md R83,
10_state.md R47). -/
def regAt (w : AccessWidth) (off : BitVec 8) : Option Reg :=
  match w with
  | .word => allRegs.find? (fun r => r.offset == off)
  | .byte => none
  | .half => none

/-- What a read of a register returns (10_state.md R31 to R46); no read has a side effect (20_memory.md R75). -/
def regRead (s : State) : Reg → Word
  | .id => Config.idValue
  | .cmd => 0
  | .status => statusWord s
  | .err => errWord s.err
  | .errinfoLo => lowHalf s.err.info
  | .errinfoHi => highHalf s.err.info
  | .treeinfo => treeInfo s.tree
  | .single => s.tree.singleSym.setWidth 32
  | .origlenLo => lowHalf s.origLen
  | .origlenHi => highHalf s.origLen
  | .freqSel => s.sel.freq.setWidth 32
  | .freqData => symGet s.freq s.sel.freq
  | .nodeSel => s.sel.node.setWidth 32
  | .nodeLr => nodeLR (nodeGet s.tree.nodes s.sel.node)
  | .nodeWLo => Sys2Proof.Machine.nodeWLo (nodeGet s.tree.nodes s.sel.node)
  | .nodeWHi => Sys2Proof.Machine.nodeWHi (nodeGet s.tree.nodes s.sel.node)
  | .codeSel => s.sel.code.setWidth 32
  | .codeLen => (Sys2Proof.Machine.codeLen (symGet s.codes.entries s.sel.code)).setWidth 32
  | .codeBits j => codeWord (symGet s.codes.entries s.sel.code) j.val
  | .bpBitcntLo => lowHalf s.bp.bitcnt
  | .bpBitcntHi => highHalf s.bp.bitcnt
  | .bpBytes => BitVec.ofNat 32 s.bp.obuf.length
  | .bpAcc => s.bp.acc.setWidth 32
  | .obufIdx => s.sel.obuf
  | .obufData => (byteAt s.bp.obuf s.sel.obuf.toNat).setWidth 32
  | .ibufLen => s.ibuf.len
  | .ibufIdx => s.sel.ibuf
  | .ibufData =>
    if s.sel.ibuf.toNat < s.caps.ibuf.toNat then (Memory.read s.ibuf.mem s.sel.ibuf.toNat).setWidth 32 else 0
  | .buBase => s.ibuf.base
  | .buLimitLo => lowHalf s.ibuf.limit
  | .buLimitHi => highHalf s.ibuf.limit
  | .buPosLo => lowHalf s.bu.pos
  | .buPosHi => highHalf s.bu.pos
  | .buData => s.bu.data
  | .twCountLo => lowHalf s.tw.count
  | .twCountHi => highHalf s.tw.count
  | .twCur => s.tw.cur.setWidth 32
  | .soutLen => BitVec.ofNat 32 s.tw.sout.length
  | .soutIdx => s.sel.sout
  | .soutData => (byteAt s.tw.sout s.sel.sout.toNat).setWidth 32
  | .capObuf => s.caps.obuf
  | .capIbuf => s.caps.ibuf
  | .capSout => s.caps.sout

/-- `IBUF_LEN` stores `min(wdata, IBUF_CAP)` (10_state.md R43). -/
def clampLen (cap v : Word) : Word := if v.toNat ≤ cap.toNat then v else cap

/-- `IBUF[IBUF_IDX] <- wdata[7:0]` when the index is within `IBUF`, else ignored; the unpacker stays open (10_state.md R43,
20_memory.md R82, R85). -/
def writeIbuf (s : State) (v : Word) : State :=
  if s.sel.ibuf.toNat < s.caps.ibuf.toNat then
    { s with ibuf := { s.ibuf with mem := Memory.write s.ibuf.mem s.sel.ibuf.toNat (v.setWidth 8) } }
  else s

/-- What a write of a register does (10_state.md R30 to R46): a read-only register ignores it; an input clears the flags of
what was derived from it (20_memory.md R75, R81), whatever the value. `CMD` stores nothing (R32). -/
def regWrite (s : State) (v : Word) : Reg → State
  | .origlenLo => { cancelWalk s with origLen := setLowHalf s.origLen v }
  | .origlenHi => { cancelWalk s with origLen := setHighHalf s.origLen v }
  | .freqSel => { s with sel := { s.sel with freq := v.setWidth 8 } }
  | .freqData => { cancelTree s with freq := symSet s.freq s.sel.freq v }
  | .nodeSel => { s with sel := { s.sel with node := v.setWidth 9 } }
  | .codeSel => { s with sel := { s.sel with code := v.setWidth 8 } }
  | .obufIdx => { s with sel := { s.sel with obuf := v } }
  | .ibufLen => { closeUnpacker s with ibuf := { s.ibuf with len := clampLen s.caps.ibuf v } }
  | .ibufIdx => { s with sel := { s.sel with ibuf := v } }
  | .ibufData => writeIbuf s v
  | .buBase => { closeUnpacker s with ibuf := { s.ibuf with base := v } }
  | .buLimitLo => { closeUnpacker s with ibuf := { s.ibuf with limit := setLowHalf s.ibuf.limit v } }
  | .buLimitHi => { closeUnpacker s with ibuf := { s.ibuf with limit := setHighHalf s.ibuf.limit v } }
  | .soutIdx => { s with sel := { s.sel with sout := v } }
  | .id | .cmd | .status | .err | .errinfoLo | .errinfoHi | .treeinfo | .single | .nodeLr | .nodeWLo | .nodeWHi
  | .codeLen | .codeBits _ | .bpBitcntLo | .bpBitcntHi | .bpBytes | .bpAcc | .obufData | .buPosLo | .buPosHi | .buData
  | .twCountLo | .twCountHi | .twCur | .soutLen | .soutData | .capObuf | .capIbuf | .capSout => s

end Sys2Proof.Machine
end

