-- ==== Sys2Proof/Machine/Accept.lean ====
section
/-! DEFINITION. The host in front of HUFFCORE: acceptance of a command word (30_encoding.md R103), the busy window
(20_memory.md R78), and one host operation at a time (20_memory.md R79). -/

namespace Sys2Proof.Machine

/-- The three words executed in ERROR: `NOP`, `SOFT_RESET`, `CLR_ERR` with `ARG = 0` (30_encoding.md R103 step 2). -/
def runsInError (c : Word) : Bool :=
  c == encode .nop || c == encode .softReset || c == encode .clrErr

/-- Whether a word written to `CMD` is acted on at all: in IDLE every word is (it executes or raises), in ERROR only three
are and every other is ignored (30_encoding.md R103, R106). -/
def actsOn (s : State) (c : Word) : Bool := s.seq == .idle || runsInError c

/-- Steps 3 to 5 of the acceptance (30_encoding.md R103): an undefined opcode is `ILLEGAL_CMD(c)`, a reserved bit
`BAD_ARG(c)`, and else the command's own rule runs. -/
def runWord (c : Word) (s : State) : Host.Outcome State Fault Refusal :=
  match decode c with
  | .ok i => exec i s
  | .error .illegalCmd => whenIdle s (raiseWord .illegalCmd c)
  | .error .badArg => whenIdle s (raiseWord .badArg c)

/-- A word presented to `CMD` while `BUSY = 0` (30_encoding.md R103 steps 2 to 5). With `hold = 0` no operation of the
host falls into the busy window and the command is one transition; else `BUSY` rises first, and the command's effect
comes when it falls (20_memory.md R77). DEDUCED (log 13, safe): a word that raises at acceptance may hold `BUSY` too. -/
def writeCmd (c : Word) (hold : Nat) (s : State) : Host.Outcome State Fault Refusal :=
  if actsOn s c then
    match hold with
    | 0 => runWord c s
    | n + 1 => .next { s with running := some ⟨.command c, n + 1⟩ }
  else .next s

/-- Hardware reset (70_reset_and_hazards.md R330 (a)): every element at its reset value, whatever the block is doing; the
busy window is the clearing of the memories (R332). -/
def hardReset (hold : Nat) (s : State) : State :=
  match hold with
  | 0 => resetElements s
  | n + 1 => { resetElements s with running := some ⟨.clearing, n + 1⟩ }

/-- Power-up: nothing is known of the state until a hardware reset (70_reset_and_hazards.md R330 (b)). DESIGN CHOICE
(logs 8, 23, safe): every access is refused until then and the ports show free values, so that nothing can see what the
other fields hold; each power-up takes fresh free values. -/
def powerUp (s : State) : State := { s with running := none, awaitingReset := true, freeCount := s.freeCount + 1 }

/-- A register read while `BUSY = 0`: the value goes to `rdata`; an access that reaches no register reads 0
(10_state.md R47, 20_memory.md R83). -/
def readIdle (w : AccessWidth) (off : BitVec 8) (s : State) : State :=
  match regAt w off with
  | none => { s with rdata := 0 }
  | some r => { s with rdata := regRead s r }

/-- A register write while `BUSY = 0`; an access that reaches no register is ignored (10_state.md R47, 20_memory.md R83). -/
def writeIdle (w : AccessWidth) (off : BitVec 8) (v : Word) (hold : Nat) (s : State) : Host.Outcome State Fault Refusal :=
  match regAt w off with
  | none => .next s
  | some .cmd => writeCmd v hold s
  | some r => .next (regWrite s v r)

/-- A register read while `BUSY = 1` (20_memory.md R78): `ID` and `STATUS` read true; any other register reads some
32-bit value (free, log 5) with no side effect; an access that reaches no register reads 0 (log 9). -/
def readBusy (w : AccessWidth) (off : BitVec 8) (s : State) : State :=
  match regAt w off with
  | none => { s with rdata := 0 }
  | some .id => { s with rdata := regRead s .id }
  | some .status => { s with rdata := regRead s .status }
  | some _ => { s with rdata := Config.unspecifiedRead s.freeCount, freeCount := s.freeCount + 1 }

/-- One operation of the host while `BUSY = 0`. -/
def hostOpIdle (e : HostEvent) (s : State) : Host.Outcome State Fault Refusal :=
  match e.op with
  | .read w off => .next (readIdle w off s)
  | .write w off v => writeIdle w off v e.hold s
  | .hardReset => .next (hardReset e.hold s)
  | .powerUp => .next (powerUp s)

/-- One operation of the host while `BUSY = 1`: every write is ignored, `CMD` and `SOFT_RESET` included
(20_memory.md R78, 46_system_commands.md R254 (d)); only the reset pin stops what runs. -/
def hostOpBusy (e : HostEvent) (s : State) : State :=
  match e.op with
  | .read w off => readBusy w off s
  | .write _ _ _ => s
  | .hardReset => hardReset e.hold s
  | .powerUp => powerUp s

/-- One operation of the host between power-up and the first hardware reset: no access is allowed
(70_reset_and_hazards.md R330 (b)). -/
def hostOpUnreset (e : HostEvent) (s : State) : Host.Outcome State Fault Refusal :=
  match e.op with
  | .read _ _ => .refused .accessBeforeReset
  | .write _ _ _ => .refused .accessBeforeReset
  | .hardReset => .next (hardReset e.hold s)
  | .powerUp => .next (powerUp s)

/-- The fall of `BUSY`: what runs completes (20_memory.md R77). -/
def complete (work : Work) (s : State) : Host.Outcome State Fault Refusal :=
  match work with
  | .command c => runWord c s
  | .clearing => .next s

end Sys2Proof.Machine
end

