-- ==== Sys2Proof/Machine/Step.lean ====
section
/-! DEFINITION. One step: the next operation of the host, or the completion of what runs (10_state.md R20, 20_memory.md R79). -/

namespace Sys2Proof.Machine

/-- One step of HUFFCORE and its host. While something runs and the host has an operation that falls into its busy window,
that operation is served; when none is left it completes. Otherwise the host's next operation is served; with none
pending nothing happens, since HUFFCORE never acts on its own (10_state.md R20). -/
def step (s : State) : Host.Outcome State Fault Refusal :=
  match s.running with
  | some ⟨work, left⟩ =>
    match left, s.events with
    | n + 1, e :: es => .next (hostOpBusy e { s with events := es, running := some ⟨work, n⟩ })
    | _, _ => complete work { s with running := none }
  | none =>
    match s.events with
    | [] => .next s
    | e :: es =>
      if s.awaitingReset then hostOpUnreset e { s with events := es } else hostOpIdle e { s with events := es }

/-- The host event that writes a command word to `CMD`, no host operation in its busy window. -/
def cmdEvent (c : Word) : HostEvent := ⟨.write .word Reg.cmd.offset c, 0⟩

/-- `s` with the host's next operation a write of the command word `w` to `CMD`, which is where HUFFCORE takes its next
command from (10_state.md R22): nothing runs, no reset is awaited, and the word is first in the host's list (log 1). -/
def State.withFetchWord (s : State) (nbits w : Nat) : State :=
  { s with
    running := none
    awaitingReset := false
    events := cmdEvent (BitVec.ofNat 32 (w % 2 ^ min nbits 32)) :: s.events }

end Sys2Proof.Machine
end

