-- ==== Sys2Proof/Safety.lean ====
section
/-! DEFINITION. What a safe state is: the invariants of 10_state.md R49 as one predicate, and the readings of the tables and
buffers that statements are made in: a tree held in the arena, the bits in the packer, the bits the unpacker has left. -/

namespace Sys2Proof.Machine

/-! ## Trees held in the arena -/

/-- A binary tree with symbols at its leaves and an arena index at every internal node (00_scope.md §7, "Huffman tree"). -/
inductive HTree where
  | leaf (s : Sym)
  | node (i : NodeIdx) (l r : HTree)
  deriving DecidableEq, Repr

namespace HTree

/-- The node index that names the tree: its leaf's symbol, or its root's arena index (10_state.md R26). -/
def root : HTree → NodeIdx
  | leaf s => leafIdx s
  | node i _ _ => i

/-- The symbols at the leaves, from left to right. -/
def leaves : HTree → List Sym
  | leaf s => [s]
  | node _ l r => l.leaves ++ r.leaves

/-- The arena indices of the internal nodes, in pre-order. -/
def inner : HTree → List NodeIdx
  | leaf _ => []
  | node i l r => i :: (l.inner ++ r.inner)

/-- Every leaf with the edges from the root to it, 0 left and 1 right, after a path already taken (30_encoding.md R115). -/
def codes : HTree → Bits → List (Sym × Bits)
  | leaf s, p => [(s, p)]
  | node _ l r, p => l.codes (p ++ [false]) ++ r.codes (p ++ [true])

/-- `desc` (30_encoding.md R120). -/
def desc : HTree → Bits
  | leaf s => true :: symBits s
  | node _ l r => false :: (l.desc ++ r.desc)

/-- The arena holds the tree: every internal node's entry names its two subtrees (10_state.md R26). -/
def heldIn (t : Nodes) : HTree → Bool
  | leaf _ => true
  | node i l r =>
    isInternal i && (nodeGet t i).left == l.root && (nodeGet t i).right == r.root && l.heldIn t && r.heldIn t

/-- The same shape with the same symbols at the same leaves, whatever the arena indices (30_encoding.md R122). -/
def sameShape : HTree → HTree → Bool
  | leaf s, leaf s' => s == s'
  | node _ l r, node _ l' r' => l.sameShape l' && r.sameShape r'
  | leaf _, node _ _ _ => false
  | node _ _ _, leaf _ => false

/-- The weight of the tree: its leaf's count, or what its root's entry says (10_state.md R26). -/
def weight (t : Nodes) (freq : Vector Word 256) : HTree → Nat
  | leaf s => (symGet freq s).toNat
  | node i _ _ => (nodeGet t i).weight.toNat

/-- The subtree a path from the root leads to, 0 left and 1 right. -/
def subtreeAt : HTree → Bits → Option HTree
  | leaf s, p => if p = [] then some (leaf s) else none
  | node i l r, p =>
    match p with
    | [] => some (node i l r)
    | false :: q => l.subtreeAt q
    | true :: q => r.subtreeAt q

/-- Every internal node's weight is the sum of its children's weights (41_tree_builder.md R148). -/
def weighed (t : Nodes) (freq : Vector Word 256) : HTree → Bool
  | leaf _ => true
  | node i l r =>
    (nodeGet t i).weight.toNat == l.weight t freq + r.weight t freq && l.weighed t freq && r.weighed t freq

/-- Every child's index is smaller than its parent's (41_tree_builder.md R148). -/
def childrenBelow : HTree → Bool
  | leaf _ => true
  | node i l r => l.root.toNat < i.toNat && r.root.toNat < i.toNat && l.childrenBelow && r.childrenBelow

/-- The sum of the weights of all internal nodes (41_tree_builder.md R152). -/
def innerWeight (t : Nodes) (h : HTree) : Nat := (h.inner.map (fun i => (nodeGet t i).weight.toNat)).sum

/-- The sum over the leaves of count times depth (41_tree_builder.md R152). -/
def cost (freq : Vector Word 256) (h : HTree) : Nat :=
  ((h.codes []).map (fun x => (symGet freq x.1).toNat * x.2.length)).sum

end HTree

/-- The descriptors `t` are those of the tree `h` with two leaves or more (10_state.md R49 (c)): the root is internal, no
symbol and no arena index occurs twice, `K` counts the leaves, the internal nodes are exactly 256 to 254 + `K`, and every
other entry is the reset entry. -/
structure GeneralTree (t : Tree) (h : HTree) : Prop where
  root : h.root = t.root
  rootInternal : isInternal t.root = true
  held : h.heldIn t.nodes = true
  leavesOnce : h.leaves.Nodup
  innerOnce : h.inner.Nodup
  count : h.leaves.length = t.k.toNat
  inner : ∀ i, i ∈ h.inner ↔ 256 ≤ i.toNat ∧ i.toNat ≤ 254 + t.k.toNat
  others : ∀ i, i ∉ h.inner → nodeGet t.nodes i = NodeEntry.reset

/-! ## Bits -/

/-- The bits of whole bytes, most significant first (20_memory.md R71). -/
def bytesBits (bytes : List Byte) : Bits := bytes.flatMap (fun b => lowBits b 8)

/-- The significant bits in an open packer: those of `OBUF`, then the `BP_BITCNT mod 8` newest from the top of `BP_ACC`
(10_state.md R40). -/
def Packer.stream (p : Packer) : Bits := bytesBits p.obuf ++ (lowBits p.acc 8).take (p.bitcnt.toNat % 8)

/-- Stream bit `j`: bit `7 - (j mod 8)` of byte `IBUF[BU_BASE + (j div 8)]` (20_memory.md R72). -/
def streamBit (w : InBuf) (j : Nat) : Bool := (Memory.read w.mem (w.base.toNat + j / 8)).getLsbD (7 - j % 8)

/-- The bits from a cursor to `BU_LIMIT`: what the unpacker has left (44_bit_unpacker.md R201). -/
def unread (w : InBuf) (u : Unpacker) : Bits :=
  (List.range (w.limit.toNat - u.pos.toNat)).map (fun i => streamBit w (u.pos.toNat + i))

/-! ## Descriptions read in part -/

/-- A token of a tree description: the marker of an internal node, or the marker of a leaf and its symbol
(30_encoding.md R120). -/
inductive Token where
  | inner
  | leaf (s : Sym)
  deriving DecidableEq, Repr

/-- The bits of a token (30_encoding.md R120). -/
def Token.bits : Token → Bits
  | inner => [false]
  | leaf s => true :: symBits s

/-- The symbols of the leaf tokens, in reading order. -/
def tokenLeaves : List Token → List Sym
  | [] => []
  | .inner :: ts => tokenLeaves ts
  | .leaf s :: ts => s :: tokenLeaves ts

/-- How many internal nodes the tokens open. -/
def tokenInner : List Token → Nat
  | [] => 0
  | .inner :: ts => tokenInner ts + 1
  | .leaf _ :: ts => tokenInner ts

/-- The bits of a token sequence. -/
def tokenBits (ts : List Token) : Bits := ts.flatMap Token.bits

/-- With `n` subtrees missing before the tokens, at least one is missing before each of them and after the last: the
description is not complete (30_encoding.md R121: "a parser knows it is complete when every internal node it opened has
received two children"). -/
def stillOpen : Nat → List Token → Bool
  | 0, _ => false
  | _ + 1, [] => true
  | n + 1, .inner :: ts => stillOpen (n + 2) ts
  | n + 1, .leaf _ :: ts => stillOpen n ts

/-- The beginning of a tree description in which no fault can be known yet: its first marker is 0, the tree is not complete,
no symbol has come twice, no 256th internal node has been opened (45_tree_walker.md R226). -/
structure FaultFree (ts : List Token) : Prop where
  first : ts.head? = some .inner
  isOpen : stillOpen 1 ts = true
  distinct : (tokenLeaves ts).Nodup
  inner : tokenInner ts ≤ 255

/-! ## The invariants of 10_state.md R49 -/

/-- R49 (a) to (c). -/
structure TreeInv (t : Tree) : Prop where
  empty : t.valid = true → t.mode = .empty → t.k = 0 ∧ t.root = absent
  single : t.valid = true → t.mode = .single →
    t.k = 1 ∧ t.root = 256 ∧ (nodeGet t.nodes 256).left = leafIdx t.singleSym ∧ (nodeGet t.nodes 256).right = absent
  general : t.valid = true → t.mode = .general → ∃ h, GeneralTree t h

/-- R49 (d), 10_state.md R27 and R28: a valid code table is the one generated from the tree now held; no code is longer
than 255 bits. -/
structure CodesInv (t : Tree) (c : CodeTable) : Prop where
  generated : c.valid = true → t.valid = true ∧ genCodes t = .ok c.entries
  short : ∀ x, (symGet c.entries x).length ≤ 255

/-- R49 (g), 10_state.md R40. -/
structure PackerInv (cap : Word) (p : Packer) : Prop where
  opened : p.isOpen = true →
    p.obuf.length = p.bitcnt.toNat / 8 ∧ ∀ j, j < 8 - p.bitcnt.toNat % 8 → p.acc.getLsbD j = false
  closed : p.isOpen = false → p.obuf.length = (p.bitcnt.toNat + 7) / 8 ∧ p.acc = 0
  fits : p.obuf.length ≤ cap.toNat

/-- 10_state.md R42: `IBUF` in canonical form and within its capacity. -/
structure InBufInv (cap : Word) (w : InBuf) : Prop where
  wf : Memory.wf w.mem
  within : ∀ c ∈ w.mem, c.1 < cap.toNat
  lenFits : w.len.toNat ≤ cap.toNat

/-- R49 (f). -/
structure UnpackerInv (w : InBuf) (u : Unpacker) : Prop where
  opened : u.isOpen = true → u.pos.toNat ≤ w.limit.toNat ∧ windowFits w = true

/-- R49 (e), 10_state.md R44, and 45_tree_walker.md R231: the walk stands on an internal node of the tree. -/
structure WalkerInv (cap : Word) (t : Tree) (origLen : Len) (k : Walker) : Prop where
  fits : k.sout.length ≤ cap.toNat
  inactive : k.active = false → k.done = false
  tree : k.active = true → t.valid = true
  counted : k.active = true → k.sout.length = k.count.toNat ∧ k.count.toNat ≤ origLen.toNat
  done : k.active = true → (k.done = true ↔ k.count = origLen)
  emptyMode : k.active = true → t.mode = .empty → origLen = 0
  onNode : k.active = true → t.mode = .general → 256 ≤ k.cur.toNat ∧ k.cur.toNat ≤ 254 + t.k.toNat

/-- R49 (h), 10_state.md R34: no error is recorded in IDLE; in ERROR one of the 16 is, and everything the block produced
holds its reset value. -/
structure ErrInv (s : State) : Prop where
  idle : s.seq = .idle → s.err = ErrRegs.reset
  error : s.seq = .error →
    (∃ e : ErrCode, s.err.code = e.code ∧ s.err.cls = e.cls) ∧ s.tree = Tree.reset ∧ s.codes = CodeTable.reset ∧
      s.bp = Packer.reset ∧ s.bu = Unpacker.reset ∧ s.tw = Walker.reset

/-- The invariants of HUFFCORE (10_state.md R49), with the bounds of its buffers. -/
structure State.Inv (s : State) : Prop where
  tree : TreeInv s.tree
  codes : CodesInv s.tree s.codes
  packer : PackerInv s.caps.obuf s.bp
  inbuf : InBufInv s.caps.ibuf s.ibuf
  unpacker : UnpackerInv s.ibuf s.bu
  walker : WalkerInv s.caps.sout s.tree s.origLen s.tw
  err : ErrInv s

/-- The host's next operation presents the command word `c` to `CMD`, with `hold` of its later operations in the busy
window; nothing runs and no reset is awaited. -/
structure Presents (s : State) (c : Word) (hold : Nat) (es : List HostEvent) : Prop where
  notBusy : s.running = none
  wasReset : s.awaitingReset = false
  next : s.events = ⟨.write .word Reg.cmd.offset c, hold⟩ :: es

/-- The busy window of what runs is over: no operation of the host falls into it any more (log 2). -/
def WindowOver (s : State) (work : Work) : Prop := ∃ n, s.running = some ⟨work, n⟩ ∧ (n = 0 ∨ s.events = [])

/-- The host's next operation is `op`, nothing runs and no reset is awaited. -/
structure Performs (s : State) (op : HostOp) (es : List HostEvent) : Prop where
  notBusy : s.running = none
  wasReset : s.awaitingReset = false
  next : ∃ hold, s.events = ⟨op, hold⟩ :: es

/-- How many symbols of a frequency table have a count that is not 0 (41_tree_builder.md R142). -/
def distinctSyms (freq : Vector Word 256) : Nat := freq.toList.countP (fun c => c != 0)

end Sys2Proof.Machine
end

