-- ==== Sys2Proof/Certificates/Slice0/Obligations.lean ====
section
/-! DEFINITION. What is claimed of HUFFCORE, one proposition per rule or group of rules of spec/. Nothing is proved here. -/

open Sys2Proof Sys2Proof.Machine

/-! ## The command word -/

/-- 30_encoding.md R100 to R102: no bit of a command's encoding is dropped, at any value of any operand. -/
def Obligations.DecodeOfEncode : Prop := ∀ i : Instr, decode (encode i) = .ok i

/-- 30_encoding.md R100 to R102: a word has at most one reading, and that command's word is the word itself. -/
def Obligations.EncodeOfDecode : Prop := ∀ (c : Word) (i : Instr), decode c = .ok i → encode i = c

/-- Command words written out in the spec (30_encoding.md R135, 95_test_vectors.md) decode to the commands they stand for; the
opcode map with the reserved `ARG` bits of each opcode, and the word of every command as a number (R100 to R102). -/
def Obligations.SpecWordsDecode : Prop :=
  (decode 0x31030005#32 = .ok (.bpPutbits 3#5 0x5#16) ∧ decode 0x32000061#32 = .ok (.bpPutsym 0x61#8) ∧
    decode 0x41000008#32 = .ok (.buGet 8#5) ∧ decode 0x50000161#32 = .ok (.twCfg 1#8 0x61#8) ∧
    decode 0x10000000#32 = .ok .tbBuild ∧ decode 0x00000000#32 = .ok .nop) ∧
  allOpcodes.map (fun op => (op.code, op.reserved)) =
    [(0x00, 0xFFFFFF), (0x01, 0xFFFFFF), (0x02, 0xFFFFFF), (0x03, 0xFFFFFF), (0x10, 0xFFFFFF), (0x20, 0xFFFFFF),
     (0x21, 0xFFFFFF), (0x30, 0xFFFFFF), (0x31, 0xE00000), (0x32, 0xFFFF00), (0x33, 0xFFFFFF), (0x40, 0xFFFFFF),
     (0x41, 0xFFFFE0), (0x50, 0xFF0000), (0x51, 0xFFFFFF), (0x52, 0xFFFFFF), (0x53, 0xFFFFFF), (0x54, 0xFFFFFF)] ∧
  [Instr.nop, .softReset, .clrErr, .ioAbort, .tbBuild, .cgGen, .cgEmit, .bpInit, .bpFlush, .buInit, .twLoad, .twStart, .twStep,
    .twRun].map encode =
    [0x00000000, 0x01000000, 0x02000000, 0x03000000, 0x10000000, 0x20000000, 0x21000000, 0x30000000, 0x33000000, 0x40000000,
     0x51000000, 0x52000000, 0x53000000, 0x54000000] ∧
  (∀ n v, (encode (.bpPutbits n v)).toNat = 0x31000000 + 2 ^ 16 * n.toNat + v.toNat) ∧
  (∀ x, (encode (.bpPutsym x)).toNat = 0x32000000 + x.toNat) ∧
  (∀ n, (encode (.buGet n)).toNat = 0x41000000 + n.toNat) ∧
  (∀ m x, (encode (.twCfg m x)).toNat = 0x50000000 + 2 ^ 8 * m.toNat + x.toNat)

/-- 30_encoding.md R104: a word whose opcode is none of the 18 raises `ILLEGAL_CMD` with the word in IDLE and is ignored
in ERROR. -/
def Obligations.UndefinedOpcodeIsIllegal : Prop :=
  ∀ (s : State) (c : Word) (es : List HostEvent), Presents s c 0 es → (∀ op ∈ allOpcodes, op.code ≠ opcField c) →
    (s.seq = .idle → step s = .next (abortRun .illegalCmd (c.setWidth 64) { s with events := es })) ∧
    (s.seq = .error → step s = .next { s with events := es })

/-- 30_encoding.md R105: in IDLE a defined opcode with a reserved bit set, and `n` above 16, raise `BAD_ARG` with the word;
a mode byte above 2 raises `FMT_MODE` with the word. -/
def Obligations.BadOperandsAreRefused : Prop :=
  ∀ (s : State) (c : Word) (es : List HostEvent), Presents s c 0 es → s.seq = .idle →
    (∀ op ∈ allOpcodes, op.code = opcField c → argField c &&& op.reserved ≠ 0 →
      step s = .next (abortRun .badArg (c.setWidth 64) { s with events := es })) ∧
    (∀ n v, decode c = .ok (.bpPutbits n v) → 16 < n.toNat →
      step s = .next (abortRun .badArg (c.setWidth 64) { s with events := es })) ∧
    (∀ n, decode c = .ok (.buGet n) → 16 < n.toNat →
      step s = .next (abortRun .badArg (c.setWidth 64) { s with events := es })) ∧
    (∀ m x, decode c = .ok (.twCfg m x) → 2 < m.toNat →
      step s = .next (abortRun .fmtMode (c.setWidth 64) { s with events := es }))

/-! ## Steps, the busy window, acceptance -/

/-- 20_memory.md R77, 30_encoding.md R103 (the host as a list of events: log 1): a step in which the host presents a command word is that command's meaning, in
the state with that operation done; likewise the word `withFetchWord` places. -/
def Obligations.StepRunsDecodedCommand : Prop :=
  ∀ (s : State) (c : Word) (es : List HostEvent) (i : Instr), decode c = .ok i →
    (Presents s c 0 es → step s = exec i { s with events := es }) ∧
    step (s.withFetchWord 32 c.toNat) = exec i { s with running := none, awaitingReset := false }

/-- 10_state.md R23, 20_memory.md R77, 30_encoding.md R103 to R105 (the window as a count of host operations: log 2; that a
word which raises at acceptance may hold `BUSY` too: log 13): with host operations in its busy window a word that is acted
on makes `BUSY` rise and changes nothing else; when the window is over, one step is the command's whole effect, and in IDLE
for a word with an undefined opcode or a reserved bit set the error entry `ILLEGAL_CMD` or `BAD_ARG` with the word. -/
def Obligations.BusyRisesThenCommandCompletes : Prop :=
  (∀ (s : State) (c : Word) (n : Nat) (es : List HostEvent), Presents s c (n + 1) es →
    (s.seq = .idle ∨ c = 0x00000000#32 ∨ c = 0x01000000#32 ∨ c = 0x02000000#32) →
    step s = .next { s with events := es, running := some ⟨.command c, n + 1⟩ }) ∧
  (∀ (s : State) (c : Word) (i : Instr), WindowOver s (.command c) → decode c = .ok i →
    step s = exec i { s with running := none }) ∧
  (∀ (s : State) (c : Word), WindowOver s (.command c) → s.seq = .idle →
    ((∀ op ∈ allOpcodes, op.code ≠ opcField c) →
      step s = .next (abortRun .illegalCmd (c.setWidth 64) { s with running := none })) ∧
    (∀ op ∈ allOpcodes, op.code = opcField c → argField c &&& op.reserved ≠ 0 →
      step s = .next (abortRun .badArg (c.setWidth 64) { s with running := none })))

/-- 20_memory.md R78 (the window as a count, the other bits of `STATUS`, the free value: logs 2 to 5): while `BUSY = 1`, reads of `ID` and `STATUS` return their true value (`BUSY` reads 1), a read of any
other register some value and no side effect, and every write is ignored. -/
def Obligations.HostAccessWhileBusy : Prop :=
  ∀ (s : State) (work : Work) (n hold : Nat) (op : HostOp) (es : List HostEvent),
    s.running = some ⟨work, n + 1⟩ → s.events = ⟨op, hold⟩ :: es →
    (op = .read .word Reg.id.offset →
      step s = .next { s with running := some ⟨work, n⟩, events := es, rdata := 0x48554601#32 }) ∧
    (op = .read .word Reg.status.offset →
      step s = .next { s with running := some ⟨work, n⟩, events := es, rdata := statusWord s } ∧
      (statusWord s).getLsbD 0 = true) ∧
    (∀ w off, op = .read w off →
      ∃ v k, step s = .next { s with running := some ⟨work, n⟩, events := es, rdata := v, freeCount := k }) ∧
    (∀ w off v, op = .write w off v → step s = .next { s with running := some ⟨work, n⟩, events := es })

/-- 30_encoding.md R103 step 2, 60_exceptions.md R301: in ERROR every word but `NOP`, `SOFT_RESET`, `CLR_ERR` is ignored:
no state changes and `BUSY` does not rise. -/
def Obligations.ErrorStateIgnoresOtherWords : Prop :=
  ∀ (s : State) (c : Word) (hold : Nat) (es : List HostEvent), Presents s c hold es → s.seq = .error →
    c ≠ 0x00000000#32 → c ≠ 0x01000000#32 → c ≠ 0x02000000#32 → step s = .next { s with events := es }

/-- 60_exceptions.md R303: no command raises an error in ERROR: `NOP` and the ignored ones change nothing, `SOFT_RESET` and
`CLR_ERR` lead to IDLE with no error recorded. -/
def Obligations.ErrorsAreNotNested : Prop :=
  ∀ (i : Instr) (s : State), s.seq = .error →
    exec i s = .next s ∨ ∃ t, exec i s = .next t ∧ t.seq = .idle ∧ t.err = ⟨0, 0, 0⟩

/-! ## Errors -/

/-- 60_exceptions.md R300: what error entry writes, what it resets and what it keeps. -/
def Obligations.ErrorEntryState : Prop :=
  ∀ (e : ErrCode) (info : Len) (s : State), let t := abortRun e info s
    t.seq = .error ∧ t.err = ⟨e.code, e.cls, info⟩ ∧
    t.tree.k = 0 ∧ t.tree.root = 511 ∧ t.tree.mode = .empty ∧ t.tree.singleSym = 0 ∧ t.tree.valid = false ∧
    (∀ i, nodeGet t.tree.nodes i = ⟨511, 511, 0⟩) ∧ (∀ x, symGet t.codes.entries x = []) ∧ t.codes.valid = false ∧
    t.bp = ⟨false, 0, 0, []⟩ ∧ t.bu = ⟨false, 0, 0⟩ ∧ t.tw = ⟨false, false, 511, 0, []⟩ ∧
    t.freq = s.freq ∧ t.origLen = s.origLen ∧ t.ibuf = s.ibuf ∧ t.sel = s.sel

/-- 60_exceptions.md R299: errors are precise: what a command leaves is its effect with `SEQ` IDLE, or error entry applied
to the state before it. -/
def Obligations.ErrorsArePrecise : Prop :=
  ∀ (i : Instr) (s t : State), s.seq = .idle → exec i s = .next t →
    (t.seq = .idle ∧ t.err = s.err) ∨ (t.seq = .idle ∧ t.err = ⟨0, 0, 0⟩) ∨ ∃ e info, t = abortRun e info s

/-- 60_exceptions.md R291: `CODE` and `CLASS` of the 16 errors. -/
def Obligations.ErrorCodeTable : Prop :=
  [ErrCode.ioAbort, .obufFull, .soutFull, .fmtMode, .fmtTreeTrunc, .fmtTreeDup, .fmtTreeRootleaf, .fmtLenMode, .fmtTreeBig,
    .corEos, .corWalkoff, .illegalCmd, .badArg, .badSeq, .noCode, .badRange].map (fun e => errWord ⟨e.code, e.cls, 0⟩) =
  [0x110#32, 0x111#32, 0x112#32, 0x220#32, 0x221#32, 0x222#32, 0x223#32, 0x224#32, 0x225#32,
    0x330#32, 0x331#32, 0x440#32, 0x441#32, 0x442#32, 0x443#32, 0x444#32]

/-- 45_tree_walker.md R231, R236: from a state within the invariants no command raises `COR_WALKOFF`. -/
def Obligations.WalkoffIsUnreachable : Prop :=
  ∀ (i : Instr) (s t : State), s.Inv → s.seq = .idle → exec i s = .next t → ∀ info, t ≠ abortRun .corWalkoff info s

/-! ## Reset and the system commands -/

/-- 70_reset_and_hazards.md R331: the register images after reset (the capacities opaque: log 6). -/
def Obligations.ResetRegisterImages : Prop :=
  ∀ r : Reg, regRead State.reset r =
    if r = .id then 0x48554601#32 else if r = .treeinfo then 0x01FF0000#32 else if r = .nodeLr then 0x01FF01FF#32
    else if r = .twCur then 0x000001FF#32 else if r = .capObuf then Config.obufCap else if r = .capIbuf then Config.ibufCap
    else if r = .capSout then Config.soutCap else 0

/-- 46_system_commands.md R251, 70_reset_and_hazards.md R330, R332: `SOFT_RESET`, in IDLE and in ERROR, and hardware reset,
whatever the block is doing, give every element its reset value; the host's side of State (logs 1, 5, 7) and the capacities
stay. A hardware reset with host operations in the clearing of the memories (log 2) leaves that state with `BUSY` up, and the
end of the clearing only lets `BUSY` fall. -/
def Obligations.SoftResetEqualsHardReset : Prop :=
  (∀ s : State, exec .softReset s =
    .next { State.reset with caps := s.caps, rdata := s.rdata, events := s.events, freeCount := s.freeCount }) ∧
  (∀ (s : State) (n : Nat) (es : List HostEvent), s.events = ⟨.hardReset, n⟩ :: es → (∀ w, s.running ≠ some ⟨w, 0⟩) →
    step s = .next { State.reset with
      caps := s.caps, rdata := s.rdata, events := es, freeCount := s.freeCount,
      running := if n = 0 then none else some ⟨.clearing, n⟩ }) ∧
  (∀ s : State, WindowOver s .clearing → step s = .next { s with running := none })

/-- 46_system_commands.md R250, R252, R253: `NOP` changes nothing and `CLR_ERR` clears `SEQ`, `ERR` and `ERRINFO` and nothing
else, in IDLE and in ERROR; `IO_ABORT` is the error entry `IO_ABORT(0)` in IDLE and is ignored in ERROR. -/
def Obligations.NopClrErrIoAbort : Prop :=
  ∀ s : State, exec .nop s = .next s ∧ exec .clrErr s = .next { s with seq := .idle, err := ⟨0, 0, 0⟩ } ∧
    (s.seq = .idle → exec .ioAbort s = .next (abortRun .ioAbort 0 s)) ∧
    (s.seq = .error → exec .ioAbort s = .next s)

/-- 70_reset_and_hazards.md R330 (b) (refusing: log 8; that nothing runs then: log 23): power-up, at rest, in a busy window or
while a reset is awaited, leaves HUFFCORE awaiting a hardware reset; until that reset no access is accepted, and the reset ends
the wait. -/
def Obligations.NoAccessBeforeReset : Prop :=
  (∀ (s : State) (hold : Nat) (es : List HostEvent), s.events = ⟨.powerUp, hold⟩ :: es → (∀ w, s.running ≠ some ⟨w, 0⟩) →
    ∃ t, step s = .next t ∧ t.awaitingReset = true ∧ t.running = none ∧ t.events = es ∧ t.caps = s.caps) ∧
  (∀ (s : State) (op : HostOp) (hold : Nat) (es : List HostEvent),
    s.running = none → s.awaitingReset = true → s.events = ⟨op, hold⟩ :: es →
    (∀ w off, op = .read w off → step s = .refused .accessBeforeReset) ∧
    (∀ w off v, op = .write w off v → step s = .refused .accessBeforeReset) ∧
    (op = .hardReset → ∃ t, step s = .next t ∧ t.awaitingReset = false ∧ t.seq = .idle))

/-! ## Tree builder -/

/-- 41_tree_builder.md R143: `TB_BUILD` on the all-zero table leaves the EMPTY descriptors. -/
def Obligations.TbBuildEmptyTable : Prop :=
  ∀ s : State, s.seq = .idle → (∀ x, symGet s.freq x = 0) →
    exec .tbBuild s = .next { s with
      tree := ⟨clearNodes, 0, 511, .empty, 0, true⟩, codes := { s.codes with valid := false },
      tw := { s.tw with active := false, done := false }, origLen := 0 }

/-- 41_tree_builder.md R145: `TB_BUILD` with one symbol: the root is `NODE[256]` with the leaf on its left and no right child. -/
def Obligations.TbBuildSingleSymbol : Prop :=
  ∀ (s : State) (x : Sym), s.seq = .idle → symGet s.freq x ≠ 0 → (∀ y, y ≠ x → symGet s.freq y = 0) →
    exec .tbBuild s = .next { s with
      tree := ⟨nodeSet clearNodes 256 ⟨leafIdx x, 511, (symGet s.freq x).setWidth 40⟩, 1, 256, .single, x, true⟩,
      codes := { s.codes with valid := false }, tw := { s.tw with active := false, done := false },
      origLen := (symGet s.freq x).setWidth 64 }

/-- 41_tree_builder.md R146, R148, 00_scope.md R12: `TB_BUILD` with two symbols or more completes and leaves a tree over
exactly the symbols with a count, root 254 + `K`, every weight the sum of its children's, the root's weight `ORIGLEN` and
the sum of the counts, every child's index below its parent's. -/
def Obligations.TbBuildGeneralTree : Prop :=
  ∀ s : State, s.seq = .idle → 2 ≤ distinctSyms s.freq →
    ∃ t h, exec .tbBuild s = .next { s with
        tree := t, codes := { s.codes with valid := false }, tw := { s.tw with active := false, done := false },
        origLen := BitVec.ofNat 64 (freqSum s.freq) } ∧
      GeneralTree t h ∧ t.mode = .general ∧ t.valid = true ∧ t.singleSym = 0 ∧
      t.k.toNat = distinctSyms s.freq ∧ t.root.toNat = 254 + t.k.toNat ∧
      (∀ x, x ∈ h.leaves ↔ symGet s.freq x ≠ 0) ∧
      h.weighed t.nodes s.freq = true ∧ h.childrenBelow = true ∧
      h.weight t.nodes s.freq = freqSum s.freq ∧ freqSum s.freq < 2 ^ 40

/-- 41_tree_builder.md R144, R147: a node comes before another when it is lighter, or as heavy and of smaller index. A merge
takes the least node `a` of the queue and then the least of the rest, `b`; `a` becomes the left child and `b` the right, and
the merged node joins the queue under the next index; with one node left the merges end. `TB_BUILD` with two symbols or more
is these merges, from the leaves of the symbols with a count, from index 256 on, and its root is the node left. -/
def Obligations.MergeTakesTheTwoLeast : Prop :=
  (∀ x y : QNode, x.before y = true ↔ x.weight < y.weight ∨ (x.weight = y.weight ∧ x.idx.toNat < y.idx.toNat)) ∧
  (∀ (fuel next : Nat) (live : List QNode) (nodes : Nodes), 2 ≤ live.length → (live.map QNode.idx).Nodup →
    ∃ a b rest, live.Perm (a :: b :: rest) ∧ a.before b = true ∧ (∀ x ∈ rest, b.before x = true) ∧
      mergeLoop (fuel + 1) next live nodes =
        mergeLoop fuel (next + 1) (rest ++ [⟨a.weight + b.weight, BitVec.ofNat 9 next⟩])
          (nodeSet nodes (BitVec.ofNat 9 next) ⟨a.idx, b.idx, BitVec.ofNat 40 (a.weight + b.weight)⟩)) ∧
  (∀ (fuel next : Nat) (x : QNode) (nodes : Nodes), mergeLoop fuel next [x] nodes = ([x], nodes)) ∧
  (∀ s : State, s.seq = .idle → 2 ≤ distinctSyms s.freq →
    ∃ live root nodes, (live.map QNode.idx).Nodup ∧
      (∀ q, q ∈ live ↔ ∃ x, symGet s.freq x ≠ 0 ∧ q = ⟨(symGet s.freq x).toNat, leafIdx x⟩) ∧
      mergeLoop live.length 256 live clearNodes = ([root], nodes) ∧
      exec .tbBuild s = .next { s with
        tree := ⟨nodes, BitVec.ofNat 9 live.length, root.idx, .general, 0, true⟩,
        codes := { s.codes with valid := false }, tw := { s.tw with active := false, done := false },
        origLen := BitVec.ofNat 64 (freqSum s.freq) })

/-- 41_tree_builder.md R152: in the tree of `TB_BUILD` the sum over symbols of count times depth equals the sum of the
weights of all internal nodes. -/
def Obligations.TbBuildCostIdentity : Prop :=
  ∀ s t : State, s.seq = .idle → 2 ≤ distinctSyms s.freq → exec .tbBuild s = .next t →
    ∃ h, GeneralTree t.tree h ∧ h.cost s.freq = h.innerWeight t.tree.nodes

/-! ## Code generator -/

/-- 42_code_generator.md R160, R161, R162 (a), (b): on a valid general tree `CG_GEN` completes, gives every leaf the path
from the root to it and every other symbol no code, and changes nothing else. -/
def Obligations.CgGenGivesPathCodes : Prop :=
  ∀ (s : State) (h : HTree), s.seq = .idle → s.tree.valid = true → s.tree.mode = .general → GeneralTree s.tree h →
    ∃ entries, exec .cgGen s = .next { s with codes := ⟨entries, true⟩ } ∧
      (∀ x ∈ h.codes [], symGet entries x.1 = x.2) ∧ (∀ x, x ∉ h.leaves → symGet entries x = [])

/-- 42_code_generator.md R163, R167 (a): in SINGLE mode the lone symbol has the code "0" and no other symbol has one; in
EMPTY mode no symbol has one. -/
def Obligations.CgGenSpecialModes : Prop :=
  ∀ s : State, s.seq = .idle → s.tree.valid = true →
    (s.tree.mode = .single → ∃ entries, exec .cgGen s = .next { s with codes := ⟨entries, true⟩ } ∧
      symGet entries s.tree.singleSym = [false] ∧ ∀ x, x ≠ s.tree.singleSym → symGet entries x = []) ∧
    (s.tree.mode = .empty → ∃ entries, exec .cgGen s = .next { s with codes := ⟨entries, true⟩ } ∧
      ∀ x, symGet entries x = [])

/-- 42_code_generator.md R160, R165: `CG_GEN` needs a valid tree; `CG_EMIT` a valid tree, general mode and an open packer;
else `BAD_SEQ` with the command word. -/
def Obligations.CgNeedsItsTree : Prop :=
  ∀ s : State, s.seq = .idle →
    (s.tree.valid = false → exec .cgGen s = .next (abortRun .badSeq 0x20000000#64 s)) ∧
    (s.tree.valid = false ∨ s.tree.mode ≠ .general ∨ s.bp.isOpen = false →
      exec .cgEmit s = .next (abortRun .badSeq 0x21000000#64 s))

/-- 47_host_procedures.md R276, 42_code_generator.md R162 (e): no code of a valid code table is the beginning of another. -/
def Obligations.CodesArePrefixFree : Prop :=
  ∀ s : State, s.Inv → s.codes.valid = true → ∀ a b : Sym, a ≠ b →
    symGet s.codes.entries a ≠ [] → symGet s.codes.entries b ≠ [] →
    ¬ symGet s.codes.entries a <+: symGet s.codes.entries b

/-- 42_code_generator.md R162 (f): in general mode every infinite bit sequence begins with exactly one code. -/
def Obligations.CodesAreComplete : Prop :=
  ∀ s : State, s.Inv → s.codes.valid = true → s.tree.mode = .general → ∀ f : Nat → Bool,
    ∃ x, (symGet s.codes.entries x ≠ [] ∧
        symGet s.codes.entries x = (List.range (symGet s.codes.entries x).length).map f) ∧
      ∀ y, symGet s.codes.entries y ≠ [] →
        symGet s.codes.entries y = (List.range (symGet s.codes.entries y).length).map f → y = x

/-- 42_code_generator.md R165, 30_encoding.md R121: on a valid general tree with the packer open and room for it, `CG_EMIT`
completes, appends exactly the `10K - 1` bits of the description, leaves the packer open and changes nothing else. -/
def Obligations.CgEmitAppendsDescription : Prop :=
  ∀ (s : State) (h : HTree), s.seq = .idle → s.tree.valid = true → s.tree.mode = .general → GeneralTree s.tree h →
    s.bp.isOpen = true → PackerInv s.caps.obuf s.bp →
    (s.bp.bitcnt.toNat + (10 * s.tree.k.toNat - 1)) / 8 ≤ s.caps.obuf.toNat →
    ∃ p, exec .cgEmit s = .next { s with bp := p } ∧ p.isOpen = true ∧ p.stream = s.bp.stream ++ h.desc ∧
      p.bitcnt.toNat = s.bp.bitcnt.toNat + (10 * s.tree.k.toNat - 1)

/-! ## Bit packer -/

/-- 43_bit_packer.md R180: `BP_INIT` opens the packer on an empty buffer whatever its state was. -/
def Obligations.BpInitOpensEmpty : Prop :=
  ∀ s : State, s.seq = .idle → exec .bpInit s = .next { s with bp := ⟨true, 0, 0, []⟩ }

/-- 43_bit_packer.md R182: with the packer open and room for it, `BP_PUTBITS n, v` appends the `n` low bits of `v`, most
significant first, and changes nothing else. -/
def Obligations.PutBitsAppends : Prop :=
  ∀ (s : State) (n : BitVec 5) (v : BitVec 16), s.seq = .idle → n.toNat ≤ 16 → s.bp.isOpen = true →
    PackerInv s.caps.obuf s.bp → (s.bp.bitcnt.toNat + n.toNat) / 8 ≤ s.caps.obuf.toNat →
    ∃ p, exec (.bpPutbits n v) s = .next { s with bp := p } ∧ p.isOpen = true ∧
      p.stream = s.bp.stream ++ lowBits v n.toNat ∧ p.bitcnt.toNat = s.bp.bitcnt.toNat + n.toNat

/-- 43_bit_packer.md R183: with packer open, code table valid, a code for the symbol and room for it, `BP_PUTSYM` appends the
code, first bit first, and changes nothing else. -/
def Obligations.PutSymAppends : Prop :=
  ∀ (s : State) (x : Sym), s.seq = .idle → s.bp.isOpen = true → s.codes.valid = true → symGet s.codes.entries x ≠ [] →
    PackerInv s.caps.obuf s.bp →
    (s.bp.bitcnt.toNat + (symGet s.codes.entries x).length) / 8 ≤ s.caps.obuf.toNat →
    ∃ p, exec (.bpPutsym x) s = .next { s with bp := p } ∧ p.isOpen = true ∧
      p.stream = s.bp.stream ++ symGet s.codes.entries x ∧
      p.bitcnt.toNat = s.bp.bitcnt.toNat + (symGet s.codes.entries x).length

/-- 43_bit_packer.md R182 to R184: the errors of the packer's commands, in the order of their preconditions. -/
def Obligations.PackerPreconditions : Prop :=
  ∀ s : State, s.seq = .idle →
    (∀ n v, n.toNat ≤ 16 → s.bp.isOpen = false →
      exec (.bpPutbits n v) s = .next (abortRun .badSeq ((encode (.bpPutbits n v)).setWidth 64) s)) ∧
    (∀ x, s.bp.isOpen = false ∨ s.codes.valid = false →
      exec (.bpPutsym x) s = .next (abortRun .badSeq ((encode (.bpPutsym x)).setWidth 64) s)) ∧
    (∀ x, s.bp.isOpen = true → s.codes.valid = true → symGet s.codes.entries x = [] →
      exec (.bpPutsym x) s = .next (abortRun .noCode (x.setWidth 64) s)) ∧
    (s.bp.isOpen = false → exec .bpFlush s = .next (abortRun .badSeq 0x33000000#64 s))

/-- 43_bit_packer.md R187, 20_memory.md R76: with its preconditions met a command of the packer, and `CG_EMIT`, raises
`OBUF_FULL` with `OBUF_CAP` when the whole bytes of the stream do not fit `OBUF` (for a flush, when the rounded-up count does
not). -/
def Obligations.PackerRaisesWhenFull : Prop :=
  ∀ s : State, s.seq = .idle → s.bp.isOpen = true → PackerInv s.caps.obuf s.bp →
    (∀ n v, n.toNat ≤ 16 → s.caps.obuf.toNat < (s.bp.bitcnt.toNat + n.toNat) / 8 →
      exec (.bpPutbits n v) s = .next (abortRun .obufFull (s.caps.obuf.setWidth 64) s)) ∧
    (∀ x, s.codes.valid = true → symGet s.codes.entries x ≠ [] →
      s.caps.obuf.toNat < (s.bp.bitcnt.toNat + (symGet s.codes.entries x).length) / 8 →
      exec (.bpPutsym x) s = .next (abortRun .obufFull (s.caps.obuf.setWidth 64) s)) ∧
    (∀ h, s.tree.valid = true → s.tree.mode = .general → GeneralTree s.tree h →
      s.caps.obuf.toNat < (s.bp.bitcnt.toNat + (10 * s.tree.k.toNat - 1)) / 8 →
      exec .cgEmit s = .next (abortRun .obufFull (s.caps.obuf.setWidth 64) s)) ∧
    (s.caps.obuf.toNat < (s.bp.bitcnt.toNat + 7) / 8 →
      exec .bpFlush s = .next (abortRun .obufFull (s.caps.obuf.setWidth 64) s))

/-- 43_bit_packer.md R184: `BP_FLUSH` on an open packer with room for it closes it; the bytes are the stream and then zero
bits up to a byte boundary, `BP_BITCNT` is kept, nothing else changes. -/
def Obligations.FlushPadsAndCloses : Prop :=
  ∀ s : State, s.seq = .idle → s.bp.isOpen = true → PackerInv s.caps.obuf s.bp →
    (s.bp.bitcnt.toNat + 7) / 8 ≤ s.caps.obuf.toNat →
    ∃ bytes, exec .bpFlush s = .next { s with bp := ⟨false, 0, s.bp.bitcnt, bytes⟩ } ∧
      bytes.length = (s.bp.bitcnt.toNat + 7) / 8 ∧
      ∃ pad, bytesBits bytes = s.bp.stream ++ List.replicate pad false ∧ pad < 8

/-! ## Bit unpacker -/

/-- 44_bit_unpacker.md R203 (that `BU_DATA` is cleared, which 10_state.md R43 does not list: log 24): `BU_INIT` opens the
unpacker at bit 0 when the window lies inside the valid bytes, and raises `BAD_RANGE(BU_LIMIT)` otherwise. -/
def Obligations.BuInitOpensOrRefuses : Prop :=
  ∀ s : State, s.seq = .idle →
    (8 * s.ibuf.base.toNat + s.ibuf.limit.toNat ≤ 8 * s.ibuf.len.toNat →
      exec .buInit s = .next { s with bu := ⟨true, 0, 0⟩ }) ∧
    (8 * s.ibuf.len.toNat < 8 * s.ibuf.base.toNat + s.ibuf.limit.toNat →
      exec .buInit s = .next (abortRun .badRange s.ibuf.limit s))

/-- 44_bit_unpacker.md R204, 20_memory.md R72: `BU_GET n` with at least `n` bits left consumes them, first bit most significant,
right-aligned in `BITS`, with `CNT = n` and `EOS = 0` where 10_state.md R43 puts them in `BU_DATA`, and changes nothing but the
unpacker's cursor and result. -/
def Obligations.BuGetTakesBits : Prop :=
  ∀ (s : State) (n : BitVec 5), s.seq = .idle → n.toNat ≤ 16 → s.bu.isOpen = true → UnpackerInv s.ibuf s.bu →
    InBufInv s.caps.ibuf s.ibuf → n.toNat ≤ (unread s.ibuf s.bu).length →
    ∃ (x : BitVec 16) (d : Word), exec (.buGet n) s = .next { s with bu := ⟨true, s.bu.pos + n.setWidth 64, d⟩ } ∧
      d.toNat = x.toNat + 2 ^ 16 * n.toNat ∧
      lowBits x n.toNat = (unread s.ibuf s.bu).take n.toNat ∧ x.toNat < 2 ^ n.toNat

/-- 44_bit_unpacker.md R204, R202: with fewer than `n` bits left nothing is consumed and `BU_DATA` is `EOS = 1`, `CNT = 0`,
`BITS = 0`; a closed unpacker is `BAD_SEQ`. -/
def Obligations.BuGetAtTheEnd : Prop :=
  ∀ (s : State) (n : BitVec 5), s.seq = .idle → n.toNat ≤ 16 →
    (s.bu.isOpen = true → s.ibuf.limit.toNat - s.bu.pos.toNat < n.toNat →
      exec (.buGet n) s = .next { s with bu := ⟨true, s.bu.pos, 0x80000000#32⟩ }) ∧
    (s.bu.isOpen = false →
      exec (.buGet n) s = .next (abortRun .badSeq ((encode (.buGet n)).setWidth 64) s))

/-! ## Tree walker: configuration and load -/

/-- 45_tree_walker.md R220: the state `TW_CFG` leaves for each mode byte 0, 1, 2. -/
def Obligations.TwCfgModes : Prop :=
  ∀ (s : State) (x : Sym), s.seq = .idle → let cleared := { s.tw with active := false, done := false }
    exec (.twCfg 0 x) s = .next { s with
      tree := ⟨clearNodes, 0, 511, .empty, 0, true⟩, codes := { s.codes with valid := false }, tw := cleared } ∧
    exec (.twCfg 1 x) s = .next { s with
      tree := ⟨nodeSet clearNodes 256 ⟨leafIdx x, 511, 0⟩, 1, 256, .single, x, true⟩,
      codes := { s.codes with valid := false }, tw := cleared } ∧
    exec (.twCfg 2 x) s = .next { s with
      tree := ⟨clearNodes, 0, 511, .general, 0, false⟩, codes := { s.codes with valid := false }, tw := cleared }

/-- 45_tree_walker.md R225, 30_encoding.md R122: `TW_LOAD` on a stream that begins with the description of a tree over distinct
symbols completes: it rebuilds a tree of the same shape with the same leaves, internal nodes numbered 256, 257, ... in
pre-order, weights 0, and consumes exactly the description; nothing else changes. -/
def Obligations.TwLoadReadsDescription : Prop :=
  ∀ (s : State) (i : NodeIdx) (l r : HTree), s.seq = .idle → s.bu.isOpen = true → UnpackerInv s.ibuf s.bu →
    InBufInv s.caps.ibuf s.ibuf → (HTree.node i l r).leaves.Nodup →
    (HTree.node i l r).desc <+: unread s.ibuf s.bu →
    ∃ t h, exec .twLoad s = .next { s with
        tree := t, codes := { s.codes with valid := false }, tw := { s.tw with active := false, done := false },
        bu := { s.bu with pos := s.bu.pos + BitVec.ofNat 64 (HTree.node i l r).desc.length } } ∧
      GeneralTree t h ∧ (HTree.node i l r).sameShape h = true ∧ t.root = 256 ∧ t.mode = .general ∧ t.valid = true ∧
      t.singleSym = 0 ∧ h.inner.map BitVec.toNat = List.range' 256 (t.k.toNat - 1) ∧
      (∀ n, (nodeGet t.nodes n).weight = 0)

/-- 45_tree_walker.md R225 to R227: `TW_LOAD` on an open unpacker accepts only the description of a tree within
10_state.md R49 (c), consumed exactly, or raises one of the four faults of a tree description: a truncated one at the end of
the window, a first marker 1 right after it, a 256th internal node right after its marker, a repeated symbol right after its
eighth bit, in each case where no earlier fault is. Conversely, a stream that begins with a fault-free description in part
and then the marker of a 256th internal node is `FMT_TREE_BIG` there, and one with a symbol it has carried `FMT_TREE_DUP`
there; so a description that carries a symbol twice is `FMT_TREE_DUP` within it. -/
def Obligations.TwLoadAcceptsOnlyTrees : Prop :=
  ∀ s : State, s.seq = .idle → s.bu.isOpen = true → UnpackerInv s.ibuf s.bu → InBufInv s.caps.ibuf s.ibuf →
    let behind := fun ts => s.bu.pos + BitVec.ofNat 64 (tokenBits ts).length
    (∃ t, exec .twLoad s = .next t ∧
      ((t.seq = .idle ∧ t.tree.valid = true ∧ t.tree.mode = .general ∧ ∃ h, GeneralTree t.tree h ∧
          h.desc <+: unread s.ibuf s.bu ∧ t.bu.pos = s.bu.pos + BitVec.ofNat 64 h.desc.length) ∨
        t = abortRun .fmtTreeTrunc s.ibuf.limit s ∨
        ((unread s.ibuf s.bu).head? = some true ∧ t = abortRun .fmtTreeRootleaf (s.bu.pos + 1) s) ∨
        (∃ ts, FaultFree ts ∧ tokenInner ts = 255 ∧ tokenBits (ts ++ [.inner]) <+: unread s.ibuf s.bu ∧
          t = abortRun .fmtTreeBig (behind (ts ++ [.inner])) s) ∨
        ∃ ts x, FaultFree ts ∧ x ∈ tokenLeaves ts ∧ tokenBits (ts ++ [.leaf x]) <+: unread s.ibuf s.bu ∧
          t = abortRun .fmtTreeDup (behind (ts ++ [.leaf x])) s)) ∧
    (∀ ts, FaultFree ts → tokenInner ts = 255 → tokenBits (ts ++ [.inner]) <+: unread s.ibuf s.bu →
      exec .twLoad s = .next (abortRun .fmtTreeBig (behind (ts ++ [.inner])) s)) ∧
    (∀ ts x, FaultFree ts → x ∈ tokenLeaves ts → tokenBits (ts ++ [.leaf x]) <+: unread s.ibuf s.bu →
      exec .twLoad s = .next (abortRun .fmtTreeDup (behind (ts ++ [.leaf x])) s)) ∧
    (∀ i l r, (HTree.node i l r).desc <+: unread s.ibuf s.bu → (HTree.node i l r).leaves.length ≤ 256 →
      ¬ (HTree.node i l r).leaves.Nodup →
      ∃ ts x, tokenBits (ts ++ [.leaf x]) <+: (HTree.node i l r).desc ∧ x ∈ tokenLeaves ts ∧
        exec .twLoad s = .next (abortRun .fmtTreeDup (behind (ts ++ [.leaf x])) s))

/-- 45_tree_walker.md R225, R226: a closed unpacker, an empty stream, and a first marker 1. -/
def Obligations.TwLoadFirstMarker : Prop :=
  ∀ s : State, s.seq = .idle →
    (s.bu.isOpen = false → exec .twLoad s = .next (abortRun .badSeq 0x51000000#64 s)) ∧
    (s.bu.isOpen = true → s.bu.pos = s.ibuf.limit → exec .twLoad s = .next (abortRun .fmtTreeTrunc s.bu.pos s)) ∧
    (s.bu.isOpen = true → UnpackerInv s.ibuf s.bu → InBufInv s.caps.ibuf s.ibuf →
      (unread s.ibuf s.bu).head? = some true →
      exec .twLoad s = .next (abortRun .fmtTreeRootleaf (s.bu.pos + 1) s))

/-! ## Tree walker: the walk -/

/-- 45_tree_walker.md R230: `TW_START` begins a walk on the root with nothing produced, done at once when `ORIGLEN` is 0; its
errors in order. -/
def Obligations.TwStartBegins : Prop :=
  ∀ s : State, s.seq = .idle →
    (s.tree.valid = true → (s.tree.mode = .general → s.bu.isOpen = true) → (s.tree.mode = .empty → s.origLen = 0) →
      exec .twStart s = .next { s with tw := ⟨true, s.origLen == 0, s.tree.root, 0, []⟩ }) ∧
    (s.tree.valid = false ∨ (s.tree.mode = .general ∧ s.bu.isOpen = false) →
      exec .twStart s = .next (abortRun .badSeq 0x52000000#64 s)) ∧
    (s.tree.valid = true → s.tree.mode = .empty → s.origLen ≠ 0 →
      exec .twStart s = .next (abortRun .fmtLenMode s.origLen s))

/-- 45_tree_walker.md R232, R233: the preconditions of `TW_STEP` and `TW_RUN`, and `TW_RUN` after the walk is done. -/
def Obligations.TwStepAndRunPreconditions : Prop :=
  ∀ s : State, s.seq = .idle →
    (s.tw.active = false ∨ s.tw.done = true ∨ (s.tree.mode = .general ∧ s.bu.isOpen = false) →
      exec .twStep s = .next (abortRun .badSeq 0x53000000#64 s)) ∧
    (s.tw.active = false ∨ (s.tree.mode = .general ∧ s.tw.done = false ∧ s.bu.isOpen = false) →
      exec .twRun s = .next (abortRun .badSeq 0x54000000#64 s)) ∧
    (s.tw.active = true → s.tw.done = true → exec .twRun s = .next s)

/-- 45_tree_walker.md R231, R235: in SINGLE mode a step appends one copy of the recorded symbol and reads no bit; a full `SOUT`
is `SOUT_FULL`. -/
def Obligations.TwStepSingleMode : Prop :=
  ∀ s : State, s.seq = .idle → s.tw.active = true → s.tw.done = false → s.tree.mode = .single →
    (s.tw.sout.length < s.caps.sout.toNat →
      exec .twStep s = .next { s with tw := ⟨true, s.tw.count + 1 == s.origLen, s.tw.cur, s.tw.count + 1,
        s.tw.sout ++ [s.tree.singleSym]⟩ }) ∧
    (s.tw.sout.length = s.caps.sout.toNat →
      exec .twStep s = .next (abortRun .soutFull (s.caps.sout.setWidth 64) s))

/-- 45_tree_walker.md R231: in GENERAL mode a step consumes one bit: it moves to the child of that bit when the child is
internal; at a leaf it emits the symbol and restarts from the root; a full `SOUT` is `SOUT_FULL`, no bit left `COR_EOS`. -/
def Obligations.TwStepGeneralMode : Prop :=
  ∀ s : State, s.seq = .idle → s.tw.active = true → s.tw.done = false → s.tree.mode = .general → s.bu.isOpen = true →
    UnpackerInv s.ibuf s.bu → InBufInv s.caps.ibuf s.ibuf →
    (unread s.ibuf s.bu = [] → exec .twStep s = .next (abortRun .corEos s.ibuf.limit s)) ∧
    (∀ (b : Bool) (rest : Bits) (c : NodeIdx), unread s.ibuf s.bu = b :: rest →
      c = (if b then (nodeGet s.tree.nodes s.tw.cur).right else (nodeGet s.tree.nodes s.tw.cur).left) →
      (isInternal c = true → exec .twStep s = .next { s with
        bu := { s.bu with pos := s.bu.pos + 1 },
        tw := { s.tw with cur := c, done := s.tw.count == s.origLen } }) ∧
      (∀ x, c = leafIdx x → s.tw.sout.length < s.caps.sout.toNat → exec .twStep s = .next { s with
        bu := { s.bu with pos := s.bu.pos + 1 },
        tw := ⟨true, s.tw.count + 1 == s.origLen, s.tree.root, s.tw.count + 1, s.tw.sout ++ [x]⟩ }) ∧
      (∀ x, c = leafIdx x → s.tw.sout.length = s.caps.sout.toNat →
        exec .twStep s = .next (abortRun .soutFull (s.caps.sout.setWidth 64) s)))

/-- 45_tree_walker.md R235: in SINGLE mode `TW_RUN` emits the recorded symbol until `ORIGLEN` bytes are out and reads no bit. -/
def Obligations.TwRunSingleMode : Prop :=
  ∀ s : State, s.seq = .idle → s.tw.active = true → s.tree.mode = .single →
    WalkerInv s.caps.sout s.tree s.origLen s.tw → s.origLen.toNat ≤ s.caps.sout.toNat →
    exec .twRun s = .next { s with tw := ⟨true, true, s.tw.cur, s.origLen,
      s.tw.sout ++ List.replicate (s.origLen.toNat - s.tw.count.toNat) s.tree.singleSym⟩ }

/-- 45_tree_walker.md R233, R234, R237: over a stream that holds the codes of the symbols still owed and then anything, a
walk that stands on the root completes with exactly those symbols, consumes exactly their codes and stops; a walk that steps
have left inside the tree first completes the code it is in. -/
def Obligations.TwRunDecodesPayload : Prop :=
  ∀ (s : State) (h : HTree) (payload : List (Sym × Bits)) (padding : Bits),
    s.seq = .idle → s.tw.active = true → s.tree.mode = .general → s.bu.isOpen = true → GeneralTree s.tree h →
    UnpackerInv s.ibuf s.bu → InBufInv s.caps.ibuf s.ibuf → WalkerInv s.caps.sout s.tree s.origLen s.tw →
    (∀ x ∈ payload, x ∈ h.codes []) → s.origLen.toNat ≤ s.caps.sout.toNat →
    (s.tw.cur = s.tree.root → unread s.ibuf s.bu = payload.flatMap Prod.snd ++ padding →
      s.tw.count.toNat + payload.length = s.origLen.toNat →
      exec .twRun s = .next { s with
        bu := { s.bu with pos := s.bu.pos + BitVec.ofNat 64 (payload.flatMap Prod.snd).length },
        tw := ⟨true, true, s.tree.root, s.origLen, s.tw.sout ++ payload.map Prod.fst⟩ }) ∧
    (∀ (path code : Bits) (sub : HTree) (x : Sym), h.subtreeAt path = some sub → s.tw.cur = sub.root → code ≠ [] →
      (x, path ++ code) ∈ h.codes [] → unread s.ibuf s.bu = code ++ payload.flatMap Prod.snd ++ padding →
      s.tw.count.toNat + (payload.length + 1) = s.origLen.toNat →
      exec .twRun s = .next { s with
        bu := { s.bu with pos := s.bu.pos + BitVec.ofNat 64 (code ++ payload.flatMap Prod.snd).length },
        tw := ⟨true, true, s.tree.root, s.origLen, s.tw.sout ++ x :: payload.map Prod.fst⟩ })

/-- 45_tree_walker.md R231, R233, R235, R236: within the invariants `TW_RUN` on an active walk always ends: with `ORIGLEN` symbols
out, or `COR_EOS` at the end of the stream, or `SOUT_FULL`; never with less. While the walk is not done it is `TW_STEP` over and
over: the error entry of a step that raises, else `TW_RUN` of the state the step leaves. In general mode, with the path walked
so far and the stream left read on as codes: when the stream ends, between two codes or inside one, with symbols still owed and
`SOUT` not overrun, it is `COR_EOS`; when the codes are one more than `SOUT` has room for and still owed, it is `SOUT_FULL`. In
SINGLE mode it is `SOUT_FULL` when `ORIGLEN` is more than `SOUT` has room for. -/
def Obligations.TwRunAlwaysEnds : Prop :=
  ∀ s : State, s.Inv → s.seq = .idle → s.tw.active = true →
    (s.tree.mode = .general → s.tw.done = false → s.bu.isOpen = true) →
    (∃ t, exec .twRun s = .next t ∧
      ((t.seq = .idle ∧ t.tw.done = true ∧ t.tw.count = s.origLen ∧ t.tw.sout.length = s.origLen.toNat) ∨
        t = abortRun .corEos s.ibuf.limit s ∨ t = abortRun .soutFull (s.caps.sout.setWidth 64) s)) ∧
    (s.tw.done = false → ∃ t, exec .twStep s = .next t ∧
      (t.seq = .error → exec .twRun s = .next t) ∧ (t.seq = .idle → exec .twRun s = exec .twRun t)) ∧
    (∀ (h sub : HTree) (payload : List (Sym × Bits)) (path rest : Bits), s.tree.mode = .general → GeneralTree s.tree h →
      h.subtreeAt path = some sub → s.tw.cur = sub.root → (∀ x ∈ payload, x ∈ h.codes []) →
      path ++ unread s.ibuf s.bu = payload.flatMap Prod.snd ++ rest →
      ((∃ x more, more ≠ [] ∧ (x, rest ++ more) ∈ h.codes []) → s.tw.count.toNat + payload.length < s.origLen.toNat →
        s.tw.count.toNat + payload.length ≤ s.caps.sout.toNat →
        exec .twRun s = .next (abortRun .corEos s.ibuf.limit s)) ∧
      (s.tw.count.toNat + payload.length = s.caps.sout.toNat + 1 → s.caps.sout.toNat < s.origLen.toNat →
        exec .twRun s = .next (abortRun .soutFull (s.caps.sout.setWidth 64) s))) ∧
    (s.tree.mode = .single → s.caps.sout.toNat < s.origLen.toNat →
      exec .twRun s = .next (abortRun .soutFull (s.caps.sout.setWidth 64) s))

/-! ## The register interface -/

/-- 10_state.md R30 to R46, R51, 30_encoding.md R110, R111, 20_memory.md R85 (`STATUS` in a busy window: logs 3, 4): the byte
offset of each of the 50 registers, an access of a word there reaching that register, and where each piece of state stands in
the registers and the two output ports, every other bit zero; a byte beyond a buffer, and
`IBUF_DATA` beyond `IBUF`, reads 0, and a node that has no entry reads as the reset entry. -/
def Obligations.RegistersShowState : Prop :=
  (∀ p ∈
    [(Reg.id, 0x00), (.cmd, 0x04), (.status, 0x08), (.err, 0x0C), (.errinfoLo, 0x10), (.errinfoHi, 0x14),
     (.treeinfo, 0x18), (.single, 0x1C), (.origlenLo, 0x20), (.origlenHi, 0x24), (.freqSel, 0x28), (.freqData, 0x2C),
     (.nodeSel, 0x30), (.nodeLr, 0x34), (.nodeWLo, 0x38), (.nodeWHi, 0x3C), (.codeSel, 0x40), (.codeLen, 0x44),
     (.codeBits 0, 0x48), (.codeBits 1, 0x4C), (.codeBits 2, 0x50), (.codeBits 3, 0x54), (.codeBits 4, 0x58),
     (.codeBits 5, 0x5C), (.codeBits 6, 0x60), (.codeBits 7, 0x64), (.bpBitcntLo, 0x68), (.bpBitcntHi, 0x6C),
     (.bpBytes, 0x70), (.bpAcc, 0x74), (.obufIdx, 0x78), (.obufData, 0x7C), (.ibufLen, 0x80), (.ibufIdx, 0x84),
     (.ibufData, 0x88), (.buBase, 0x8C), (.buLimitLo, 0x90), (.buLimitHi, 0x94), (.buPosLo, 0x98), (.buPosHi, 0x9C),
     (.buData, 0xA0), (.twCountLo, 0xA4), (.twCountHi, 0xA8), (.twCur, 0xAC), (.soutLen, 0xB0), (.soutIdx, 0xB4),
     (.soutData, 0xB8), (.capObuf, 0xBC), (.capIbuf, 0xC0), (.capSout, 0xC4)],
    p.1.offset = BitVec.ofNat 8 p.2 ∧ regAt .word (BitVec.ofNat 8 p.2) = some p.1) ∧
  ∀ s : State,
    (regRead s .id = 0x48554601 ∧ regRead s .cmd = 0) ∧
    (∀ k, (regRead s .status).getLsbD k =
      (([s.running.isSome, s.seq == .error, s.tree.valid, s.codes.valid, s.bp.isOpen, s.bu.isOpen, s.tw.active, s.tw.done])[k]?.getD
        false)) ∧
    (s.awaitingReset = false → busyPort s = (regRead s .status).getLsbD 0 ∧ errPort s = (regRead s .status).getLsbD 1) ∧
    (regRead s .err).toNat = s.err.code.toNat + 2 ^ 8 * s.err.cls.toNat ∧
    (regRead s .treeinfo).toNat =
      s.tree.k.toNat + 2 ^ 16 * s.tree.root.toNat + 2 ^ 28 * (match s.tree.mode with | .empty => 0 | .single => 1 | .general => 2) ∧
    (regRead s .nodeLr).toNat =
      (nodeGet s.tree.nodes s.sel.node).left.toNat + 2 ^ 16 * (nodeGet s.tree.nodes s.sel.node).right.toNat ∧
    (regRead s .nodeWLo).toNat + 2 ^ 32 * (regRead s .nodeWHi).toNat = (nodeGet s.tree.nodes s.sel.node).weight.toNat ∧
    (isInternal s.sel.node = false →
      regRead s .nodeLr = 0x01FF01FF ∧ regRead s .nodeWLo = 0 ∧ regRead s .nodeWHi = 0) ∧
    ((symGet s.codes.entries s.sel.code).length ≤ 255 →
      (regRead s .codeLen).toNat = (symGet s.codes.entries s.sel.code).length) ∧
    (∀ (j : Fin 8) (i : Nat), i < 32 →
      (regRead s (.codeBits j)).getLsbD (31 - i) = (symGet s.codes.entries s.sel.code).getD (32 * j.val + i) false) ∧
    (regRead s .errinfoHi ++ regRead s .errinfoLo = s.err.info ∧ regRead s .origlenHi ++ regRead s .origlenLo = s.origLen ∧
      regRead s .bpBitcntHi ++ regRead s .bpBitcntLo = s.bp.bitcnt ∧
      regRead s .buLimitHi ++ regRead s .buLimitLo = s.ibuf.limit ∧ regRead s .buPosHi ++ regRead s .buPosLo = s.bu.pos ∧
      regRead s .twCountHi ++ regRead s .twCountLo = s.tw.count) ∧
    ((regRead s .single).toNat = s.tree.singleSym.toNat ∧ (regRead s .freqSel).toNat = s.sel.freq.toNat ∧
      (regRead s .nodeSel).toNat = s.sel.node.toNat ∧ (regRead s .codeSel).toNat = s.sel.code.toNat ∧
      (regRead s .bpAcc).toNat = s.bp.acc.toNat ∧ (regRead s .twCur).toNat = s.tw.cur.toNat) ∧
    (regRead s .freqData = symGet s.freq s.sel.freq ∧ regRead s .obufIdx = s.sel.obuf ∧ regRead s .ibufIdx = s.sel.ibuf ∧
      regRead s .soutIdx = s.sel.sout ∧ regRead s .ibufLen = s.ibuf.len ∧ regRead s .buBase = s.ibuf.base ∧
      regRead s .buData = s.bu.data ∧ regRead s .capObuf = s.caps.obuf ∧ regRead s .capIbuf = s.caps.ibuf ∧
      regRead s .capSout = s.caps.sout) ∧
    (s.bp.obuf.length ≤ s.caps.obuf.toNat → (regRead s .bpBytes).toNat = s.bp.obuf.length) ∧
    (s.tw.sout.length ≤ s.caps.sout.toNat → (regRead s .soutLen).toNat = s.tw.sout.length) ∧
    (∀ b, s.bp.obuf[s.sel.obuf.toNat]? = some b → (regRead s .obufData).toNat = b.toNat) ∧
    (s.bp.obuf.length ≤ s.sel.obuf.toNat → regRead s .obufData = 0) ∧
    (∀ b, s.tw.sout[s.sel.sout.toNat]? = some b → (regRead s .soutData).toNat = b.toNat) ∧
    (s.tw.sout.length ≤ s.sel.sout.toNat → regRead s .soutData = 0) ∧
    (s.sel.ibuf.toNat < s.caps.ibuf.toNat →
      (regRead s .ibufData).toNat = (Memory.read s.ibuf.mem s.sel.ibuf.toNat).toNat) ∧
    (s.caps.ibuf.toNat ≤ s.sel.ibuf.toNat → regRead s .ibufData = 0)

/-- 10_state.md R30, R37 to R39, R41, R43, R45: a select register keeps the low bits written, an index register all of them, a
write of a read-only register is ignored, and none of them changes anything else. -/
def Obligations.SelectAndReadOnlyWrites : Prop :=
  ∀ (s : State) (v : Word) (es : List HostEvent) (r : Reg), Performs s (.write .word r.offset v) es →
    (r = .freqSel → step s = .next { s with events := es, sel := { s.sel with freq := v.setWidth 8 } }) ∧
    (r = .nodeSel → step s = .next { s with events := es, sel := { s.sel with node := v.setWidth 9 } }) ∧
    (r = .codeSel → step s = .next { s with events := es, sel := { s.sel with code := v.setWidth 8 } }) ∧
    (r = .obufIdx → step s = .next { s with events := es, sel := { s.sel with obuf := v } }) ∧
    (r = .ibufIdx → step s = .next { s with events := es, sel := { s.sel with ibuf := v } }) ∧
    (r = .soutIdx → step s = .next { s with events := es, sel := { s.sel with sout := v } }) ∧
    (r ∉ [Reg.cmd, .origlenLo, .origlenHi, .freqSel, .freqData, .nodeSel, .codeSel, .obufIdx, .ibufLen, .ibufIdx, .ibufData,
        .buBase, .buLimitLo, .buLimitHi, .soutIdx] → step s = .next { s with events := es })

/-- 20_memory.md R75, R79: a register read returns the register's value and has no side effect. -/
def Obligations.ReadsHaveNoSideEffect : Prop :=
  ∀ (s : State) (r : Reg) (es : List HostEvent), Performs s (.read .word r.offset) es →
    step s = .next { s with events := es, rdata := regRead s r }

/-- 20_memory.md R83, 10_state.md R47: an access that is not a word access at a multiple of 4 from 0x00 to 0xC4 reads 0 and is
ignored on write, with no error. -/
def Obligations.UnmappedAccess : Prop :=
  ∀ (s : State) (w : AccessWidth) (off : BitVec 8) (es : List HostEvent),
    (w ≠ .word ∨ off.toNat % 4 ≠ 0 ∨ 0xC8 ≤ off.toNat) →
    (Performs s (.read w off) es → step s = .next { s with events := es, rdata := 0 }) ∧
    (∀ v, Performs s (.write w off v) es → step s = .next { s with events := es })

/-- 10_state.md R36, R37, R43, 44_bit_unpacker.md R206: a host write of an input stores it and clears the flags of what was derived
from it, whatever the value, and changes nothing else. -/
def Obligations.InputWritesClearFlags : Prop :=
  ∀ (s : State) (v : Word) (es : List HostEvent),
    (Performs s (.write .word Reg.freqData.offset v) es → step s = .next { s with
      events := es, freq := symSet s.freq s.sel.freq v, tree := { s.tree with valid := false },
      codes := { s.codes with valid := false }, tw := { s.tw with active := false, done := false } }) ∧
    (Performs s (.write .word Reg.origlenLo.offset v) es → ∃ x : Len, lowHalf x = v ∧ highHalf x = highHalf s.origLen ∧
      step s = .next { s with events := es, origLen := x, tw := { s.tw with active := false, done := false } }) ∧
    (Performs s (.write .word Reg.origlenHi.offset v) es → ∃ x : Len, highHalf x = v ∧ lowHalf x = lowHalf s.origLen ∧
      step s = .next { s with events := es, origLen := x, tw := { s.tw with active := false, done := false } }) ∧
    (Performs s (.write .word Reg.buBase.offset v) es → step s = .next { s with
      events := es, ibuf := { s.ibuf with base := v }, bu := { s.bu with isOpen := false } }) ∧
    (Performs s (.write .word Reg.buLimitLo.offset v) es → ∃ x : Len, lowHalf x = v ∧ highHalf x = highHalf s.ibuf.limit ∧
      step s = .next { s with events := es, ibuf := { s.ibuf with limit := x }, bu := { s.bu with isOpen := false } }) ∧
    (Performs s (.write .word Reg.buLimitHi.offset v) es → ∃ x : Len, highHalf x = v ∧ lowHalf x = lowHalf s.ibuf.limit ∧
      step s = .next { s with events := es, ibuf := { s.ibuf with limit := x }, bu := { s.bu with isOpen := false } }) ∧
    (Performs s (.write .word Reg.ibufLen.offset v) es → ∃ x : Word, x.toNat = min v.toNat s.caps.ibuf.toNat ∧
      step s = .next { s with events := es, ibuf := { s.ibuf with len := x }, bu := { s.bu with isOpen := false } })

/-- 10_state.md R43, 20_memory.md R82, R85: a write of `IBUF_DATA` within `IBUF` stores the low byte at the index and leaves every
other byte, the unpacker and everything else alone; beyond `IBUF` it is ignored. -/
def Obligations.IbufWriteStoresOneByte : Prop :=
  ∀ (s : State) (v : Word) (es : List HostEvent), InBufInv s.caps.ibuf s.ibuf →
    Performs s (.write .word Reg.ibufData.offset v) es →
    (s.sel.ibuf.toNat < s.caps.ibuf.toNat →
      ∃ m, step s = .next { s with events := es, ibuf := { s.ibuf with mem := m } } ∧
        Memory.read m s.sel.ibuf.toNat = v.setWidth 8 ∧
        ∀ a, a ≠ s.sel.ibuf.toNat → Memory.read m a = Memory.read s.ibuf.mem a) ∧
    (s.caps.ibuf.toNat ≤ s.sel.ibuf.toNat → step s = .next { s with events := es })

/-! ## The whole machine -/

/-- 10_state.md R25, R42, 44_bit_unpacker.md R207, 41_tree_builder.md R149: no command but `SOFT_RESET` writes the frequency table, a
byte of `IBUF`, the window registers or a select register; none but `TB_BUILD` and `SOFT_RESET` writes `ORIGLEN`. -/
def Obligations.CommandsKeepHostInputs : Prop :=
  ∀ (i : Instr) (s t : State), i ≠ .softReset → exec i s = .next t →
    t.freq = s.freq ∧ t.ibuf = s.ibuf ∧ (∀ a, Memory.read t.ibuf.mem a = Memory.read s.ibuf.mem a) ∧ t.sel = s.sel ∧
    t.caps = s.caps ∧ t.rdata = s.rdata ∧ t.events = s.events ∧ (i ≠ .tbBuild → t.origLen = s.origLen)

/-- 10_state.md R46: the capacities are constant, whatever the host does. -/
def Obligations.CapsAreConstant : Prop := ∀ s t : State, step s = .next t → t.caps = s.caps

/-- 10_state.md R49: the reset state meets the invariants. -/
def Obligations.ResetMeetsInvariants : Prop := State.reset.Inv

/-- 10_state.md R49: the invariants hold after every completed command and every host access that begins in a state where
they hold, hardware reset and accesses in a busy window included. -/
def Obligations.StepKeepsInvariants : Prop := ∀ s t : State, s.Inv → step s = .next t → t.Inv

/-- 70_reset_and_hazards.md R350, R351 (refusing: log 8): within the invariants no step stops with a fault: no command gets stuck and no bit fetch leaves
`IBUF`; and a step is refused only for an access between power-up and reset. -/
def Obligations.NoFaultWithinInvariants : Prop :=
  ∀ s : State, s.Inv → (∃ t, step s = .next t) ∨ (s.awaitingReset = true ∧ step s = .refused .accessBeforeReset)
end

