-- ==== Sys2Proof/Laws/Bits.lean ====
section
/-! SUPPORT. Bit strings: the low bits of a value and shifting in (20_memory.md R72), setting a bit, whole bytes as bits, and
the halves of a 64-bit quantity (20_memory.md R73). -/

namespace Sys2Proof.Machine

/-! ## Low bits and shifting in -/

@[simp] theorem lowBits_length {w : Nat} (v : BitVec w) (n : Nat) : (lowBits v n).length = n := by
  induction n with
  | zero => rfl
  | succ n ih => simp [lowBits, ih]

/-- Bit `i` of the string is bit `n - 1 - i` of the value. -/
theorem lowBits_getElem {w : Nat} (v : BitVec w) (n i : Nat) (h : i < (lowBits v n).length) :
    (lowBits v n)[i] = v.getLsbD (n - 1 - i) := by
  induction n generalizing i with
  | zero => simp at h
  | succ n ih =>
    cases i with
    | zero => simp [lowBits]
    | succ i =>
      simp only [lowBits, List.getElem_cons_succ]
      rw [ih]
      congr 1
      omega

/-- The string depends on the low bits only. -/
theorem lowBits_congr {w w' : Nat} {v : BitVec w} {v' : BitVec w'} {n : Nat}
    (h : ∀ i < n, v.getLsbD i = v'.getLsbD i) : lowBits v n = lowBits v' n := by
  induction n with
  | zero => rfl
  | succ n ih =>
    simp only [lowBits]
    rw [h n (by omega), ih (fun i hi => h i (by omega))]

theorem shiftIn_getLsbD_zero {w : Nat} (x : BitVec w) (b : Bool) (hw : 0 < w) : (shiftIn x b).getLsbD 0 = b := by
  simp [shiftIn, hw]

theorem shiftIn_getLsbD_succ {w : Nat} (x : BitVec w) (b : Bool) (i : Nat) (hi : i + 1 < w) :
    (shiftIn x b).getLsbD (i + 1) = x.getLsbD i := by
  simp [shiftIn, hi, BitVec.getLsbD_eq_getElem (show i < w by omega)]

/-- Shifting a bit in appends it to the string of low bits. -/
theorem lowBits_shiftIn {w : Nat} (x : BitVec w) (b : Bool) (n : Nat) (h : n < w) :
    lowBits (shiftIn x b) (n + 1) = lowBits x n ++ [b] := by
  induction n with
  | zero => simp [lowBits, shiftIn_getLsbD_zero x b h]
  | succ n ih =>
    rw [lowBits, shiftIn_getLsbD_succ x b n h, ih (by omega)]
    rfl

theorem shiftIn_toNat {w : Nat} (x : BitVec w) (b : Bool) (n : Nat) (hx : x.toNat < 2 ^ n) (h : n < w) :
    (shiftIn x b).toNat = 2 * x.toNat + b.toNat := by
  have hlt : 2 * x.toNat < 2 ^ w := by
    calc 2 * x.toNat < 2 * 2 ^ n := by omega
      _ = 2 ^ (n + 1) := by ring
      _ ≤ 2 ^ w := Nat.pow_le_pow_right (by omega) h
  have h1 : (x <<< 1).toNat = 2 * x.toNat := by
    rw [BitVec.toNat_shiftLeft, Nat.shiftLeft_eq, Nat.mod_eq_of_lt (by omega)]
    omega
  have h2 : ((BitVec.ofBool b).setWidth w).toNat = b.toNat := by
    have : 2 ≤ 2 ^ w := Nat.pow_le_pow_right (n := 2) (i := 1) (by omega) (by omega)
    cases b <;> simp [BitVec.toNat_setWidth]; omega
  unfold shiftIn
  rw [BitVec.toNat_or, h1, h2]
  cases b
  · simp
  · have := Nat.two_pow_add_eq_or_of_lt (i := 1) (b := 1) (by omega) x.toNat
    simp only [pow_one] at this
    exact this.symm

theorem shiftIn_lt {w : Nat} {x : BitVec w} {n : Nat} (b : Bool) (hx : x.toNat < 2 ^ n) (h : n < w) :
    (shiftIn x b).toNat < 2 ^ (n + 1) := by
  rw [shiftIn_toNat x b n hx h, Nat.pow_succ]
  cases b <;> simp <;> omega

/-- Two values of a width with the same string of all bits are equal. -/
theorem lowBits_inj {w : Nat} {x y : BitVec w} (h : lowBits x w = lowBits y w) : x = y := by
  apply BitVec.eq_of_getLsbD_eq
  intro i hi
  have hx := lowBits_getElem x w (w - 1 - i) (by simp; omega)
  have hy := lowBits_getElem y w (w - 1 - i) (by simp; omega)
  rw [show w - 1 - (w - 1 - i) = i by omega] at hx hy
  rw [← hx, ← hy]
  simp only [h]

@[simp] theorem symBits_length (s : Sym) : (symBits s).length = 8 := lowBits_length s 8

theorem symBits_inj {s t : Sym} (h : symBits s = symBits t) : s = t := lowBits_inj h

/-! ## Setting a bit of a byte -/

theorem setBit_getLsbD (v : Byte) (i j : Nat) (b : Bool) (hj : j < 8) :
    (setBit v i b).getLsbD j = if j = i then b else v.getLsbD j := by
  unfold setBit
  have h1 : ∀ k, (1#8 : Byte).getLsbD k = decide (k = 0) := by
    intro k
    rw [BitVec.getLsbD_one]
    simp
  split
  · rename_i hb
    simp only [BitVec.getLsbD_or, BitVec.getLsbD_shiftLeft, hj, h1]
    by_cases h : j < i
    · have : j ≠ i := by omega
      simp [h, this]
    · by_cases h' : j = i
      · simp [h', hb]
      · have : j - i ≠ 0 := by omega
        simp [h', this]
  · rename_i hb
    simp only [BitVec.getLsbD_and, BitVec.getLsbD_not, BitVec.getLsbD_shiftLeft, hj, h1]
    by_cases h : j < i
    · have : j ≠ i := by omega
      simp [h, this]
    · by_cases h' : j = i
      · simp [h', Bool.not_eq_true _ ▸ hb]
      · have : j - i ≠ 0 := by omega
        simp [h', this]

/-! ## Whole bytes -/

@[simp] theorem bytesBits_nil : bytesBits [] = [] := rfl

@[simp] theorem bytesBits_append (xs ys : List Byte) : bytesBits (xs ++ ys) = bytesBits xs ++ bytesBits ys := by
  simp [bytesBits]

@[simp] theorem bytesBits_singleton (x : Byte) : bytesBits [x] = lowBits x 8 := by simp [bytesBits]

@[simp] theorem bytesBits_length (xs : List Byte) : (bytesBits xs).length = 8 * xs.length := by
  induction xs with
  | nil => rfl
  | cons x xs ih =>
    have : bytesBits (x :: xs) = lowBits x 8 ++ bytesBits xs := rfl
    simp [this, ih]
    omega

/-! ## Halves -/

theorem lowHalf_getLsbD (x : Len) (i : Nat) : (lowHalf x).getLsbD i = (decide (i < 32) && x.getLsbD i) := by
  simp [lowHalf]

theorem highHalf_getLsbD (x : Len) (i : Nat) : (highHalf x).getLsbD i = (decide (i < 32) && x.getLsbD (32 + i)) := by
  simp [highHalf]

@[simp] theorem lowHalf_append (h l : Word) : lowHalf (h ++ l : BitVec 64) = l := by
  apply BitVec.eq_of_getLsbD_eq
  intro i hi
  rw [lowHalf_getLsbD, BitVec.getLsbD_append]
  simp [hi]

@[simp] theorem highHalf_append (h l : Word) : highHalf (h ++ l : BitVec 64) = h := by
  apply BitVec.eq_of_getLsbD_eq
  intro i hi
  rw [highHalf_getLsbD, BitVec.getLsbD_append]
  simp [hi]

@[simp] theorem lowHalf_setLowHalf (x : Len) (v : Word) : lowHalf (setLowHalf x v) = v := lowHalf_append _ _
@[simp] theorem highHalf_setLowHalf (x : Len) (v : Word) : highHalf (setLowHalf x v) = highHalf x := highHalf_append _ _
@[simp] theorem highHalf_setHighHalf (x : Len) (v : Word) : highHalf (setHighHalf x v) = v := highHalf_append _ _
@[simp] theorem lowHalf_setHighHalf (x : Len) (v : Word) : lowHalf (setHighHalf x v) = lowHalf x := lowHalf_append _ _

/-- A 64-bit quantity is its two halves. -/
theorem half_append_half (x : Len) : highHalf x ++ lowHalf x = x := by
  apply BitVec.eq_of_getLsbD_eq
  intro i hi
  rw [BitVec.getLsbD_append, lowHalf_getLsbD, highHalf_getLsbD]
  by_cases h : i < 32
  · simp [h]
  · simp only [h, decide_false, Bool.false_and, show i - 32 < 32 by omega, decide_true, Bool.true_and,
      show 32 + (i - 32) = i by omega]
    rfl

end Sys2Proof.Machine
end

