-- ==== Sys2Proof/Laws/State.lean ====
section
/-! SUPPORT. What each named update of State does to each field: one lemma per field, true by unfolding. -/

namespace Sys2Proof.Machine

/-! ## abortRun -/

@[simp] theorem abortRun_seq (s : State) (e : ErrCode) (info : Len) : (abortRun e info s).seq = .error := rfl
@[simp] theorem abortRun_running (s : State) (e : ErrCode) (info : Len) : (abortRun e info s).running = s.running := rfl
@[simp] theorem abortRun_err (s : State) (e : ErrCode) (info : Len) : (abortRun e info s).err = ⟨e.code, e.cls, info⟩ := rfl
@[simp] theorem abortRun_freq (s : State) (e : ErrCode) (info : Len) : (abortRun e info s).freq = s.freq := rfl
@[simp] theorem abortRun_tree (s : State) (e : ErrCode) (info : Len) : (abortRun e info s).tree = Tree.reset := rfl
@[simp] theorem abortRun_codes (s : State) (e : ErrCode) (info : Len) : (abortRun e info s).codes = CodeTable.reset := rfl
@[simp] theorem abortRun_origLen (s : State) (e : ErrCode) (info : Len) : (abortRun e info s).origLen = s.origLen := rfl
@[simp] theorem abortRun_bp (s : State) (e : ErrCode) (info : Len) : (abortRun e info s).bp = Packer.reset := rfl
@[simp] theorem abortRun_ibuf (s : State) (e : ErrCode) (info : Len) : (abortRun e info s).ibuf = s.ibuf := rfl
@[simp] theorem abortRun_bu (s : State) (e : ErrCode) (info : Len) : (abortRun e info s).bu = Unpacker.reset := rfl
@[simp] theorem abortRun_tw (s : State) (e : ErrCode) (info : Len) : (abortRun e info s).tw = Walker.reset := rfl
@[simp] theorem abortRun_sel (s : State) (e : ErrCode) (info : Len) : (abortRun e info s).sel = s.sel := rfl
@[simp] theorem abortRun_caps (s : State) (e : ErrCode) (info : Len) : (abortRun e info s).caps = s.caps := rfl
@[simp] theorem abortRun_rdata (s : State) (e : ErrCode) (info : Len) : (abortRun e info s).rdata = s.rdata := rfl
@[simp] theorem abortRun_events (s : State) (e : ErrCode) (info : Len) : (abortRun e info s).events = s.events := rfl
@[simp] theorem abortRun_freeCount (s : State) (e : ErrCode) (info : Len) : (abortRun e info s).freeCount = s.freeCount := rfl
@[simp] theorem abortRun_awaitingReset (s : State) (e : ErrCode) (info : Len) : (abortRun e info s).awaitingReset = s.awaitingReset := rfl

/-! ## clearError -/

@[simp] theorem clearError_seq (s : State) : (clearError s).seq = .idle := rfl
@[simp] theorem clearError_running (s : State) : (clearError s).running = s.running := rfl
@[simp] theorem clearError_err (s : State) : (clearError s).err = ErrRegs.reset := rfl
@[simp] theorem clearError_freq (s : State) : (clearError s).freq = s.freq := rfl
@[simp] theorem clearError_tree (s : State) : (clearError s).tree = s.tree := rfl
@[simp] theorem clearError_codes (s : State) : (clearError s).codes = s.codes := rfl
@[simp] theorem clearError_origLen (s : State) : (clearError s).origLen = s.origLen := rfl
@[simp] theorem clearError_bp (s : State) : (clearError s).bp = s.bp := rfl
@[simp] theorem clearError_ibuf (s : State) : (clearError s).ibuf = s.ibuf := rfl
@[simp] theorem clearError_bu (s : State) : (clearError s).bu = s.bu := rfl
@[simp] theorem clearError_tw (s : State) : (clearError s).tw = s.tw := rfl
@[simp] theorem clearError_sel (s : State) : (clearError s).sel = s.sel := rfl
@[simp] theorem clearError_caps (s : State) : (clearError s).caps = s.caps := rfl
@[simp] theorem clearError_rdata (s : State) : (clearError s).rdata = s.rdata := rfl
@[simp] theorem clearError_events (s : State) : (clearError s).events = s.events := rfl
@[simp] theorem clearError_freeCount (s : State) : (clearError s).freeCount = s.freeCount := rfl
@[simp] theorem clearError_awaitingReset (s : State) : (clearError s).awaitingReset = s.awaitingReset := rfl

/-! ## resetElements -/

@[simp] theorem resetElements_seq (s : State) : (resetElements s).seq = .idle := rfl
@[simp] theorem resetElements_running (s : State) : (resetElements s).running = none := rfl
@[simp] theorem resetElements_err (s : State) : (resetElements s).err = ErrRegs.reset := rfl
@[simp] theorem resetElements_freq (s : State) : (resetElements s).freq = Vector.replicate 256 0 := rfl
@[simp] theorem resetElements_tree (s : State) : (resetElements s).tree = Tree.reset := rfl
@[simp] theorem resetElements_codes (s : State) : (resetElements s).codes = CodeTable.reset := rfl
@[simp] theorem resetElements_origLen (s : State) : (resetElements s).origLen = 0 := rfl
@[simp] theorem resetElements_bp (s : State) : (resetElements s).bp = Packer.reset := rfl
@[simp] theorem resetElements_ibuf (s : State) : (resetElements s).ibuf = InBuf.reset := rfl
@[simp] theorem resetElements_bu (s : State) : (resetElements s).bu = Unpacker.reset := rfl
@[simp] theorem resetElements_tw (s : State) : (resetElements s).tw = Walker.reset := rfl
@[simp] theorem resetElements_sel (s : State) : (resetElements s).sel = Selects.reset := rfl
@[simp] theorem resetElements_caps (s : State) : (resetElements s).caps = s.caps := rfl
@[simp] theorem resetElements_rdata (s : State) : (resetElements s).rdata = s.rdata := rfl
@[simp] theorem resetElements_events (s : State) : (resetElements s).events = s.events := rfl
@[simp] theorem resetElements_freeCount (s : State) : (resetElements s).freeCount = s.freeCount := rfl
@[simp] theorem resetElements_awaitingReset (s : State) : (resetElements s).awaitingReset = false := rfl

/-! ## cancelWalk -/

@[simp] theorem cancelWalk_seq (s : State) : (cancelWalk s).seq = s.seq := rfl
@[simp] theorem cancelWalk_running (s : State) : (cancelWalk s).running = s.running := rfl
@[simp] theorem cancelWalk_err (s : State) : (cancelWalk s).err = s.err := rfl
@[simp] theorem cancelWalk_freq (s : State) : (cancelWalk s).freq = s.freq := rfl
@[simp] theorem cancelWalk_tree (s : State) : (cancelWalk s).tree = s.tree := rfl
@[simp] theorem cancelWalk_codes (s : State) : (cancelWalk s).codes = s.codes := rfl
@[simp] theorem cancelWalk_origLen (s : State) : (cancelWalk s).origLen = s.origLen := rfl
@[simp] theorem cancelWalk_bp (s : State) : (cancelWalk s).bp = s.bp := rfl
@[simp] theorem cancelWalk_ibuf (s : State) : (cancelWalk s).ibuf = s.ibuf := rfl
@[simp] theorem cancelWalk_bu (s : State) : (cancelWalk s).bu = s.bu := rfl
@[simp] theorem cancelWalk_tw (s : State) : (cancelWalk s).tw = s.tw.cancel := rfl
@[simp] theorem cancelWalk_sel (s : State) : (cancelWalk s).sel = s.sel := rfl
@[simp] theorem cancelWalk_caps (s : State) : (cancelWalk s).caps = s.caps := rfl
@[simp] theorem cancelWalk_rdata (s : State) : (cancelWalk s).rdata = s.rdata := rfl
@[simp] theorem cancelWalk_events (s : State) : (cancelWalk s).events = s.events := rfl
@[simp] theorem cancelWalk_freeCount (s : State) : (cancelWalk s).freeCount = s.freeCount := rfl
@[simp] theorem cancelWalk_awaitingReset (s : State) : (cancelWalk s).awaitingReset = s.awaitingReset := rfl

/-! ## cancelTree -/

@[simp] theorem cancelTree_seq (s : State) : (cancelTree s).seq = s.seq := rfl
@[simp] theorem cancelTree_running (s : State) : (cancelTree s).running = s.running := rfl
@[simp] theorem cancelTree_err (s : State) : (cancelTree s).err = s.err := rfl
@[simp] theorem cancelTree_freq (s : State) : (cancelTree s).freq = s.freq := rfl
@[simp] theorem cancelTree_tree (s : State) : (cancelTree s).tree = { s.tree with valid := false } := rfl
@[simp] theorem cancelTree_codes (s : State) : (cancelTree s).codes = { s.codes with valid := false } := rfl
@[simp] theorem cancelTree_origLen (s : State) : (cancelTree s).origLen = s.origLen := rfl
@[simp] theorem cancelTree_bp (s : State) : (cancelTree s).bp = s.bp := rfl
@[simp] theorem cancelTree_ibuf (s : State) : (cancelTree s).ibuf = s.ibuf := rfl
@[simp] theorem cancelTree_bu (s : State) : (cancelTree s).bu = s.bu := rfl
@[simp] theorem cancelTree_tw (s : State) : (cancelTree s).tw = s.tw.cancel := rfl
@[simp] theorem cancelTree_sel (s : State) : (cancelTree s).sel = s.sel := rfl
@[simp] theorem cancelTree_caps (s : State) : (cancelTree s).caps = s.caps := rfl
@[simp] theorem cancelTree_rdata (s : State) : (cancelTree s).rdata = s.rdata := rfl
@[simp] theorem cancelTree_events (s : State) : (cancelTree s).events = s.events := rfl
@[simp] theorem cancelTree_freeCount (s : State) : (cancelTree s).freeCount = s.freeCount := rfl
@[simp] theorem cancelTree_awaitingReset (s : State) : (cancelTree s).awaitingReset = s.awaitingReset := rfl

/-! ## closeUnpacker -/

@[simp] theorem closeUnpacker_seq (s : State) : (closeUnpacker s).seq = s.seq := rfl
@[simp] theorem closeUnpacker_running (s : State) : (closeUnpacker s).running = s.running := rfl
@[simp] theorem closeUnpacker_err (s : State) : (closeUnpacker s).err = s.err := rfl
@[simp] theorem closeUnpacker_freq (s : State) : (closeUnpacker s).freq = s.freq := rfl
@[simp] theorem closeUnpacker_tree (s : State) : (closeUnpacker s).tree = s.tree := rfl
@[simp] theorem closeUnpacker_codes (s : State) : (closeUnpacker s).codes = s.codes := rfl
@[simp] theorem closeUnpacker_origLen (s : State) : (closeUnpacker s).origLen = s.origLen := rfl
@[simp] theorem closeUnpacker_bp (s : State) : (closeUnpacker s).bp = s.bp := rfl
@[simp] theorem closeUnpacker_ibuf (s : State) : (closeUnpacker s).ibuf = s.ibuf := rfl
@[simp] theorem closeUnpacker_bu (s : State) : (closeUnpacker s).bu = { s.bu with isOpen := false } := rfl
@[simp] theorem closeUnpacker_tw (s : State) : (closeUnpacker s).tw = s.tw := rfl
@[simp] theorem closeUnpacker_sel (s : State) : (closeUnpacker s).sel = s.sel := rfl
@[simp] theorem closeUnpacker_caps (s : State) : (closeUnpacker s).caps = s.caps := rfl
@[simp] theorem closeUnpacker_rdata (s : State) : (closeUnpacker s).rdata = s.rdata := rfl
@[simp] theorem closeUnpacker_events (s : State) : (closeUnpacker s).events = s.events := rfl
@[simp] theorem closeUnpacker_freeCount (s : State) : (closeUnpacker s).freeCount = s.freeCount := rfl
@[simp] theorem closeUnpacker_awaitingReset (s : State) : (closeUnpacker s).awaitingReset = s.awaitingReset := rfl

/-! ## withNewTree -/

@[simp] theorem withNewTree_seq (s : State) (t : Tree) : (withNewTree s t).seq = s.seq := rfl
@[simp] theorem withNewTree_running (s : State) (t : Tree) : (withNewTree s t).running = s.running := rfl
@[simp] theorem withNewTree_err (s : State) (t : Tree) : (withNewTree s t).err = s.err := rfl
@[simp] theorem withNewTree_freq (s : State) (t : Tree) : (withNewTree s t).freq = s.freq := rfl
@[simp] theorem withNewTree_tree (s : State) (t : Tree) : (withNewTree s t).tree = t := rfl
@[simp] theorem withNewTree_codes (s : State) (t : Tree) : (withNewTree s t).codes = { s.codes with valid := false } := rfl
@[simp] theorem withNewTree_origLen (s : State) (t : Tree) : (withNewTree s t).origLen = s.origLen := rfl
@[simp] theorem withNewTree_bp (s : State) (t : Tree) : (withNewTree s t).bp = s.bp := rfl
@[simp] theorem withNewTree_ibuf (s : State) (t : Tree) : (withNewTree s t).ibuf = s.ibuf := rfl
@[simp] theorem withNewTree_bu (s : State) (t : Tree) : (withNewTree s t).bu = s.bu := rfl
@[simp] theorem withNewTree_tw (s : State) (t : Tree) : (withNewTree s t).tw = s.tw.cancel := rfl
@[simp] theorem withNewTree_sel (s : State) (t : Tree) : (withNewTree s t).sel = s.sel := rfl
@[simp] theorem withNewTree_caps (s : State) (t : Tree) : (withNewTree s t).caps = s.caps := rfl
@[simp] theorem withNewTree_rdata (s : State) (t : Tree) : (withNewTree s t).rdata = s.rdata := rfl
@[simp] theorem withNewTree_events (s : State) (t : Tree) : (withNewTree s t).events = s.events := rfl
@[simp] theorem withNewTree_freeCount (s : State) (t : Tree) : (withNewTree s t).freeCount = s.freeCount := rfl
@[simp] theorem withNewTree_awaitingReset (s : State) (t : Tree) : (withNewTree s t).awaitingReset = s.awaitingReset := rfl

/-! ## powerUp -/

@[simp] theorem powerUp_seq (s : State) : (powerUp s).seq = s.seq := rfl
@[simp] theorem powerUp_running (s : State) : (powerUp s).running = none := rfl
@[simp] theorem powerUp_err (s : State) : (powerUp s).err = s.err := rfl
@[simp] theorem powerUp_freq (s : State) : (powerUp s).freq = s.freq := rfl
@[simp] theorem powerUp_tree (s : State) : (powerUp s).tree = s.tree := rfl
@[simp] theorem powerUp_codes (s : State) : (powerUp s).codes = s.codes := rfl
@[simp] theorem powerUp_origLen (s : State) : (powerUp s).origLen = s.origLen := rfl
@[simp] theorem powerUp_bp (s : State) : (powerUp s).bp = s.bp := rfl
@[simp] theorem powerUp_ibuf (s : State) : (powerUp s).ibuf = s.ibuf := rfl
@[simp] theorem powerUp_bu (s : State) : (powerUp s).bu = s.bu := rfl
@[simp] theorem powerUp_tw (s : State) : (powerUp s).tw = s.tw := rfl
@[simp] theorem powerUp_sel (s : State) : (powerUp s).sel = s.sel := rfl
@[simp] theorem powerUp_caps (s : State) : (powerUp s).caps = s.caps := rfl
@[simp] theorem powerUp_rdata (s : State) : (powerUp s).rdata = s.rdata := rfl
@[simp] theorem powerUp_events (s : State) : (powerUp s).events = s.events := rfl
@[simp] theorem powerUp_freeCount (s : State) : (powerUp s).freeCount = s.freeCount + 1 := rfl
@[simp] theorem powerUp_awaitingReset (s : State) : (powerUp s).awaitingReset = true := rfl

/-! ## Walker.cancel -/

@[simp] theorem cancel_active (k : Walker) : k.cancel.active = false := rfl
@[simp] theorem cancel_done (k : Walker) : k.cancel.done = false := rfl
@[simp] theorem cancel_cur (k : Walker) : k.cancel.cur = k.cur := rfl
@[simp] theorem cancel_count (k : Walker) : k.cancel.count = k.count := rfl
@[simp] theorem cancel_sout (k : Walker) : k.cancel.sout = k.sout := rfl

end Sys2Proof.Machine
end

