-- ==== Sys2Proof/Laws/Commands.lean ====
section
/-! SUPPORT. The shell every command shares, said once: what a command that is ignored, completes or raises answers, what a
precondition does, and which register an offset reaches. -/

namespace Sys2Proof.Machine

/-! ## Outcomes -/

@[simp] theorem runCommand_ok (s t : State) : runCommand s (.ok t) = .next t := rfl

@[simp] theorem runCommand_raise (s : State) (e : ErrCode) (info : Len) :
    runCommand s (raise e info) = .next (abortRun e info s) := rfl

@[simp] theorem runCommand_raise' (s : State) (e : ErrCode) (info : Len) :
    runCommand s (.error (.raise e info)) = .next (abortRun e info s) := rfl

@[simp] theorem runCommand_fault (s : State) (f : Fault) : runCommand s (.error (.fault f)) = .fault f := rfl

@[simp] theorem raiseWord_eq {α : Type} (e : ErrCode) (c : Word) :
    (raiseWord e c : Cmd α) = raise e (c.setWidth 64) := rfl

theorem whenIdle_idle {s : State} (h : s.seq = .idle) (w : Cmd State) : whenIdle s w = runCommand s w := by
  simp [whenIdle, h]

theorem whenIdle_error {s : State} (h : s.seq = .error) (w : Cmd State) : whenIdle s w = .next s := by
  simp [whenIdle, h]

/-- A command's next state is its completed effect or error entry on the state before it (60_exceptions.md R299). -/
theorem runCommand_next {s t : State} {w : Cmd State} :
    runCommand s w = .next t ↔ w = .ok t ∨ ∃ e info, w = .error (.raise e info) ∧ t = abortRun e info s := by
  rcases w with (⟨e, info⟩ | f) | u
  · simp only [runCommand_raise', Host.Outcome.next.injEq, reduceCtorEq, Except.error.injEq, Stop.raise.injEq, false_or]
    constructor
    · rintro rfl
      exact ⟨e, info, ⟨rfl, rfl⟩, rfl⟩
    · rintro ⟨_, _, ⟨rfl, rfl⟩, rfl⟩
      rfl
  · simp
  · simp

/-- A next state of a command that runs in IDLE only: unchanged in ERROR, else its effect or error entry. -/
theorem whenIdle_next {s t : State} {w : Cmd State} :
    whenIdle s w = .next t ↔ (s.seq = .error ∧ t = s) ∨
      (s.seq = .idle ∧ (w = .ok t ∨ ∃ e info, w = .error (.raise e info) ∧ t = abortRun e info s)) := by
  cases h : s.seq
  · simp [whenIdle_idle h, runCommand_next]
  · simp [whenIdle_error h, eq_comm]

/-- A command stops with a fault only if its work does. -/
theorem whenIdle_fault {s : State} {w : Cmd State} {f : Fault} :
    whenIdle s w = .fault f ↔ s.seq = .idle ∧ w = .error (.fault f) := by
  cases h : s.seq
  · rcases w with (⟨e, info⟩ | g) | u <;> simp [whenIdle_idle h]
  · simp [whenIdle_error h]

/-- No command is refused. -/
theorem whenIdle_ne_refused (s : State) (w : Cmd State) (r : Refusal) : whenIdle s w ≠ .refused r := by
  cases h : s.seq
  · rcases w with (⟨e, info⟩ | g) | u <;> simp [whenIdle_idle h]
  · simp [whenIdle_error h]

/-! ## Preconditions and sequencing -/

@[simp] theorem cmd_ok_bind {α β : Type} (x : α) (f : α → Cmd β) : ((.ok x : Cmd α) >>= f) = f x := rfl

@[simp] theorem cmd_error_bind {α β : Type} (e : Stop) (f : α → Cmd β) : ((.error e : Cmd α) >>= f) = .error e := rfl

@[simp] theorem cmd_raise_bind {α β : Type} (e : ErrCode) (info : Len) (f : α → Cmd β) :
    ((raise e info : Cmd α) >>= f) = raise e info := rfl

/-- A command in two parts completes where both do. -/
theorem cmd_bind_ok {α β : Type} {x : Cmd α} {f : α → Cmd β} {b : β} :
    (x >>= f) = .ok b ↔ ∃ a, x = .ok a ∧ f a = .ok b := by
  cases x <;> simp

/-- A command in two parts stops where the first does, or the second after the first. -/
theorem cmd_bind_error {α β : Type} {x : Cmd α} {f : α → Cmd β} {e : Stop} :
    (x >>= f) = .error e ↔ x = .error e ∨ ∃ a, x = .ok a ∧ f a = .error e := by
  cases x <;> simp

theorem raise_ne_ok {α : Type} (e : ErrCode) (info : Len) (a : α) : (raise e info : Cmd α) ≠ .ok a := nofun

theorem raise_eq_error {α : Type} {e : ErrCode} {info : Len} {x : Stop} :
    (raise e info : Cmd α) = .error x ↔ x = .raise e info := by
  simp [raise, eq_comm]

@[simp] theorem need_true (i : Instr) : need true i = .ok () := rfl

@[simp] theorem need_false (i : Instr) : need false i = raise .badSeq ((encode i).setWidth 64) := rfl

theorem need_of {b : Bool} (h : b = true) (i : Instr) : need b i = .ok () := by
  rw [h]
  rfl

theorem need_ok {b : Bool} {i : Instr} {u : Unit} : need b i = .ok u ↔ b = true := by
  cases b <;> simp [raise]

theorem needCount_ok {n : BitVec 5} {i : Instr} {u : Unit} : needCount n i = .ok u ↔ n.toNat ≤ 16 := by
  unfold needCount
  split <;> simp_all [raise]

theorem needCount_le {n : BitVec 5} (h : n.toNat ≤ 16) (i : Instr) : needCount n i = .ok () := needCount_ok.2 h

theorem needCount_gt {n : BitVec 5} (h : 16 < n.toNat) (i : Instr) :
    needCount n i = raise .badArg ((encode i).setWidth 64) := by
  simp [needCount, Nat.not_le.2 h]

/-! ## Commands in ERROR -/

/-- In ERROR a command changes nothing, but for `SOFT_RESET` and `CLR_ERR` (60_exceptions.md R301). -/
theorem exec_inError {s : State} (h : s.seq = .error) (i : Instr) :
    exec i s = .next (match i with | .softReset => resetElements s | .clrErr => clearError s | _ => s) := by
  cases i <;> first | rfl | exact whenIdle_error h _

/-! ## Offsets -/

/-- A word access at a register's offset reaches that register: no two registers share one (10_state.md R30). -/
@[simp] theorem regAt_offset (r : Reg) : regAt .word r.offset = some r := by
  cases r <;> try rfl
  rename_i j
  fin_cases j <;> rfl

/-- Any other access reaches none (10_state.md R47, 20_memory.md R83). -/
theorem regAt_none {w : AccessWidth} {off : BitVec 8} (h : w ≠ .word ∨ off.toNat % 4 ≠ 0 ∨ 0xC8 ≤ off.toNat) :
    regAt w off = none := by
  cases w with
  | byte => rfl
  | half => rfl
  | word =>
    rcases h with h | h
    · exact absurd rfl h
    · revert off
      decide +kernel

end Sys2Proof.Machine
end

