-- ==== Sys2Proof/Laws/Tables.lean ====
section
/-! SUPPORT. Read-after-write laws of the byte memory and of the tables, and that a write keeps the memory's canonical form. -/

namespace Sys2Proof.Machine

/-! ## Byte memory -/

/-- Every address of a memory lies above a bound. -/
theorem Memory.read_below {m : Memory} {x : Nat} (h : ∀ c ∈ m, x < c.1) : Memory.read m x = 0 := by
  induction m with
  | nil => rfl
  | cons c m ih =>
    obtain ⟨a, b⟩ := c
    have ha : x < a := h (a, b) (by simp)
    simp only [Memory.read, if_neg (by omega : ¬ a = x)]
    exact ih (fun c hc => h c (by simp [hc]))

/-- A byte written is the byte read. -/
theorem Memory.read_write_same {m : Memory} (hm : Memory.wf m) (x : Nat) (v : Byte) :
    Memory.read (Memory.write m x v) x = v := by
  induction m with
  | nil =>
    unfold Memory.write
    split <;> simp_all [Memory.read]
  | cons c m ih =>
    obtain ⟨a, b⟩ := c
    obtain ⟨hs, hn⟩ := hm
    rw [List.pairwise_cons] at hs
    have htail : Memory.wf m := ⟨hs.2, fun c hc => hn c (by simp [hc])⟩
    simp only [Memory.write]
    split
    · split
      · rename_i hx hv
        rw [hv]
        apply Memory.read_below
        intro c hc
        rcases List.mem_cons.1 hc with rfl | hc
        · exact hx
        · exact Nat.lt_trans hx (hs.1 c hc)
      · simp [Memory.read]
    · split
      · rename_i hx
        split
        · rename_i hv
          rw [hv]
          exact Memory.read_below (fun c hc => hx ▸ hs.1 c hc)
        · simp [Memory.read]
      · rename_i hx
        simp only [Memory.read, if_neg hx]
        exact ih htail

/-- A write leaves every other byte alone. -/
theorem Memory.read_write_ne {m : Memory} {x y : Nat} (h : y ≠ x) (v : Byte) :
    Memory.read (Memory.write m x v) y = Memory.read m y := by
  induction m with
  | nil =>
    unfold Memory.write
    split <;> simp [Memory.read, Ne.symm h]
  | cons c m ih =>
    obtain ⟨a, b⟩ := c
    simp only [Memory.write]
    split
    · split
      · rfl
      · simp [Memory.read, Ne.symm h]
    · split
      · rename_i hx
        split <;> simp [Memory.read, hx, Ne.symm h]
      · by_cases ha : a = y <;> simp [Memory.read, ha, ih]

/-- The addresses a write leaves are the old ones and the one written. -/
theorem Memory.mem_write {m : Memory} {x : Nat} {v : Byte} {c : Host.Cell} (h : c ∈ Memory.write m x v) :
    c ∈ m ∨ (c = (x, v) ∧ v ≠ 0) := by
  induction m with
  | nil =>
    unfold Memory.write at h
    split at h
    · simp at h
    · rename_i hv
      exact .inr ⟨List.mem_singleton.1 h, hv⟩
  | cons d m ih =>
    obtain ⟨a, b⟩ := d
    simp only [Memory.write] at h
    split at h
    · split at h
      · exact .inl h
      · rename_i hv
        rcases List.mem_cons.1 h with rfl | h
        · exact .inr ⟨rfl, hv⟩
        · exact .inl h
    · split at h
      · split at h
        · exact .inl (List.mem_cons_of_mem _ h)
        · rename_i hv
          rcases List.mem_cons.1 h with rfl | h
          · exact .inr ⟨rfl, hv⟩
          · exact .inl (List.mem_cons_of_mem _ h)
      · rcases List.mem_cons.1 h with rfl | h
        · exact .inl (by simp)
        · rcases ih h with h | h
          · exact .inl (List.mem_cons_of_mem _ h)
          · exact .inr h

/-- A write keeps the canonical form. -/
theorem Memory.write_wf {m : Memory} (hm : Memory.wf m) (x : Nat) (v : Byte) : Memory.wf (Memory.write m x v) := by
  refine ⟨?_, fun c hc => ?_⟩
  · obtain ⟨hs, -⟩ := hm
    induction m with
    | nil =>
      unfold Memory.write
      split <;> simp
    | cons c m ih =>
      obtain ⟨a, b⟩ := c
      have hs' := List.pairwise_cons.1 hs
      simp only [Memory.write]
      split
      · rename_i hx
        split
        · exact hs
        · refine List.pairwise_cons.2 ⟨fun c hc => ?_, hs⟩
          rcases List.mem_cons.1 hc with rfl | hc
          · exact hx
          · exact Nat.lt_trans hx (hs'.1 c hc)
      · split
        · rename_i hx
          split
          · exact hs'.2
          · exact List.pairwise_cons.2 ⟨fun c hc => hx ▸ hs'.1 c hc, hs'.2⟩
        · refine List.pairwise_cons.2 ⟨fun c hc => ?_, ih hs'.2⟩
          rcases Memory.mem_write hc with hc | ⟨rfl, -⟩
          · exact hs'.1 c hc
          · simp only
            omega
  · rcases Memory.mem_write hc with hc | ⟨rfl, hv⟩
    · exact hm.2 c hc
    · exact hv

/-! ## Tables -/

@[simp] theorem symGet_symSet_same {α : Type} (t : Vector α 256) (s : Sym) (v : α) : symGet (symSet t s v) s = v := by
  simp [symGet, symSet]

theorem symGet_symSet_ne {α : Type} (t : Vector α 256) {s x : Sym} (h : x ≠ s) (v : α) :
    symGet (symSet t s v) x = symGet t x := by
  have : s.toNat ≠ x.toNat := fun e => h (BitVec.eq_of_toNat_eq e.symm)
  simp [symGet, symSet, this]

@[simp] theorem symGet_replicate {α : Type} (v : α) (s : Sym) : symGet (Vector.replicate 256 v) s = v := by
  simp [symGet]

/-- An internal index is a number from 256 to 510. -/
theorem isInternal_iff {n : NodeIdx} : isInternal n = true ↔ 256 ≤ n.toNat ∧ n.toNat ≤ 510 := by
  simp [isInternal]

@[simp] theorem nodeGet_clearNodes (n : NodeIdx) : nodeGet clearNodes n = NodeEntry.reset := by
  unfold nodeGet clearNodes
  split
  · by_cases h : n.toNat - 256 < 255 <;> simp [h]
  · rfl

/-- Where no entry exists a node reads as the reset entry (10_state.md R38). -/
theorem nodeGet_of_not_internal (t : Nodes) {n : NodeIdx} (h : isInternal n = false) : nodeGet t n = NodeEntry.reset := by
  unfold nodeGet
  split
  · have h2 : ¬ n.toNat ≤ 510 := fun h2 => by simp [isInternal_iff.2 ⟨‹_›, h2⟩] at h
    rw [Vector.getElem?_eq_none (by omega)]
    rfl
  · rfl

theorem nodeGet_nodeSet_same (t : Nodes) {n : NodeIdx} (h : isInternal n = true) (v : NodeEntry) :
    nodeGet (nodeSet t n v) n = v := by
  obtain ⟨h1, h2⟩ := isInternal_iff.1 h
  have h3 : n.toNat - 256 < 255 := by omega
  simp [nodeGet, nodeSet, h1, h3]

theorem nodeGet_nodeSet_ne (t : Nodes) {n x : NodeIdx} (h : x ≠ n) (v : NodeEntry) :
    nodeGet (nodeSet t n v) x = nodeGet t x := by
  have hne : x.toNat ≠ n.toNat := fun e => h (BitVec.eq_of_toNat_eq e)
  unfold nodeGet nodeSet
  split
  · split
    · have : n.toNat - 256 ≠ x.toNat - 256 := by omega
      simp [this]
    · rfl
  · rfl

@[simp] theorem leafIdx_toNat (s : Sym) : (leafIdx s).toNat = s.toNat := by
  have := s.isLt
  simp [leafIdx, BitVec.toNat_setWidth]
  omega

theorem leafIdx_setWidth (s : Sym) : (leafIdx s).setWidth 8 = s := by
  apply BitVec.eq_of_toNat_eq
  simp

theorem leafIdx_inj {s t : Sym} (h : leafIdx s = leafIdx t) : s = t := by
  rw [← leafIdx_setWidth s, h, leafIdx_setWidth]

/-- A leaf's index is no internal one. -/
theorem not_isInternal_leafIdx (s : Sym) : isInternal (leafIdx s) = false := by
  have := s.isLt
  simp [isInternal]
  omega

end Sys2Proof.Machine
end

