-- ==== Sys2Proof/Laws/Trees.lean ====
section
/-! SUPPORT. Trees held in the arena: their codes, their description and their weights as facts about the tree, and that the
two traversals of 42_code_generator.md compute them. -/

namespace Sys2Proof.Machine

namespace HTree

/-! ## Counting -/

theorem leaves_length (h : HTree) : h.leaves.length = h.inner.length + 1 := by
  induction h with
  | leaf s => rfl
  | node i l r ihl ihr =>
    simp [leaves, inner, ihl, ihr]
    omega

/-- A tree of `K` leaves is described in `10K - 1` bits (30_encoding.md R121). -/
theorem desc_length (h : HTree) : h.desc.length + 1 = 10 * h.leaves.length := by
  induction h with
  | leaf s => rfl
  | node i l r ihl ihr =>
    simp [leaves, desc]
    omega

/-- What the arena says of an internal node that is held. -/
theorem heldIn_node {t : Nodes} {i : NodeIdx} {l r : HTree} :
    (node i l r).heldIn t = true ↔ isInternal i = true ∧ (nodeGet t i).left = l.root ∧ (nodeGet t i).right = r.root ∧
      l.heldIn t = true ∧ r.heldIn t = true := by
  simp only [heldIn, Bool.and_eq_true, beq_iff_eq]
  tauto

/-- A leaf's root is a leaf index, an internal node's root its own index. -/
theorem root_lt_256_iff {t : Nodes} {h : HTree} (hh : h.heldIn t = true) : h.root.toNat < 256 ↔ ∃ s, h = leaf s := by
  cases h with
  | leaf s =>
    have := s.isLt
    simp only [root, leafIdx_toNat, this, true_iff]
    exact ⟨s, rfl⟩
  | node i l r =>
    obtain ⟨hi, -⟩ := heldIn_node.1 hh
    have := isInternal_iff.1 hi
    simp [root]
    omega

/-- The inner indices of a held tree are internal. -/
theorem isInternal_of_mem_inner {t : Nodes} {h : HTree} (hh : h.heldIn t = true) {i : NodeIdx} (hi : i ∈ h.inner) :
    isInternal i = true := by
  induction h with
  | leaf s => simp [inner] at hi
  | node j l r ihl ihr =>
    obtain ⟨hj, -, -, hl, hr⟩ := heldIn_node.1 hh
    simp only [inner, List.mem_cons, List.mem_append] at hi
    rcases hi with rfl | hi | hi
    · exact hj
    · exact ihl hl hi
    · exact ihr hr hi

/-- The entries of the inner indices are all that holding a tree depends on. -/
theorem heldIn_congr {t u : Nodes} {h : HTree} (hh : h.heldIn t = true)
    (heq : ∀ i ∈ h.inner, nodeGet u i = nodeGet t i) : h.heldIn u = true := by
  induction h with
  | leaf s => rfl
  | node j l r ihl ihr =>
    obtain ⟨hj, h1, h2, hl, hr⟩ := heldIn_node.1 hh
    have hj' := heq j (by simp [inner])
    exact heldIn_node.2 ⟨hj, by rw [hj', h1], by rw [hj', h2], ihl hl (fun i hi => heq i (by simp [inner, hi])),
      ihr hr (fun i hi => heq i (by simp [inner, hi]))⟩

theorem weight_congr {t u : Nodes} (freq : Vector Word 256) {h : HTree}
    (heq : ∀ i ∈ h.inner, nodeGet u i = nodeGet t i) : h.weight u freq = h.weight t freq := by
  cases h with
  | leaf s => rfl
  | node j l r =>
    simp only [weight]
    rw [heq j (by simp [inner])]

theorem weighed_node {t : Nodes} {freq : Vector Word 256} {i : NodeIdx} {l r : HTree} :
    (node i l r).weighed t freq = true ↔ (nodeGet t i).weight.toNat = l.weight t freq + r.weight t freq ∧
      l.weighed t freq = true ∧ r.weighed t freq = true := by
  simp only [weighed, Bool.and_eq_true, beq_iff_eq]
  tauto

theorem weighed_congr {t u : Nodes} {freq : Vector Word 256} {h : HTree} (hh : h.weighed t freq = true)
    (heq : ∀ i ∈ h.inner, nodeGet u i = nodeGet t i) : h.weighed u freq = true := by
  induction h with
  | leaf s => rfl
  | node j l r ihl ihr =>
    obtain ⟨h1, hl, hr⟩ := weighed_node.1 hh
    have hl' : ∀ i ∈ l.inner, nodeGet u i = nodeGet t i := fun i hi => heq i (by simp [inner, hi])
    have hr' : ∀ i ∈ r.inner, nodeGet u i = nodeGet t i := fun i hi => heq i (by simp [inner, hi])
    refine weighed_node.2 ⟨?_, ihl hl hl', ihr hr hr'⟩
    rw [heq j (by simp [inner]), weight_congr freq hl', weight_congr freq hr', h1]

/-- From an internal node of a held tree either edge leads to a leaf of the tree or to an internal node of it. -/
theorem child_of_mem_inner {t : Nodes} {h : HTree} (hh : h.heldIn t = true) {i : NodeIdx} (hi : i ∈ h.inner) (b : Bool) :
    (∃ s ∈ h.leaves, (if b then (nodeGet t i).right else (nodeGet t i).left) = leafIdx s) ∨
      (if b then (nodeGet t i).right else (nodeGet t i).left) ∈ h.inner := by
  induction h with
  | leaf s => simp [inner] at hi
  | node j l r ihl ihr =>
    obtain ⟨hj, h1, h2, hl, hr⟩ := heldIn_node.1 hh
    have hroot : ∀ x : HTree, (∃ s ∈ x.leaves, x.root = leafIdx s) ∨ x.root ∈ x.inner := by
      intro x
      cases x with
      | leaf s => exact .inl ⟨s, by simp [leaves], rfl⟩
      | node k a c => exact .inr (by simp [inner, root])
    simp only [inner, List.mem_cons, List.mem_append] at hi
    rcases hi with rfl | hi | hi
    · rw [h1, h2]
      cases b
      · rcases hroot l with ⟨s, hs, he⟩ | he
        · exact .inl ⟨s, by simp [leaves, hs], he⟩
        · exact .inr (by simp [inner, he])
      · rcases hroot r with ⟨s, hs, he⟩ | he
        · exact .inl ⟨s, by simp [leaves, hs], he⟩
        · exact .inr (by simp [inner, he])
    · rcases ihl hl hi with ⟨s, hs, he⟩ | he
      · exact .inl ⟨s, by simp [leaves, hs], he⟩
      · exact .inr (by simp [inner, he])
    · rcases ihr hr hi with ⟨s, hs, he⟩ | he
      · exact .inl ⟨s, by simp [leaves, hs], he⟩
      · exact .inr (by simp [inner, he])

/-! ## Codes -/

theorem codes_map_fst (h : HTree) (p : Bits) : (h.codes p).map Prod.fst = h.leaves := by
  induction h generalizing p with
  | leaf s => rfl
  | node i l r ihl ihr => simp [codes, leaves, ihl, ihr]

/-- Every code continues the path taken. -/
theorem prefix_of_mem_codes {h : HTree} {p : Bits} {x : Sym × Bits} (hx : x ∈ h.codes p) : p <+: x.2 := by
  induction h generalizing p with
  | leaf s =>
    simp only [codes, List.mem_singleton] at hx
    simp [hx]
  | node i l r ihl ihr =>
    simp only [codes, List.mem_append] at hx
    rcases hx with hx | hx
    · exact (List.prefix_append _ _).trans (ihl hx)
    · exact (List.prefix_append _ _).trans (ihr hx)

/-- The codes after a path are the codes from the root, behind the path. -/
theorem codes_append (h : HTree) (p q : Bits) : h.codes (p ++ q) = (h.codes q).map (fun x => (x.1, p ++ x.2)) := by
  induction h generalizing q with
  | leaf s => simp [codes]
  | node i l r ihl ihr => simp [codes, List.append_assoc, ihl, ihr]

/-- What the path to a subtree tells of it: its internal nodes are the tree's, it is held where the tree is, and the codes
that begin with the path are its own behind the path. -/
theorem subtreeAt_spec {h sub : HTree} {p : Bits} (hs : h.subtreeAt p = some sub) :
    (∀ i ∈ sub.inner, i ∈ h.inner) ∧ (∀ t, h.heldIn t = true → sub.heldIn t = true) ∧
      ∀ s c, (s, p ++ c) ∈ h.codes [] → (s, c) ∈ sub.codes [] := by
  induction h generalizing p with
  | leaf s =>
    simp only [subtreeAt] at hs
    split at hs
    · rename_i hp
      obtain rfl := Option.some.inj hs
      exact ⟨fun _ h => h, fun _ h => h, fun _ _ h => by simpa [hp] using h⟩
    · simp at hs
  | node i l r ihl ihr =>
    rcases p with _ | ⟨_ | _, q⟩
    · obtain rfl := Option.some.inj hs
      exact ⟨fun _ h => h, fun _ h => h, fun _ _ h => h⟩
    · obtain ⟨h1, h2, h3⟩ := ihl (p := q) hs
      refine ⟨fun j hj => by simp [inner, h1 j hj], fun t ht => h2 t (heldIn_node.1 ht).2.2.2.1, fun s c hc => h3 s c ?_⟩
      simp only [codes, List.nil_append, List.cons_append, List.mem_append] at hc
      rcases hc with hc | hc
      · rw [show [false] = [false] ++ [] from rfl, codes_append, List.mem_map] at hc
        obtain ⟨⟨s', c'⟩, hm, he⟩ := hc
        simp only [Prod.mk.injEq, List.singleton_append, List.cons.injEq, true_and] at he
        obtain ⟨rfl, rfl⟩ := he
        exact hm
      · obtain ⟨k, hk⟩ := prefix_of_mem_codes hc
        simp at hk
    · obtain ⟨h1, h2, h3⟩ := ihr (p := q) hs
      refine ⟨fun j hj => by simp [inner, h1 j hj], fun t ht => h2 t (heldIn_node.1 ht).2.2.2.2, fun s c hc => h3 s c ?_⟩
      simp only [codes, List.nil_append, List.cons_append, List.mem_append] at hc
      rcases hc with hc | hc
      · obtain ⟨k, hk⟩ := prefix_of_mem_codes hc
        simp at hk
      · rw [show [true] = [true] ++ [] from rfl, codes_append, List.mem_map] at hc
        obtain ⟨⟨s', c'⟩, hm, he⟩ := hc
        simp only [Prod.mk.injEq, List.singleton_append, List.cons.injEq, true_and] at he
        obtain ⟨rfl, rfl⟩ := he
        exact hm

/-- A path on from the end of a path. -/
theorem subtreeAt_append {h x y : HTree} {p q : Bits} (hx : h.subtreeAt p = some x) (hy : h.subtreeAt (p ++ q) = some y) :
    x.subtreeAt q = some y := by
  induction h generalizing p with
  | leaf s =>
    simp only [subtreeAt] at hx
    split at hx
    · rename_i hp
      obtain rfl := Option.some.inj hx
      simpa [hp] using hy
    · simp at hx
  | node i l r ihl ihr =>
    rcases p with _ | ⟨_ | _, p⟩
    · obtain rfl := Option.some.inj hx
      exact hy
    · exact ihl hx hy
    · exact ihr hx hy

/-- A path that a code goes on from leads to an internal node. -/
theorem subtreeAt_of_cut {h : HTree} {s : Sym} {p c : Bits} (hm : (s, p ++ c) ∈ h.codes []) (hc : c ≠ []) :
    ∃ i l r, h.subtreeAt p = some (.node i l r) := by
  induction h generalizing p with
  | leaf x =>
    simp only [codes, List.mem_singleton, Prod.mk.injEq, List.append_eq_nil_iff] at hm
    exact absurd hm.2.2 hc
  | node i l r ihl ihr =>
    rcases p with _ | ⟨b, q⟩
    · exact ⟨i, l, r, rfl⟩
    · have hb : (node i l r).subtreeAt [b] = some (if b then r else l) := by cases b <;> cases l <;> cases r <;> rfl
      have hq := (subtreeAt_spec hb).2.2 s (q ++ c) (by simpa using hm)
      cases b
      · exact ihl hq
      · exact ihr hq

/-- The path to an internal node, read on as a code and what follows it, is a proper beginning of that code. -/
theorem code_behind {h sub : HTree} {s : Sym} {p c u v : Bits} (hs : h.subtreeAt p = some sub) (hn : ∀ x, sub ≠ .leaf x)
    (hm : (s, c) ∈ h.codes []) (he : p ++ u = c ++ v) : ∃ d, d ≠ [] ∧ c = p ++ d ∧ u = d ++ v := by
  rcases List.append_eq_append_iff.1 he with ⟨d, rfl, hu⟩ | ⟨d, rfl, -⟩
  · refine ⟨d, ?_, rfl, hu⟩
    rintro rfl
    have hd := (subtreeAt_spec hs).2.2 s [] (by simpa using hm)
    cases sub with
    | leaf x => exact hn x rfl
    | node i l r =>
      simp only [codes, List.mem_append, List.nil_append] at hd
      rcases hd with hd | hd <;> simpa using (prefix_of_mem_codes hd).length_le
  · exfalso
    induction h generalizing c with
    | leaf x =>
      simp only [codes, List.mem_singleton, Prod.mk.injEq] at hm
      obtain ⟨-, rfl⟩ := hm
      simp only [subtreeAt] at hs
      split at hs
      · exact hn x (Option.some.inj hs).symm
      · simp at hs
    | node i l r ihl ihr =>
      rcases c with _ | ⟨b, c⟩
      · simp only [codes, List.mem_append, List.nil_append] at hm
        rcases hm with hm | hm <;> simpa using (prefix_of_mem_codes hm).length_le
      · have hb : (node i l r).subtreeAt [b] = some (if b then r else l) := by cases b <;> cases l <;> cases r <;> rfl
        have hq := (subtreeAt_spec hb).2.2 s c (by simpa using hm)
        cases b
        · exact ihl hq hs (by simpa using he)
        · exact ihr hq hs (by simpa using he)

theorem length_of_mem_codes {h : HTree} {p : Bits} {x : Sym × Bits} (hx : x ∈ h.codes p) :
    x.2.length ≤ p.length + h.inner.length := by
  induction h generalizing p with
  | leaf s =>
    simp only [codes, List.mem_singleton] at hx
    simp [hx]
  | node i l r ihl ihr =>
    simp only [codes, List.mem_append] at hx
    rcases hx with hx | hx
    · have := ihl hx
      simp [inner] at this ⊢
      omega
    · have := ihr hx
      simp [inner] at this ⊢
      omega

/-- Two leaves whose codes continue each other are one leaf (42_code_generator.md R162 (e)). -/
theorem eq_of_prefix {h : HTree} {p : Bits} {x y : Sym × Bits} (hx : x ∈ h.codes p) (hy : y ∈ h.codes p)
    (hxy : x.2 <+: y.2) : x = y := by
  induction h generalizing p with
  | leaf s =>
    simp only [codes, List.mem_singleton] at hx hy
    rw [hx, hy]
  | node i l r ihl ihr =>
    simp only [codes, List.mem_append] at hx hy
    have hne : ∀ {a b : Sym × Bits} {c d : Bool}, p ++ [c] <+: a.2 → p ++ [d] <+: b.2 → a.2 <+: b.2 → c = d := by
      intro a b c d ha hb hab
      have := List.prefix_of_prefix_length_le (ha.trans hab) hb (by simp)
      simpa using List.IsPrefix.eq_of_length this (by simp)
    rcases hx with hx | hx <;> rcases hy with hy | hy
    · exact ihl hx hy
    · exact absurd (hne (prefix_of_mem_codes hx) (prefix_of_mem_codes hy) hxy) (by simp)
    · exact absurd (hne (prefix_of_mem_codes hx) (prefix_of_mem_codes hy) hxy) (by simp)
    · exact ihr hx hy

/-- Every infinite bit sequence that goes on from a path begins with the code of a leaf (42_code_generator.md R162 (f)). -/
theorem exists_code (h : HTree) (f : Nat → Bool) (n : Nat) :
    ∃ x ∈ h.codes ((List.range n).map f), ∃ m, x.2 = (List.range m).map f := by
  induction h generalizing n with
  | leaf s => exact ⟨(s, (List.range n).map f), by simp [codes], n, rfl⟩
  | node i l r ihl ihr =>
    have hs : (List.range n).map f ++ [f n] = (List.range (n + 1)).map f := by simp [List.range_succ]
    cases hb : f n
    · obtain ⟨x, hx, m, hm⟩ := ihl (n + 1)
      refine ⟨x, ?_, m, hm⟩
      rw [← hs, hb] at hx
      simp [codes, hx]
    · obtain ⟨x, hx, m, hm⟩ := ihr (n + 1)
      refine ⟨x, ?_, m, hm⟩
      rw [← hs, hb] at hx
      simp [codes, hx]

/-- A weighed tree: count times depth over the leaves is the path taken times the tree's weight, and the weights of the
internal nodes (41_tree_builder.md R152). -/
theorem cost_of_weighed {t : Nodes} {freq : Vector Word 256} {h : HTree} (hw : h.weighed t freq = true) (p : Bits) :
    ((h.codes p).map (fun x => (symGet freq x.1).toNat * x.2.length)).sum =
      h.weight t freq * p.length + h.innerWeight t := by
  induction h generalizing p with
  | leaf s => simp [codes, weight, innerWeight, inner]
  | node i l r ihl ihr =>
    obtain ⟨h1, hl, hr⟩ := weighed_node.1 hw
    simp only [codes, List.map_append, List.sum_append, ihl hl, ihr hr, weight, h1, innerWeight, inner, List.map_cons,
      List.sum_cons, List.length_append, List.length_cons, List.length_nil]
    ring

end HTree

/-! ## The traversals -/

/-- Recording the codes of a list of leaves in a table. -/
def recordCodes (codes : Vector Bits 256) (xs : List (Sym × Bits)) : Vector Bits 256 :=
  xs.foldl (fun c x => symSet c x.1 x.2) codes

theorem recordCodes_of_notMem {xs : List (Sym × Bits)} {s : Sym} (h : s ∉ xs.map Prod.fst) (codes : Vector Bits 256) :
    symGet (recordCodes codes xs) s = symGet codes s := by
  induction xs generalizing codes with
  | nil => rfl
  | cons x xs ih =>
    simp only [List.map_cons, List.mem_cons, not_or] at h
    show symGet (recordCodes (symSet codes x.1 x.2) xs) s = _
    rw [ih h.2, symGet_symSet_ne _ h.1]

theorem recordCodes_of_mem {xs : List (Sym × Bits)} (hn : (xs.map Prod.fst).Nodup) {x : Sym × Bits} (h : x ∈ xs)
    (codes : Vector Bits 256) : symGet (recordCodes codes xs) x.1 = x.2 := by
  induction xs generalizing codes with
  | nil => simp at h
  | cons y xs ih =>
    rw [List.map_cons, List.nodup_cons] at hn
    show symGet (recordCodes (symSet codes y.1 y.2) xs) x.1 = _
    rcases List.mem_cons.1 h with rfl | h
    · rw [recordCodes_of_notMem hn.1, symGet_symSet_same]
    · exact ih hn.2 h _

/-- `visit` on a held tree records its codes (42_code_generator.md R161). -/
theorem visit_held {t : Nodes} {h : HTree} (hh : h.heldIn t = true) {d : Nat} (hd : h.inner.length ≤ d) (p : Bits)
    (codes : Vector Bits 256) : visit t d h.root p codes = .ok (recordCodes codes (h.codes p)) := by
  induction h generalizing d p codes with
  | leaf s =>
    have := s.isLt
    unfold visit
    rw [HTree.root, leafIdx_toNat, if_pos this, leafIdx_setWidth]
    rfl
  | node i l r ihl ihr =>
    obtain ⟨hi, h1, h2, hl, hr⟩ := HTree.heldIn_node.1 hh
    obtain ⟨hi1, hi2⟩ := isInternal_iff.1 hi
    have habs : i ≠ absent := fun e => by simp [e] at hi2
    simp only [HTree.inner, List.length_cons, List.length_append] at hd
    obtain ⟨d, rfl⟩ : ∃ k, d = k + 1 := ⟨d - 1, by omega⟩
    unfold visit
    rw [HTree.root, if_neg (by omega), if_neg habs]
    simp only [h1, h2, ihl hl (d := d) (by omega), ihr hr (d := d) (by omega)]
    simp [recordCodes, HTree.codes]

/-- `desc` on a held tree is its description (30_encoding.md R120). -/
theorem desc_held {t : Nodes} {h : HTree} (hh : h.heldIn t = true) {d : Nat} (hd : h.inner.length ≤ d) :
    desc t d h.root = .ok h.desc := by
  induction h generalizing d with
  | leaf s =>
    have := s.isLt
    unfold desc
    rw [HTree.root, leafIdx_toNat, if_pos this, leafIdx_setWidth]
    rfl
  | node i l r ihl ihr =>
    obtain ⟨hi, h1, h2, hl, hr⟩ := HTree.heldIn_node.1 hh
    obtain ⟨hi1, hi2⟩ := isInternal_iff.1 hi
    have habs : i ≠ absent := fun e => by simp [e] at hi2
    simp only [HTree.inner, List.length_cons, List.length_append] at hd
    obtain ⟨d, rfl⟩ : ∃ k, d = k + 1 := ⟨d - 1, by omega⟩
    unfold desc
    rw [HTree.root, if_neg (by omega), if_neg habs]
    simp only [h1, h2, ihl hl (d := d) (by omega), ihr hr (d := d) (by omega)]
    rfl

/-! ## General trees -/

/-- A list of symbols without repeats has at most 256 of them. -/
theorem nodup_syms_length {l : List Sym} (h : l.Nodup) : l.length ≤ 256 := by
  have h1 := List.Nodup.length_le_card h
  rwa [Fintype.card_congr (Equiv.ofBijective (fun s : Sym => s.toFin) ⟨fun a b hab => BitVec.eq_of_toFin_eq hab,
    fun i => ⟨BitVec.ofFin i, rfl⟩⟩), Fintype.card_fin] at h1

/-- A general tree has at most 255 internal nodes (00_scope.md R6, `CODE_MAXLEN`). -/
theorem GeneralTree.inner_length {t : Tree} {h : HTree} (g : GeneralTree t h) : h.inner.length ≤ maxDepth := by
  have := nodup_syms_length g.leavesOnce
  have := h.leaves_length
  unfold maxDepth
  omega

/-- A general tree's descriptors are the tree's, and its root is internal. -/
theorem GeneralTree.exists_node {t : Tree} {h : HTree} (g : GeneralTree t h) :
    ∃ l r, h = .node t.root l r := by
  have hr := g.root
  have hi := g.rootInternal
  cases h with
  | leaf s =>
    rw [← hr, HTree.root, not_isInternal_leafIdx] at hi
    exact absurd hi (by simp)
  | node i l r =>
    obtain rfl : i = t.root := hr
    exact ⟨l, r, rfl⟩

theorem GeneralTree.two_le_k {t : Tree} {h : HTree} (g : GeneralTree t h) : 2 ≤ t.k.toNat := by
  obtain ⟨l, r, rfl⟩ := g.exists_node
  rw [← g.count, HTree.leaves_length]
  simp [HTree.inner]

/-- `CG_GEN` on a general tree computes its codes. -/
theorem genCodes_general {t : Tree} {h : HTree} (g : GeneralTree t h) (hm : t.mode = .general) :
    genCodes t = .ok (recordCodes emptyCodes (h.codes [])) := by
  unfold genCodes
  rw [hm]
  simp only [← g.root]
  exact visit_held g.held g.inner_length _ _

/-- The code of a symbol of a general tree is the path to its leaf; no other symbol has one. -/
theorem genCodes_path {h : HTree} (hn : h.leaves.Nodup) {x : Sym × Bits} (hx : x ∈ h.codes []) :
    symGet (recordCodes emptyCodes (h.codes [])) x.1 = x.2 :=
  recordCodes_of_mem (by rwa [HTree.codes_map_fst]) hx _

theorem genCodes_absent {h : HTree} {s : Sym} (hs : s ∉ h.leaves) :
    symGet (recordCodes emptyCodes (h.codes [])) s = [] := by
  rw [recordCodes_of_notMem (by rwa [HTree.codes_map_fst])]
  simp [emptyCodes]

/-- Every code of a table that `CG_GEN` made of a general tree belongs to a leaf. -/
theorem genCodes_mem {h : HTree} (hn : h.leaves.Nodup) {s : Sym}
    (hs : symGet (recordCodes emptyCodes (h.codes [])) s ≠ []) :
    (s, symGet (recordCodes emptyCodes (h.codes [])) s) ∈ h.codes [] := by
  have hm : s ∈ h.leaves := by
    by_contra hm
    exact hs (genCodes_absent hm)
  rw [← HTree.codes_map_fst h [], List.mem_map] at hm
  obtain ⟨x, hx, rfl⟩ := hm
  rw [genCodes_path hn hx]
  exact hx

end Sys2Proof.Machine
end

