-- ==== Sys2Proof/Laws/Builder.lean ====
section
/-! SUPPORT. The tree builder: what leaves the queue (41_tree_builder.md R144), and the forest that the merge loop keeps until
one tree is left (41_tree_builder.md R146, R148). -/

namespace Sys2Proof.Machine

/-! ## The order of the queue -/

theorem QNode.before_iff {x y : QNode} :
    x.before y = true ↔ x.weight < y.weight ∨ x.weight = y.weight ∧ x.idx.toNat < y.idx.toNat := by
  simp [QNode.before]

theorem QNode.before_total {x y : QNode} (h : y.before x = false) (hne : x.idx ≠ y.idx) : x.before y = true := by
  rw [← Bool.not_eq_true, QNode.before_iff] at h
  rw [QNode.before_iff]
  have : x.idx.toNat ≠ y.idx.toNat := fun e => hne (BitVec.eq_of_toNat_eq e)
  omega

/-- The least node is one of them, and none comes before it. -/
theorem leastNode_spec (m : QNode) (xs : List QNode) :
    leastNode m xs ∈ m :: xs ∧ ∀ y ∈ m :: xs, y.before (leastNode m xs) = false := by
  induction xs generalizing m with
  | nil =>
    refine ⟨by simp [leastNode], fun y hy => ?_⟩
    rw [List.mem_singleton.1 hy, leastNode, ← Bool.not_eq_true, QNode.before_iff]
    omega
  | cons x xs ih =>
    obtain ⟨h1, h2⟩ := ih (if x.before m then x else m)
    simp only [leastNode]
    refine ⟨?_, fun y hy => ?_⟩
    · rcases List.mem_cons.1 h1 with h1 | h1
      · rw [h1]
        split <;> simp
      · simp [h1]
    · have hmin := h2 _ (List.mem_cons_self ..)
      have hcase : y = (if x.before m then x else m) ∨ y ∈ xs ∨ (if x.before m then x else m).before y = true ∨
          (y.before (if x.before m then x else m) = false ∧ (if x.before m then x else m).weight = y.weight ∧
            (if x.before m then x else m).idx.toNat = y.idx.toNat) := by
        simp only [List.mem_cons] at hy
        by_cases hx : x.before m = true
        · simp only [hx, if_true]
          rcases hy with rfl | rfl | hy
          · exact .inr (.inr (.inl hx))
          · exact .inl rfl
          · exact .inr (.inl hy)
        · simp only [hx, if_false, Bool.false_eq_true]
          rcases hy with rfl | rfl | hy
          · exact .inl rfl
          · rw [QNode.before_iff] at hx
            rw [← Bool.not_eq_true, QNode.before_iff, QNode.before_iff]
            omega
          · exact .inr (.inl hy)
      rcases hcase with rfl | hy | hb | ⟨hb, he⟩
      · exact hmin
      · exact h2 y (List.mem_cons_of_mem _ hy)
      · rw [← Bool.not_eq_true, QNode.before_iff] at hmin ⊢
        rw [QNode.before_iff] at hb
        omega
      · rw [← Bool.not_eq_true, QNode.before_iff] at hmin ⊢
        omega

/-- Taking the least node out of a queue: the rest is the queue without it, and no node of it comes before (R144). -/
theorem popLeast_some {live rest : List QNode} {a : QNode} (h : popLeast live = some (a, rest)) :
    live.Perm (a :: rest) ∧ ∀ y ∈ live, y.before a = false := by
  cases live with
  | nil => simp [popLeast] at h
  | cons x xs =>
    simp only [popLeast, Option.some.injEq, Prod.mk.injEq] at h
    obtain ⟨rfl, rfl⟩ := h
    obtain ⟨h1, h2⟩ := leastNode_spec x xs
    exact ⟨List.perm_cons_erase h1, h2⟩

theorem popLeast_ne_nil {live : List QNode} (h : live ≠ []) : ∃ a rest, popLeast live = some (a, rest) := by
  cases live with
  | nil => exact absurd rfl h
  | cons x xs => exact ⟨_, _, rfl⟩

/-! ## The forest -/

/-- The queue's entry for a tree. -/
def HTree.entry (nodes : Nodes) (freq : Vector Word 256) (h : HTree) : QNode := ⟨h.weight nodes freq, h.root⟩

/-- The queue and the arena in the middle of a build (41_tree_builder.md R148): the trees built so far are held, weighed, over
the live symbols once each, their internal nodes are 256 to `next - 1`, and their weights sum to the counts' sum. -/
structure Forest (freq : Vector Word 256) (syms : List Sym) (next : Nat) (live : List QNode) (nodes : Nodes)
    (fs : List HTree) : Prop where
  queue : live.Perm (fs.map (HTree.entry nodes freq))
  held : ∀ h ∈ fs, h.heldIn nodes = true
  weighed : ∀ h ∈ fs, h.weighed nodes freq = true
  below : ∀ h ∈ fs, h.childrenBelow = true
  leaves : (fs.flatMap HTree.leaves).Perm syms
  inner : ((fs.flatMap HTree.inner).map BitVec.toNat).Perm (List.range' 256 (next - 256))
  start : 256 ≤ next
  count : next + fs.length = 256 + syms.length
  others : ∀ i, i.toNat < 256 ∨ next ≤ i.toNat → nodeGet nodes i = NodeEntry.reset
  total : (fs.map (fun h => h.weight nodes freq)).sum = (syms.map (fun s => (symGet freq s).toNat)).sum

/-- The forest may list its trees in another order. -/
theorem Forest.perm {freq : Vector Word 256} {syms : List Sym} {next : Nat} {live : List QNode} {nodes : Nodes}
    {fs gs : List HTree} (h : Forest freq syms next live nodes fs) (hp : fs.Perm gs) :
    Forest freq syms next live nodes gs where
  queue := h.queue.trans (hp.map _)
  held := fun x hx => h.held x (hp.mem_iff.2 hx)
  weighed := fun x hx => h.weighed x (hp.mem_iff.2 hx)
  below := fun x hx => h.below x (hp.mem_iff.2 hx)
  leaves := (hp.flatMap_right _).symm.trans h.leaves
  inner := ((hp.flatMap_right _).map _).symm.trans h.inner
  start := h.start
  count := hp.length_eq ▸ h.count
  others := h.others
  total := by
    rw [← (hp.map (fun h => h.weight nodes freq)).sum_eq]
    exact h.total

/-- The node taken out of the queue is the root of a tree of the forest. -/
theorem pop_tree {nodes : Nodes} {freq : Vector Word 256} {live rest : List QNode} {a : QNode} {fs : List HTree}
    (hq : live.Perm (fs.map (HTree.entry nodes freq))) (hp : popLeast live = some (a, rest)) :
    ∃ h gs, fs.Perm (h :: gs) ∧ h.entry nodes freq = a ∧ rest.Perm (gs.map (HTree.entry nodes freq)) := by
  obtain ⟨h1, -⟩ := popLeast_some hp
  have h2 : a ∈ fs.map (HTree.entry nodes freq) := (h1.symm.trans hq).mem_iff.1 (by simp)
  obtain ⟨h, hh, rfl⟩ := List.mem_map.1 h2
  have h3 := List.perm_cons_erase hh
  refine ⟨h, fs.erase h, h3, rfl, ?_⟩
  have h4 := (h1.symm.trans hq).trans (h3.map _)
  simpa using h4

/-- The inner indices of a forest lie below `next`. -/
theorem Forest.inner_lt {freq : Vector Word 256} {syms : List Sym} {next : Nat} {live : List QNode} {nodes : Nodes}
    {fs : List HTree} (h : Forest freq syms next live nodes fs) {x : HTree} (hx : x ∈ fs) {i : NodeIdx}
    (hi : i ∈ x.inner) : i.toNat < next := by
  have h1 : i.toNat ∈ (fs.flatMap HTree.inner).map BitVec.toNat :=
    List.mem_map_of_mem (List.mem_flatMap.2 ⟨x, hx, hi⟩)
  have h2 := h.inner.mem_iff.1 h1
  have := h.start
  rw [List.mem_range'_1] at h2
  omega

theorem Forest.root_lt {freq : Vector Word 256} {syms : List Sym} {next : Nat} {live : List QNode} {nodes : Nodes}
    {fs : List HTree} (h : Forest freq syms next live nodes fs) {x : HTree} (hx : x ∈ fs) : x.root.toNat < next := by
  cases x with
  | leaf s =>
    have h1 := s.isLt
    have h2 := h.start
    simp only [HTree.root, leafIdx_toNat]
    omega
  | node i l r => exact h.inner_lt hx (by simp [HTree.inner, HTree.root])

/-- One merge keeps the forest (41_tree_builder.md R140, R147): the two trees become the children of the next node. -/
theorem Forest.merge {freq : Vector Word 256} {syms : List Sym} {next : Nat} {live rest : List QNode} {nodes : Nodes}
    {x y : HTree} {gs : List HTree} (h : Forest freq syms next live nodes (x :: y :: gs)) (hk : syms.length ≤ 256)
    (hs : (syms.map (fun s => (symGet freq s).toNat)).sum < 2 ^ 40)
    (hr : rest.Perm (gs.map (HTree.entry nodes freq))) :
    Forest freq syms (next + 1)
      (rest ++ [⟨(x.entry nodes freq).weight + (y.entry nodes freq).weight, BitVec.ofNat 9 next⟩])
      (nodeSet nodes (BitVec.ofNat 9 next) (mergedEntry (x.entry nodes freq) (y.entry nodes freq)))
      (.node (BitVec.ofNat 9 next) x y :: gs) := by
  have hcount := h.count
  simp only [List.length_cons] at hcount
  have hstart := h.start
  have hidx : (BitVec.ofNat 9 next).toNat = next := by
    simp
    omega
  have hint : isInternal (BitVec.ofNat 9 next) = true := isInternal_iff.2 (by omega)
  have hother : ∀ i : NodeIdx, i.toNat ≠ next →
      nodeGet (nodeSet nodes (BitVec.ofNat 9 next) (mergedEntry (x.entry nodes freq) (y.entry nodes freq))) i =
        nodeGet nodes i := fun i hi =>
    nodeGet_nodeSet_ne _ (fun e => hi (by rw [e, hidx])) _
  have hkeep : ∀ z ∈ x :: y :: gs, ∀ i ∈ z.inner,
      nodeGet (nodeSet nodes (BitVec.ofNat 9 next) (mergedEntry (x.entry nodes freq) (y.entry nodes freq))) i =
        nodeGet nodes i := fun z hz i hi => hother i (by have := h.inner_lt hz hi; omega)
  have hxm : x ∈ x :: y :: gs := by simp
  have hym : y ∈ x :: y :: gs := by simp
  have hgm : ∀ z ∈ gs, z ∈ x :: y :: gs := fun z hz => by simp [hz]
  have hsum := h.total
  simp only [List.map_cons, List.sum_cons] at hsum
  have hwt : (nodeGet (nodeSet nodes (BitVec.ofNat 9 next) (mergedEntry (x.entry nodes freq) (y.entry nodes freq)))
      (BitVec.ofNat 9 next)).weight.toNat = x.weight nodes freq + y.weight nodes freq := by
    rw [nodeGet_nodeSet_same _ hint]
    simp only [mergedEntry, HTree.entry, BitVec.toNat_ofNat]
    omega
  have hw : ∀ z ∈ x :: y :: gs, z.weight (nodeSet nodes (BitVec.ofNat 9 next)
      (mergedEntry (x.entry nodes freq) (y.entry nodes freq))) freq = z.weight nodes freq :=
    fun z hz => HTree.weight_congr freq (hkeep z hz)
  refine ⟨?_, ?_, ?_, ?_, ?_, ?_, by omega, ?_, ?_, ?_⟩
  · have he : (HTree.node (BitVec.ofNat 9 next) x y).entry (nodeSet nodes (BitVec.ofNat 9 next)
        (mergedEntry (x.entry nodes freq) (y.entry nodes freq))) freq =
        ⟨(x.entry nodes freq).weight + (y.entry nodes freq).weight, BitVec.ofNat 9 next⟩ :=
      congrArg (fun w => QNode.mk w (BitVec.ofNat 9 next)) hwt
    have hg : gs.map (HTree.entry (nodeSet nodes (BitVec.ofNat 9 next)
        (mergedEntry (x.entry nodes freq) (y.entry nodes freq))) freq) = gs.map (HTree.entry nodes freq) := by
      apply List.map_congr_left
      intro z hz
      exact congrArg (fun w => QNode.mk w z.root) (hw z (hgm z hz))
    rw [List.map_cons, he, hg]
    exact (List.perm_append_singleton _ _).trans (hr.cons _)
  · intro z hz
    rcases List.mem_cons.1 hz with rfl | hz
    · refine HTree.heldIn_node.2 ⟨hint, ?_, ?_, HTree.heldIn_congr (h.held x hxm) (hkeep x hxm),
        HTree.heldIn_congr (h.held y hym) (hkeep y hym)⟩ <;>
      · rw [nodeGet_nodeSet_same _ hint]
        rfl
    · exact HTree.heldIn_congr (h.held z (hgm z hz)) (hkeep z (hgm z hz))
  · intro z hz
    rcases List.mem_cons.1 hz with rfl | hz
    · refine HTree.weighed_node.2 ⟨?_, HTree.weighed_congr (h.weighed x hxm) (hkeep x hxm),
        HTree.weighed_congr (h.weighed y hym) (hkeep y hym)⟩
      rw [hwt, hw x hxm, hw y hym]
    · exact HTree.weighed_congr (h.weighed z (hgm z hz)) (hkeep z (hgm z hz))
  · intro z hz
    rcases List.mem_cons.1 hz with rfl | hz
    · have h1 := h.root_lt hxm
      have h2 := h.root_lt hym
      simp only [HTree.childrenBelow, hidx, Bool.and_eq_true, decide_eq_true_eq]
      exact ⟨⟨⟨h1, h2⟩, h.below x hxm⟩, h.below y hym⟩
    · exact h.below z (hgm z hz)
  · have := h.leaves
    simpa [HTree.leaves] using this
  · have h1 := h.inner
    rw [show next + 1 - 256 = (next - 256) + 1 by omega, List.range'_concat,
      show 256 + 1 * (next - 256) = next by omega]
    simp only [List.flatMap_cons, HTree.inner, List.cons_append, List.map_cons, hidx, List.append_assoc] at h1 ⊢
    exact (h1.cons next).trans (List.perm_append_singleton _ _).symm
  · simp only [List.length_cons]
    omega
  · intro i hi
    rw [hother i (by omega)]
    exact h.others i (by omega)
  · have hg : gs.map (fun z => z.weight (nodeSet nodes (BitVec.ofNat 9 next)
        (mergedEntry (x.entry nodes freq) (y.entry nodes freq))) freq) = gs.map (fun z => z.weight nodes freq) :=
      List.map_congr_left (fun z hz => hw z (hgm z hz))
    rw [List.map_cons, List.sum_cons, hg, ← hsum, ← Nat.add_assoc]
    exact congrArg (· + _) hwt

/-- The merge loop on a forest ends with one tree (41_tree_builder.md R146, R150). -/
theorem mergeLoop_forest {freq : Vector Word 256} {syms : List Sym} (hk : syms.length ≤ 256)
    (hs : (syms.map (fun s => (symGet freq s).toNat)).sum < 2 ^ 40) (fuel : Nat) {next : Nat} {live : List QNode}
    {nodes : Nodes} {fs : List HTree} (h : Forest freq syms next live nodes fs) (hf : fs ≠ [])
    (hlen : fs.length ≤ fuel + 1) :
    ∃ root nodes', mergeLoop fuel next live nodes = ([root.entry nodes' freq], nodes') ∧
      Forest freq syms (255 + syms.length) [root.entry nodes' freq] nodes' [root] := by
  have hlive : live.length = fs.length := by simpa using h.queue.length_eq
  have hdone : ∀ x, fs = [x] → ∃ root, live = [root.entry nodes freq] ∧
      Forest freq syms (255 + syms.length) [root.entry nodes freq] nodes [root] := by
    rintro x rfl
    have hq := h.queue
    have hc := h.count
    simp only [List.map_cons, List.map_nil, List.length_cons, List.length_nil] at hq hc
    rw [List.perm_singleton] at hq
    obtain rfl : next = 255 + syms.length := by omega
    exact ⟨x, hq, hq ▸ h⟩
  induction fuel generalizing next live nodes fs with
  | zero =>
    obtain ⟨x, rfl⟩ : ∃ x, fs = [x] := by
      rw [← List.length_eq_one_iff]
      have := List.length_pos_iff.2 hf
      omega
    obtain ⟨root, rfl, hr⟩ := hdone x rfl
    exact ⟨root, nodes, rfl, hr⟩
  | succ fuel ih =>
    have hne : live ≠ [] := by
      rw [← List.length_pos_iff, hlive]
      exact List.length_pos_iff.2 hf
    obtain ⟨a, rest, hp⟩ := popLeast_ne_nil hne
    obtain ⟨x, gs, hg, rfl, hr⟩ := pop_tree h.queue hp
    unfold mergeLoop
    rw [hp]
    simp only
    rcases hp2 : popLeast rest with _ | ⟨b, rest'⟩
    · have hrest : rest = [] := by
        by_contra hn
        obtain ⟨b, c, hb⟩ := popLeast_ne_nil hn
        simp [hb] at hp2
      rw [hrest, List.nil_perm, List.map_eq_nil_iff] at hr
      rw [hr] at hg
      obtain ⟨root, rfl, hroot⟩ := hdone x (List.perm_singleton.1 hg)
      exact ⟨root, nodes, rfl, hroot⟩
    · obtain ⟨y, gs', hg', rfl, hr'⟩ := pop_tree hr hp2
      have h' := (h.perm (hg.trans (hg'.cons x))).merge hk hs hr'
      have hl' : (HTree.node (BitVec.ofNat 9 next) x y :: gs').length ≤ fuel + 1 := by
        have h1 := hg.length_eq
        have h2 := hg'.length_eq
        simp only [List.length_cons] at h1 h2 ⊢
        omega
      refine ih h' (by simp) hl' (by simpa using h'.queue.length_eq) ?_
      rintro z hz
      have hq := h'.queue
      have hc := h'.count
      rw [hz] at hq hc
      simp only [List.map_cons, List.map_nil, List.length_cons, List.length_nil] at hq hc
      rw [List.perm_singleton] at hq
      have hf' := h'
      rw [hz, hq, show next + 1 = 255 + syms.length by omega] at hf'
      exact ⟨z, hq, hf'⟩

/-! ## The leaves at the start -/

/-- The live symbols of a frequency table from a symbol on, ascending (41_tree_builder.md R142). -/
def liveSyms : Nat → List Word → List Sym
  | _, [] => []
  | i, c :: cs => if c = 0 then liveSyms (i + 1) cs else BitVec.ofNat 8 i :: liveSyms (i + 1) cs

theorem drop_cons {freq : Vector Word 256} {i : Nat} {c : Word} {cs : List Word} (h : freq.toList.drop i = c :: cs) :
    ∃ hi : i < 256, freq[i] = c ∧ freq.toList.drop (i + 1) = cs := by
  have hi : i < 256 := by
    by_contra hn
    rw [List.drop_eq_nil_of_le (by simp; omega)] at h
    simp at h
  rw [List.drop_eq_getElem_cons (by simpa using hi), List.cons.injEq] at h
  exact ⟨hi, by simpa using h.1, h.2⟩

theorem leavesFrom_eq {freq : Vector Word 256} {i : Nat} {cs : List Word} (h : freq.toList.drop i = cs) (nodes : Nodes) :
    leavesFrom i cs = (liveSyms i cs).map (fun s => (HTree.leaf s).entry nodes freq) := by
  induction cs generalizing i with
  | nil => rfl
  | cons c cs ih =>
    obtain ⟨hi, hc, hd⟩ := drop_cons h
    unfold leavesFrom liveSyms
    rw [ih hd]
    split
    · rfl
    · have h1 : leafIdx (BitVec.ofNat 8 i) = BitVec.ofNat 9 i := by
        apply BitVec.eq_of_toNat_eq
        simp
        omega
      have h2 : symGet freq (BitVec.ofNat 8 i) = c := by
        simp only [symGet, BitVec.toNat_ofNat, Nat.mod_eq_of_lt (show i < 2 ^ 8 by omega)]
        exact hc
      simp only [List.map_cons, HTree.entry, HTree.weight, HTree.root, h1, h2]

theorem mem_liveSyms {freq : Vector Word 256} {i : Nat} {cs : List Word} (h : freq.toList.drop i = cs) (s : Sym) :
    s ∈ liveSyms i cs ↔ i ≤ s.toNat ∧ symGet freq s ≠ 0 := by
  have hs := s.isLt
  induction cs generalizing i with
  | nil =>
    simp only [liveSyms, List.not_mem_nil, false_iff, not_and]
    intro hi
    rw [List.drop_eq_nil_iff] at h
    simp at h
    omega
  | cons c cs ih =>
    obtain ⟨hi, hc, hd⟩ := drop_cons h
    have hsi : s = BitVec.ofNat 8 i ↔ s.toNat = i := by
      rw [← BitVec.toNat_inj]
      simp only [BitVec.toNat_ofNat]
      rw [Nat.mod_eq_of_lt (by omega)]
    have hval : s.toNat = i → symGet freq s = c := by
      rintro rfl
      exact hc
    unfold liveSyms
    split
    · rename_i h0
      refine (ih hd).trans ?_
      constructor
      · rintro ⟨h1, h2⟩
        exact ⟨by omega, h2⟩
      · rintro ⟨h1, h2⟩
        have : s.toNat ≠ i := fun e => h2 (by rw [hval e, h0])
        exact ⟨by omega, h2⟩
    · rename_i h0
      refine (List.mem_cons.trans (or_congr hsi (ih hd))).trans ?_
      constructor
      · rintro (h1 | ⟨h1, h2⟩)
        · exact ⟨by omega, by rw [hval h1]; exact h0⟩
        · exact ⟨by omega, h2⟩
      · rintro ⟨h1, h2⟩
        by_cases h3 : s.toNat = i
        · exact .inl h3
        · exact .inr ⟨by omega, h2⟩

theorem liveSyms_nodup {freq : Vector Word 256} {i : Nat} {cs : List Word} (h : freq.toList.drop i = cs) :
    (liveSyms i cs).Nodup := by
  induction cs generalizing i with
  | nil => exact List.nodup_nil
  | cons c cs ih =>
    obtain ⟨hi, hc, hd⟩ := drop_cons h
    unfold liveSyms
    split
    · exact ih hd
    · refine List.nodup_cons.2 ⟨fun hm => ?_, ih hd⟩
      rw [mem_liveSyms hd] at hm
      simp at hm
      omega

theorem liveSyms_length (i : Nat) (cs : List Word) : (liveSyms i cs).length = cs.countP (fun c => c != 0) := by
  induction cs generalizing i with
  | nil => rfl
  | cons c cs ih =>
    unfold liveSyms
    rw [List.countP_cons]
    split
    · rename_i h
      simp [h, ih]
    · rename_i h
      rw [List.length_cons, ih, if_pos (by simpa using h)]

theorem liveSyms_sum {freq : Vector Word 256} {i : Nat} {cs : List Word} (h : freq.toList.drop i = cs) :
    ((liveSyms i cs).map (fun s => (symGet freq s).toNat)).sum = (cs.map BitVec.toNat).sum := by
  induction cs generalizing i with
  | nil => rfl
  | cons c cs ih =>
    obtain ⟨hi, hc, hd⟩ := drop_cons h
    have h2 : symGet freq (BitVec.ofNat 8 i) = c := by
      simp only [symGet, BitVec.toNat_ofNat, Nat.mod_eq_of_lt (show i < 2 ^ 8 by omega)]
      exact hc
    unfold liveSyms
    split
    · rename_i h0
      simp [ih hd, h0]
    · simp [ih hd, h2]

/-- The sum of the counts stays below the range of a weight (00_scope.md R12). -/
theorem freqSum_lt (freq : Vector Word 256) : freqSum freq < 2 ^ 40 := by
  have h : ∀ l : List Word, (l.map BitVec.toNat).sum ≤ l.length * (2 ^ 32 - 1) := by
    intro l
    induction l with
    | nil => simp
    | cons c cs ih =>
      have := c.isLt
      simp only [List.map_cons, List.sum_cons, List.length_cons]
      omega
  have := h freq.toList
  simp only [Vector.length_toList] at this
  unfold freqSum
  omega

/-- The live symbols of a whole table. -/
def liveSet (freq : Vector Word 256) : List Sym := liveSyms 0 freq.toList

theorem mem_liveSet (freq : Vector Word 256) (s : Sym) : s ∈ liveSet freq ↔ symGet freq s ≠ 0 := by
  rw [liveSet, mem_liveSyms (freq := freq) (by simp)]
  simp

theorem liveSet_nodup (freq : Vector Word 256) : (liveSet freq).Nodup := liveSyms_nodup (freq := freq) (by simp)

theorem liveSet_length (freq : Vector Word 256) : (liveSet freq).length = distinctSyms freq := liveSyms_length _ _

theorem liveSet_sum (freq : Vector Word 256) :
    ((liveSet freq).map (fun s => (symGet freq s).toNat)).sum = freqSum freq := liveSyms_sum (by simp)

theorem liveLeaves_eq (freq : Vector Word 256) (nodes : Nodes) :
    liveLeaves freq = (liveSet freq).map (fun s => (HTree.leaf s).entry nodes freq) := leavesFrom_eq (by simp) nodes

/-- The forest at the start is the live leaves. -/
theorem forest_start (freq : Vector Word 256) :
    Forest freq (liveSet freq) 256 (liveLeaves freq) clearNodes ((liveSet freq).map HTree.leaf) where
  queue := by
    rw [liveLeaves_eq freq clearNodes, List.map_map]
    exact List.Perm.refl _
  held := by
    intro h hh
    obtain ⟨s, -, rfl⟩ := List.mem_map.1 hh
    rfl
  weighed := by
    intro h hh
    obtain ⟨s, -, rfl⟩ := List.mem_map.1 hh
    rfl
  below := by
    intro h hh
    obtain ⟨s, -, rfl⟩ := List.mem_map.1 hh
    rfl
  leaves := by
    rw [List.flatMap_map]
    simp [HTree.leaves]
  inner := by
    rw [List.flatMap_map]
    simp [HTree.inner]
  start := by omega
  count := by simp
  others := fun i _ => nodeGet_clearNodes i
  total := by
    rw [List.map_map]
    rfl

/-- One tree left: it is a general tree over the live symbols (41_tree_builder.md R146, R148). -/
theorem Forest.general {freq : Vector Word 256} {syms : List Sym} {nodes : Nodes} {h : HTree} {t : Tree}
    (hf : Forest freq syms (255 + syms.length) [h.entry nodes freq] nodes [h]) (hn : syms.Nodup)
    (h2 : 2 ≤ syms.length) (ht : t.nodes = nodes) (hr : t.root = h.root) (hk : t.k.toNat = syms.length) :
    GeneralTree t h := by
  have hleaves : h.leaves.Perm syms := by simpa using hf.leaves
  have hinner : (h.inner.map BitVec.toNat).Perm (List.range' 256 (syms.length - 1)) := by
    have := hf.inner
    rw [show 255 + syms.length - 256 = syms.length - 1 by omega] at this
    simpa using this
  have hnode : ∃ i l r, h = .node i l r := by
    cases h with
    | leaf s =>
      have := hleaves.length_eq
      simp [HTree.leaves] at this
      omega
    | node i l r => exact ⟨i, l, r, rfl⟩
  have hheld := hf.held h (by simp)
  have hle : syms.length ≤ 256 := nodup_syms_length hn
  have hmem : ∀ i : NodeIdx, i ∈ h.inner ↔ 256 ≤ i.toNat ∧ i.toNat ≤ 254 + t.k.toNat := by
    intro i
    have h1 : i ∈ h.inner ↔ i.toNat ∈ h.inner.map BitVec.toNat := by
      rw [List.mem_map]
      constructor
      · exact fun hi => ⟨i, hi, rfl⟩
      · rintro ⟨j, hj, hij⟩
        rwa [← BitVec.eq_of_toNat_eq hij]
    rw [h1, hinner.mem_iff, List.mem_range'_1, hk]
    omega
  exact {
    root := hr.symm
    rootInternal := by
      obtain ⟨i, l, r, rfl⟩ := hnode
      rw [hr]
      exact (HTree.heldIn_node.1 hheld).1
    held := ht ▸ hheld
    leavesOnce := hleaves.nodup_iff.2 hn
    innerOnce := List.Nodup.of_map _ (hinner.nodup_iff.2 List.nodup_range')
    count := by rw [hleaves.length_eq, hk]
    inner := hmem
    others := by
      intro i hi
      rw [ht]
      apply hf.others
      rw [hmem, hk] at hi
      omega }

/-- With every child below its parent no index is above the root's (41_tree_builder.md R148). -/
theorem HTree.inner_le_root {x : HTree} (hx : x.childrenBelow = true) {i : NodeIdx} (hi : i ∈ x.inner) :
    i.toNat ≤ x.root.toNat := by
  induction x with
  | leaf s => simp [HTree.inner] at hi
  | node j a c iha ihc =>
    simp only [HTree.childrenBelow, Bool.and_eq_true, decide_eq_true_eq] at hx
    simp only [HTree.inner, List.mem_cons, List.mem_append] at hi
    show i.toNat ≤ j.toNat
    rcases hi with rfl | hi | hi
    · exact le_refl _
    · have := iha hx.1.2 hi
      omega
    · have := ihc hx.2 hi
      omega

/-- With one node in the queue there is nothing to merge. -/
theorem mergeLoop_one (fuel next : Nat) (x : QNode) (nodes : Nodes) : mergeLoop fuel next [x] nodes = ([x], nodes) := by
  cases fuel <;> simp [mergeLoop, popLeast, leastNode]

/-- The queue at the start: one node for every symbol with a count (41_tree_builder.md R140, R142). -/
theorem mem_liveLeaves {freq : Vector Word 256} {q : QNode} :
    q ∈ liveLeaves freq ↔ ∃ x, symGet freq x ≠ 0 ∧ q = ⟨(symGet freq x).toNat, leafIdx x⟩ := by
  rw [liveLeaves_eq freq clearNodes, List.mem_map]
  constructor
  · rintro ⟨x, hx, rfl⟩
    exact ⟨x, (mem_liveSet _ _).1 hx, rfl⟩
  · rintro ⟨x, hx, rfl⟩
    exact ⟨x, (mem_liveSet _ _).2 hx, rfl⟩

theorem liveLeaves_nodup (freq : Vector Word 256) : ((liveLeaves freq).map QNode.idx).Nodup := by
  rw [liveLeaves_eq freq clearNodes, List.map_map]
  exact (liveSet_nodup freq).map (fun _ _ h => leafIdx_inj h)

/-- The tree of a table with two symbols or more is the merges from those nodes on (41_tree_builder.md R140, R146). -/
theorem buildTree_merges {freq : Vector Word 256} (h2 : 2 ≤ distinctSyms freq) :
    ∃ root nodes, mergeLoop (liveLeaves freq).length 256 (liveLeaves freq) clearNodes = ([root], nodes) ∧
      buildTree freq = ⟨nodes, BitVec.ofNat 9 (liveLeaves freq).length, root.idx, .general, 0, true⟩ := by
  have hlen := liveSet_length freq
  have hll : (liveLeaves freq).length = distinctSyms freq := by
    rw [liveLeaves_eq freq clearNodes, List.length_map, hlen]
  obtain ⟨h, nodes, hm, -⟩ := mergeLoop_forest (nodup_syms_length (liveSet_nodup freq))
    (by rw [liveSet_sum]; exact freqSum_lt freq) (liveLeaves freq).length (forest_start freq)
    (by intro e; rw [List.map_eq_nil_iff] at e; rw [e] at hlen; simp at hlen; omega) (by simp [hll, hlen])
  refine ⟨_, nodes, hm, ?_⟩
  unfold buildTree
  split
  · rename_i e
    rw [e] at hll
    simp at hll
    omega
  · rename_i e
    rw [e] at hll
    simp at hll
    omega
  · rw [hm]
    rfl

/-- What `TB_BUILD` makes of a table with two symbols or more (41_tree_builder.md R146, R148, R151). -/
theorem buildTree_general {freq : Vector Word 256} (h2 : 2 ≤ distinctSyms freq) :
    ∃ h, GeneralTree (buildTree freq) h ∧ (buildTree freq).mode = .general ∧ (buildTree freq).valid = true ∧
      (buildTree freq).singleSym = 0 ∧ (buildTree freq).k.toNat = distinctSyms freq ∧
      (buildTree freq).root.toNat = 254 + distinctSyms freq ∧ (∀ x, x ∈ h.leaves ↔ symGet freq x ≠ 0) ∧
      h.weighed (buildTree freq).nodes freq = true ∧ h.childrenBelow = true ∧
      h.weight (buildTree freq).nodes freq = freqSum freq := by
  have hlen := liveSet_length freq
  have hle : (liveSet freq).length ≤ 256 := nodup_syms_length (liveSet_nodup freq)
  have hsum : ((liveSet freq).map (fun s => (symGet freq s).toNat)).sum < 2 ^ 40 := by
    rw [liveSet_sum]
    exact freqSum_lt freq
  have hll : (liveLeaves freq).length = distinctSyms freq := by
    rw [liveLeaves_eq freq clearNodes, List.length_map, hlen]
  obtain ⟨h, nodes, hm, hf⟩ := mergeLoop_forest hle hsum (liveLeaves freq).length (forest_start freq)
    (by intro e; rw [List.map_eq_nil_iff] at e; rw [e] at hlen; simp at hlen; omega) (by simp [hll, hlen])
  have ht : buildTree freq = ⟨nodes, BitVec.ofNat 9 (distinctSyms freq), h.root, .general, 0, true⟩ := by
    unfold buildTree
    split
    · rename_i e
      rw [e] at hll
      simp at hll
      omega
    · rename_i e
      rw [e] at hll
      simp at hll
      omega
    · rw [hm, hll]
      rfl
  have hk : (BitVec.ofNat 9 (distinctSyms freq)).toNat = distinctSyms freq := by
    simp
    omega
  rw [ht]
  have hg : GeneralTree ⟨nodes, BitVec.ofNat 9 (distinctSyms freq), h.root, .general, 0, true⟩ h :=
    hf.general (liveSet_nodup freq) (by omega) rfl rfl (by rw [hlen]; exact hk)
  have hleaves : h.leaves.Perm (liveSet freq) := by simpa using hf.leaves
  have htot := hf.total
  rw [liveSet_sum] at htot
  have hroot : h.root.toNat = 254 + distinctSyms freq := by
    obtain ⟨l, r, hnode⟩ := hg.exists_node
    have hb := hf.below h (by simp)
    have hup := (hg.inner h.root).1 (by rw [hnode]; simp [HTree.inner, HTree.root])
    have htopmem : BitVec.ofNat 9 (254 + distinctSyms freq) ∈ h.inner := by
      rw [hg.inner]
      simp
      omega
    have := HTree.inner_le_root hb htopmem
    simp only [hk] at hup
    simp at this
    omega
  refine ⟨h, hg, rfl, rfl, rfl, hk, hroot, fun x => ?_, hf.weighed h (by simp), hf.below h (by simp), by simpa using htot⟩
  rw [hleaves.mem_iff, mem_liveSet]

end Sys2Proof.Machine
end

