-- ==== Sys2Proof/Laws/Effects.lean ====
section
/-! SUPPORT. What each command can do, said once per command: it is ignored in ERROR, or raises and leaves error entry on the
state before it, or its preconditions held and it leaves the state named here; and what the end of a busy window does. -/

namespace Sys2Proof.Machine

/-- The command was ignored: the block is in ERROR and nothing changed (60_exceptions.md R301). -/
def Ignored (s t : State) : Prop := s.seq = .error ∧ t = s

/-- The command raised an error: error entry on the state before it (60_exceptions.md R299). -/
def Raised (s t : State) : Prop := s.seq = .idle ∧ ∃ e info, t = abortRun e info s

/-- The three ways a command that runs in IDLE only ends in a next state. -/
theorem whenIdle_cases {s t : State} {w : Cmd State} (h : whenIdle s w = .next t) :
    Ignored s t ∨ Raised s t ∨ (s.seq = .idle ∧ w = .ok t) := by
  rcases whenIdle_next.1 h with h | ⟨hi, h | ⟨e, info, -, h⟩⟩
  · exact .inl h
  · exact .inr (.inr ⟨hi, h⟩)
  · exact .inr (.inl ⟨hi, e, info, h⟩)

theorem execIoAbort_cases {s t : State} (h : exec .ioAbort s = .next t) : Ignored s t ∨ Raised s t := by
  rcases whenIdle_cases h with h | h | ⟨-, h⟩
  · exact .inl h
  · exact .inr h
  · exact absurd h (raise_ne_ok _ _ _)

theorem execTbBuild_cases {s t : State} (h : exec .tbBuild s = .next t) : Ignored s t ∨
    (s.seq = .idle ∧ t = { withNewTree s (buildTree s.freq) with origLen := BitVec.ofNat 64 (freqSum s.freq) }) := by
  rcases whenIdle_next.1 h with h | ⟨hi, h | ⟨e, info, h, -⟩⟩
  · exact .inl h
  · exact .inr ⟨hi, (Except.ok.inj h).symm⟩
  · simp at h

theorem execCgGen_cases {s t : State} (h : exec .cgGen s = .next t) : Ignored s t ∨ Raised s t ∨
    (s.seq = .idle ∧ s.tree.valid = true ∧ ∃ c, genCodes s.tree = .ok c ∧ t = { s with codes := ⟨c, true⟩ }) := by
  rcases whenIdle_cases h with h | h | ⟨hi, h⟩
  · exact .inl h
  · exact .inr (.inl h)
  · obtain ⟨_, h1, h⟩ := cmd_bind_ok.1 h
    obtain ⟨c, h2, h⟩ := cmd_bind_ok.1 h
    exact .inr (.inr ⟨hi, need_ok.1 h1, c, h2, (Except.ok.inj h).symm⟩)

theorem execCgEmit_cases {s t : State} (h : exec .cgEmit s = .next t) : Ignored s t ∨ Raised s t ∨
    (s.seq = .idle ∧ s.tree.valid = true ∧ s.tree.mode = .general ∧ s.bp.isOpen = true ∧
      ∃ bits p, desc s.tree.nodes maxDepth s.tree.root = .ok bits ∧ bpPutAll s.caps.obuf s.bp bits = .ok p ∧
        t = { s with bp := p }) := by
  rcases whenIdle_cases h with h | h | ⟨hi, h⟩
  · exact .inl h
  · exact .inr (.inl h)
  · obtain ⟨_, h1, h⟩ := cmd_bind_ok.1 h
    obtain ⟨_, h2, h⟩ := cmd_bind_ok.1 h
    obtain ⟨_, h3, h⟩ := cmd_bind_ok.1 h
    obtain ⟨bits, h4, h⟩ := cmd_bind_ok.1 h
    obtain ⟨p, h5, h⟩ := cmd_bind_ok.1 h
    exact .inr (.inr ⟨hi, need_ok.1 h1, eq_of_beq (need_ok.1 h2), need_ok.1 h3, bits, p, h4, h5, (Except.ok.inj h).symm⟩)

theorem execBpInit_cases {s t : State} (h : exec .bpInit s = .next t) :
    Ignored s t ∨ (s.seq = .idle ∧ t = { s with bp := ⟨true, 0, 0, []⟩ }) := by
  rcases whenIdle_next.1 h with h | ⟨hi, h | ⟨e, info, h, -⟩⟩
  · exact .inl h
  · exact .inr ⟨hi, (Except.ok.inj h).symm⟩
  · simp at h

theorem execBpPutbits_cases {s t : State} {n : BitVec 5} {v : BitVec 16} (h : exec (.bpPutbits n v) s = .next t) :
    Ignored s t ∨ Raised s t ∨ (s.seq = .idle ∧ n.toNat ≤ 16 ∧ s.bp.isOpen = true ∧
      ∃ p, bpPutAll s.caps.obuf s.bp (lowBits v n.toNat) = .ok p ∧ t = { s with bp := p }) := by
  rcases whenIdle_cases h with h | h | ⟨hi, h⟩
  · exact .inl h
  · exact .inr (.inl h)
  · obtain ⟨_, h1, h⟩ := cmd_bind_ok.1 h
    obtain ⟨_, h2, h⟩ := cmd_bind_ok.1 h
    obtain ⟨p, h3, h⟩ := cmd_bind_ok.1 h
    exact .inr (.inr ⟨hi, needCount_ok.1 h1, need_ok.1 h2, p, h3, (Except.ok.inj h).symm⟩)

theorem execBpPutsym_cases {s t : State} {x : Sym} (h : exec (.bpPutsym x) s = .next t) :
    Ignored s t ∨ Raised s t ∨ (s.seq = .idle ∧ s.bp.isOpen = true ∧ s.codes.valid = true ∧
      symGet s.codes.entries x ≠ [] ∧
      ∃ p, bpPutAll s.caps.obuf s.bp (symGet s.codes.entries x) = .ok p ∧ t = { s with bp := p }) := by
  rcases whenIdle_cases h with h | h | ⟨hi, h⟩
  · exact .inl h
  · exact .inr (.inl h)
  · obtain ⟨_, h1, h⟩ := cmd_bind_ok.1 h
    obtain ⟨_, h2, h⟩ := cmd_bind_ok.1 h
    split at h
    · exact absurd h (raise_ne_ok _ _ _)
    · rename_i hne
      obtain ⟨p, h3, h⟩ := cmd_bind_ok.1 h
      exact .inr (.inr ⟨hi, need_ok.1 h1, need_ok.1 h2, hne, p, h3, (Except.ok.inj h).symm⟩)

theorem execBpFlush_cases {s t : State} (h : exec .bpFlush s = .next t) : Ignored s t ∨ Raised s t ∨
    (s.seq = .idle ∧ s.bp.isOpen = true ∧ ∃ p, bpFlush s.caps.obuf s.bp = .ok p ∧ t = { s with bp := p }) := by
  rcases whenIdle_cases h with h | h | ⟨hi, h⟩
  · exact .inl h
  · exact .inr (.inl h)
  · obtain ⟨_, h1, h⟩ := cmd_bind_ok.1 h
    obtain ⟨p, h2, h⟩ := cmd_bind_ok.1 h
    exact .inr (.inr ⟨hi, need_ok.1 h1, p, h2, (Except.ok.inj h).symm⟩)

theorem execBuInit_cases {s t : State} (h : exec .buInit s = .next t) : Ignored s t ∨ Raised s t ∨
    (s.seq = .idle ∧ windowFits s.ibuf = true ∧ t = { s with bu := ⟨true, 0, 0⟩ }) := by
  rcases whenIdle_cases h with h | h | ⟨hi, h⟩
  · exact .inl h
  · exact .inr (.inl h)
  · split at h
    · rename_i hw
      exact .inr (.inr ⟨hi, hw, (Except.ok.inj h).symm⟩)
    · exact absurd h (raise_ne_ok _ _ _)

theorem execBuGet_cases {s t : State} {n : BitVec 5} (h : exec (.buGet n) s = .next t) : Ignored s t ∨ Raised s t ∨
    (s.seq = .idle ∧ n.toNat ≤ 16 ∧ s.bu.isOpen = true ∧
      ∃ u, buGet s.caps.ibuf s.ibuf n s.bu = .ok u ∧ t = { s with bu := u }) := by
  rcases whenIdle_cases h with h | h | ⟨hi, h⟩
  · exact .inl h
  · exact .inr (.inl h)
  · obtain ⟨_, h1, h⟩ := cmd_bind_ok.1 h
    obtain ⟨_, h2, h⟩ := cmd_bind_ok.1 h
    obtain ⟨u, h3, h⟩ := cmd_bind_ok.1 h
    exact .inr (.inr ⟨hi, needCount_ok.1 h1, need_ok.1 h2, u, h3, (Except.ok.inj h).symm⟩)

theorem execTwCfg_cases {s t : State} {m : Byte} {x : Sym} (h : exec (.twCfg m x) s = .next t) : Ignored s t ∨ Raised s t ∨
    (s.seq = .idle ∧ ∃ mode, modeOfByte m = some mode ∧ t = withNewTree s (cfgTree mode x)) := by
  rcases whenIdle_cases h with h | h | ⟨hi, h⟩
  · exact .inl h
  · exact .inr (.inl h)
  · split at h
    · exact absurd h (raise_ne_ok _ _ _)
    · rename_i mode hm
      exact .inr (.inr ⟨hi, mode, hm, (Except.ok.inj h).symm⟩)

theorem execTwLoad_cases {s t : State} (h : exec .twLoad s = .next t) : Ignored s t ∨ Raised s t ∨
    (s.seq = .idle ∧ s.bu.isOpen = true ∧
      ∃ tree u, loadTree s.caps.ibuf s.ibuf s.bu = .ok (tree, u) ∧ t = { withNewTree s tree with bu := u }) := by
  rcases whenIdle_cases h with h | h | ⟨hi, h⟩
  · exact .inl h
  · exact .inr (.inl h)
  · obtain ⟨_, h1, h⟩ := cmd_bind_ok.1 h
    obtain ⟨⟨tree, u⟩, h2, h⟩ := cmd_bind_ok.1 h
    exact .inr (.inr ⟨hi, need_ok.1 h1, tree, u, h2, (Except.ok.inj h).symm⟩)

theorem execTwStart_cases {s t : State} (h : exec .twStart s = .next t) : Ignored s t ∨ Raised s t ∨
    (s.seq = .idle ∧ s.tree.valid = true ∧ (s.tree.mode = .general → s.bu.isOpen = true) ∧
      (s.tree.mode = .empty → s.origLen = 0) ∧ t = { s with tw := ⟨true, s.origLen == 0, s.tree.root, 0, []⟩ }) := by
  rcases whenIdle_cases h with h | h | ⟨hi, h⟩
  · exact .inl h
  · exact .inr (.inl h)
  · obtain ⟨_, h1, h⟩ := cmd_bind_ok.1 h
    obtain ⟨_, h2, h⟩ := cmd_bind_ok.1 h
    have h2 := need_ok.1 h2
    split at h
    · exact absurd h (raise_ne_ok _ _ _)
    · rename_i hl
      refine .inr (.inr ⟨hi, need_ok.1 h1, fun hm => ?_, fun hm => ?_, (Except.ok.inj h).symm⟩)
      · simpa [hm] using h2
      · by_contra hn
        exact hl ⟨hm, hn⟩

theorem execTwStep_cases {s t : State} (h : exec .twStep s = .next t) : Ignored s t ∨ Raised s t ∨
    (s.seq = .idle ∧ s.tw.active = true ∧ s.tw.done = false ∧ (s.tree.mode = .general → s.bu.isOpen = true) ∧
      ∃ u k, twStep s.caps s.ibuf s.tree s.origLen s.bu s.tw = .ok (u, k) ∧ t = { s with bu := u, tw := k }) := by
  rcases whenIdle_cases h with h | h | ⟨hi, h⟩
  · exact .inl h
  · exact .inr (.inl h)
  · obtain ⟨_, h1, h⟩ := cmd_bind_ok.1 h
    obtain ⟨_, h2, h⟩ := cmd_bind_ok.1 h
    obtain ⟨_, h3, h⟩ := cmd_bind_ok.1 h
    obtain ⟨⟨u, k⟩, h4, h⟩ := cmd_bind_ok.1 h
    have h3 := need_ok.1 h3
    exact .inr (.inr ⟨hi, need_ok.1 h1, by simpa using need_ok.1 h2, fun hm => by simpa [hm] using h3, u, k, h4,
      (Except.ok.inj h).symm⟩)

theorem execTwRun_cases {s t : State} (h : exec .twRun s = .next t) : Ignored s t ∨ Raised s t ∨
    (s.seq = .idle ∧ s.tw.active = true ∧ (s.tree.mode = .general → s.tw.done = false → s.bu.isOpen = true) ∧
      ∃ u k, twLoop s.caps s.ibuf s.tree s.origLen walkFuel s.bu s.tw = .ok (u, k) ∧ t = { s with bu := u, tw := k }) := by
  rcases whenIdle_cases h with h | h | ⟨hi, h⟩
  · exact .inl h
  · exact .inr (.inl h)
  · obtain ⟨_, h1, h⟩ := cmd_bind_ok.1 h
    obtain ⟨_, h2, h⟩ := cmd_bind_ok.1 h
    obtain ⟨⟨u, k⟩, h3, h⟩ := cmd_bind_ok.1 h
    have h2 := need_ok.1 h2
    exact .inr (.inr ⟨hi, need_ok.1 h1, fun hm hd => by simpa [hm, hd] using h2, u, k, h3, (Except.ok.inj h).symm⟩)

/-- When a busy window is over, what runs completes, whatever the host does next. -/
theorem step_of_windowOver {s : State} {work : Work} (h : WindowOver s work) :
    step s = complete work { s with running := none } := by
  obtain ⟨n, h1, h2⟩ := h
  unfold step
  rw [h1]
  rcases n with _ | n
  · rfl
  · rw [h2.resolve_left (by omega)]

end Sys2Proof.Machine
end

