-- ==== Sys2Proof/Laws/Encoding.lean ====
section
/-! SUPPORT. The fields of a command word: the encoder puts the opcode and the operand where the decoder looks for them
(30_encoding.md R100 to R102). -/

namespace Sys2Proof

/-- `OPC` of a command's word is its opcode. -/
@[simp] theorem opcField_encode (i : Instr) : opcField (encode i) = i.opcode.code := by
  apply BitVec.eq_of_getLsbD_eq
  intro k hk
  unfold opcField encode
  rw [BitVec.getLsbD_extractLsb', BitVec.getLsbD_append]
  simp [hk]

/-- `ARG` of a command's word is its operand field. -/
@[simp] theorem argField_encode (i : Instr) : argField (encode i) = i.arg := by
  apply BitVec.eq_of_getLsbD_eq
  intro k hk
  unfold argField encode
  rw [BitVec.getLsbD_extractLsb', BitVec.getLsbD_append]
  simp [hk]

/-- A word is its two fields. -/
theorem opcField_append_argField (c : Word) : opcField c ++ argField c = c := by
  apply BitVec.eq_of_getLsbD_eq
  intro k hk
  rw [BitVec.getLsbD_append]
  unfold opcField argField
  rw [BitVec.getLsbD_extractLsb', BitVec.getLsbD_extractLsb']
  by_cases h : k < 24
  · simp [h]
  · simp [h, show k - 24 < 8 by omega, show 24 + (k - 24) = k by omega]

/-- No two opcodes share a code: looking a code up finds its opcode. -/
@[simp] theorem find_opcode (op : Opcode) : allOpcodes.find? (fun o => o.code == op.code) = some op := by
  cases op <;> rfl

/-- The four outcomes of a decode, as conditions on the fields (30_encoding.md R103). -/
theorem decode_illegal {c : Word} (h : ∀ op ∈ allOpcodes, op.code ≠ opcField c) : decode c = .error .illegalCmd := by
  unfold decode
  rw [List.find?_eq_none.2 (fun op hop => by simpa using h op hop)]

theorem decode_of_code {c : Word} {op : Opcode} (h : op.code = opcField c) :
    decode c = if argField c &&& op.reserved = 0 then .ok (instrOf op (argField c)) else .error .badArg := by
  unfold decode
  rw [← h, find_opcode]

end Sys2Proof
end

