-- ==== Sys2Proof/Laws/Tokens.lean ====
section
/-! SUPPORT. Tree descriptions as token sequences (30_encoding.md R120, R121): the tokens of a tree, when a sequence is not
complete, and that the bits of a stream have one reading as tokens. -/

namespace Sys2Proof.Machine

/-! ## Counting and concatenation -/

@[simp] theorem tokenBits_nil : tokenBits [] = [] := rfl

@[simp] theorem tokenBits_cons (t : Token) (ts : List Token) : tokenBits (t :: ts) = t.bits ++ tokenBits ts := rfl

@[simp] theorem tokenBits_append (ts us : List Token) : tokenBits (ts ++ us) = tokenBits ts ++ tokenBits us := by
  simp [tokenBits]

@[simp] theorem tokenLeaves_append (ts us : List Token) : tokenLeaves (ts ++ us) = tokenLeaves ts ++ tokenLeaves us := by
  induction ts with
  | nil => rfl
  | cons t ts ih => cases t <;> simp [tokenLeaves, ih]

@[simp] theorem tokenInner_append (ts us : List Token) : tokenInner (ts ++ us) = tokenInner ts + tokenInner us := by
  induction ts with
  | nil => simp [tokenInner]
  | cons t ts ih =>
    cases t <;> simp [tokenInner, ih]
    omega

/-! ## The tokens of a tree -/

/-- The tokens of a tree's description (30_encoding.md R120). -/
def HTree.tokens : HTree → List Token
  | leaf s => [.leaf s]
  | node _ l r => .inner :: (l.tokens ++ r.tokens)

theorem HTree.tokenBits_tokens (h : HTree) : tokenBits h.tokens = h.desc := by
  induction h with
  | leaf s => simp [tokens, desc, Token.bits]
  | node i l r ihl ihr => simp [tokens, desc, Token.bits, ihl, ihr]

theorem HTree.tokenLeaves_tokens (h : HTree) : tokenLeaves h.tokens = h.leaves := by
  induction h with
  | leaf s => rfl
  | node i l r ihl ihr => simp [tokens, leaves, tokenLeaves, ihl, ihr]

theorem HTree.tokenInner_tokens (h : HTree) : tokenInner h.tokens = h.inner.length := by
  induction h with
  | leaf s => rfl
  | node i l r ihl ihr => simp [tokens, inner, tokenInner, ihl, ihr]

/-! ## Sequences that are not complete -/

@[simp] theorem stillOpen_zero (ts : List Token) : stillOpen 0 ts = false := by
  cases ts <;> rfl

/-- A tree's tokens are one missing subtree. -/
theorem stillOpen_tokens (h : HTree) (n : Nat) (ts : List Token) : stillOpen (n + 1) (h.tokens ++ ts) = stillOpen n ts := by
  induction h generalizing n ts with
  | leaf s => rfl
  | node i l r ihl ihr =>
    simp only [HTree.tokens, List.cons_append, List.append_assoc, stillOpen]
    rw [ihl, ihr]

/-- A complete sequence is not the beginning of one that is not. -/
theorem not_stillOpen_tokens (h : HTree) {ts : List Token} (hp : h.tokens <+: ts) : stillOpen 1 ts = false := by
  obtain ⟨us, rfl⟩ := hp
  rw [stillOpen_tokens h 0 us, stillOpen_zero]

/-- What was read before stays open when more is missing. -/
theorem stillOpen_succ {n : Nat} {ts : List Token} (h : stillOpen n ts = true) : stillOpen (n + 1) ts = true := by
  induction ts generalizing n with
  | nil => rfl
  | cons t ts ih =>
    cases n with
    | zero => simp [stillOpen] at h
    | succ n =>
      cases t
      · exact ih h
      · exact ih h

/-! ## Reading bits as tokens -/

/-- No token's bits are the beginning of another's. -/
theorem Token.bits_inj {a b : Token} {us : Bits} (ha : a.bits <+: us) (hb : b.bits <+: us) : a = b := by
  obtain ⟨r, rfl⟩ := ha
  obtain ⟨q, h⟩ := hb
  cases a <;> cases b <;> simp only [Token.bits, List.cons_append, List.cons.injEq, reduceCtorEq, false_and] at h
  · rfl
  · rw [symBits_inj (List.append_inj h.2 (by simp)).1]

theorem Token.bits_length_pos (t : Token) : 0 < t.bits.length := by
  cases t <;> simp [Token.bits]

/-- Two readings of the beginning of a stream agree as far as both go. -/
theorem tokens_comparable {ts us : List Token} {bits : Bits} (ht : tokenBits ts <+: bits) (hu : tokenBits us <+: bits) :
    ts <+: us ∨ us <+: ts := by
  induction ts generalizing us bits with
  | nil => exact .inl (List.nil_prefix)
  | cons t ts ih =>
    cases us with
    | nil => exact .inr (List.nil_prefix)
    | cons u us =>
      rw [tokenBits_cons] at ht hu
      obtain rfl := Token.bits_inj ((List.prefix_append _ _).trans ht) ((List.prefix_append _ _).trans hu)
      obtain ⟨r, rfl⟩ := ht
      rw [List.append_assoc, List.prefix_append_right_inj] at hu
      rcases ih (List.prefix_append _ _) hu with h | h
      · exact .inl (by simpa using h)
      · exact .inr (by simpa using h)

/-- A reading that ends behind one token more has that token before the bits that are left. -/
theorem token_of_longer {ts us : List Token} {rest : Bits} (hu : tokenBits us <+: tokenBits ts ++ rest) (hp : ts <+: us)
    (hne : ts ≠ us) : ∃ t : Token, t.bits <+: rest := by
  obtain ⟨vs, rfl⟩ := hp
  cases vs with
  | nil => simp at hne
  | cons v vs =>
    rw [tokenBits_append, List.prefix_append_right_inj, tokenBits_cons] at hu
    exact ⟨v, (List.prefix_append _ _).trans hu⟩

/-! ## Faults -/

/-- The tokens that are a fault behind a fault-free beginning: a 256th internal node, a symbol that has come
(45_tree_walker.md R226). -/
def Faulty (ts : List Token) : Token → Prop
  | .inner => tokenInner ts = 255
  | .leaf x => x ∈ tokenLeaves ts

/-- Nothing without a fault begins with a fault. -/
theorem Faulty.not_prefix {ts us : List Token} {t : Token} (h : Faulty ts t) (hd : (tokenLeaves us).Nodup)
    (hi : tokenInner us ≤ 255) : ¬ ts ++ [t] <+: us := by
  rintro ⟨vs, rfl⟩
  cases t with
  | inner =>
    simp only [Faulty] at h
    simp [tokenInner, h] at hi
  | leaf x =>
    simp only [Faulty] at h
    simp [tokenLeaves, List.nodup_append] at hd
    exact (hd.2.2 x h).1 rfl

/-- A beginning without a fault has one first fault. -/
theorem Faulty.unique {ts us : List Token} {t u : Token} (ht : Faulty ts t) (hud : (tokenLeaves us).Nodup)
    (hui : tokenInner us ≤ 255) (hp : ts ++ [t] <+: us ++ [u]) : ts = us ∧ t = u := by
  rcases List.prefix_concat_iff.1 hp with h | h
  · simpa using h
  · exact absurd h (ht.not_prefix hud hui)

end Sys2Proof.Machine
end

