-- ==== Sys2Proof/Laws/Unpacker.lean ====
section
/-! SUPPORT. The bit unpacker's invariant (10_state.md R49 (f)) and the bits it has left: what `bu_next` and a read of several
bits do to them (44_bit_unpacker.md R201, R204). -/

namespace Sys2Proof.Machine

@[simp] theorem unread_length (w : InBuf) (u : Unpacker) :
    (unread w u).length = w.limit.toNat - u.pos.toNat := by
  simp [unread]

/-- The bits left depend on the cursor only. -/
theorem unread_congr (w : InBuf) {u v : Unpacker} (h : u.pos = v.pos) : unread w u = unread w v := by
  simp [unread, h]

/-- With bits left the first is the bit at the cursor, and the rest are left when the cursor moves on. -/
theorem unread_cons {w : InBuf} {u : Unpacker} (h : u.pos.toNat < w.limit.toNat) :
    unread w u = streamBit w u.pos.toNat :: unread w { u with pos := u.pos + 1 } := by
  have hl := w.limit.isLt
  have hp : (u.pos + 1).toNat = u.pos.toNat + 1 := by
    rw [BitVec.toNat_add]
    simp
    omega
  unfold unread
  rw [show w.limit.toNat - u.pos.toNat = (w.limit.toNat - (u.pos.toNat + 1)) + 1 by omega, List.range_succ_eq_map]
  simp only [List.map_cons, List.map_map, hp, Nat.add_zero]
  congr 1
  apply List.map_congr_left
  intro i _
  simp only [Function.comp]
  congr 1
  omega

theorem unread_nil {w : InBuf} {u : Unpacker} : unread w u = [] ↔ w.limit.toNat ≤ u.pos.toNat := by
  rw [← List.length_eq_zero_iff, unread_length]
  omega

/-- The byte a bit fetch reads is within `IBUF` (20_memory.md R84 (d)). -/
theorem ibufFetch_ok {cap : Word} {w : InBuf} (hw : InBufInv cap w) (hf : windowFits w = true) {p : Nat}
    (hp : p < w.limit.toNat) :
    ibufFetch cap w (w.base.toNat + p / 8) = .ok (Memory.read w.mem (w.base.toNat + p / 8)) := by
  have := hw.lenFits
  have hf' : 8 * w.base.toNat + w.limit.toNat ≤ 8 * w.len.toNat := by simpa [windowFits] using hf
  unfold ibufFetch
  rw [if_pos (by omega)]

/-- `bu_next` at the end of the window is `EOS`. -/
theorem buNext_eos {cap : Word} {w : InBuf} {u : Unpacker} (h : u.pos = w.limit) : buNext cap w u = .ok (none, u) := by
  simp [buNext, h]

/-- `bu_next` with bits left takes the first of them. -/
theorem buNext_bit {cap : Word} {w : InBuf} {u : Unpacker} (hw : InBufInv cap w) (hf : windowFits w = true)
    (hp : u.pos.toNat < w.limit.toNat) :
    buNext cap w u = .ok (some (streamBit w u.pos.toNat), { u with pos := u.pos + 1 }) := by
  have hne : u.pos ≠ w.limit := fun h => by simp [h] at hp
  unfold buNext
  rw [if_neg hne, ibufFetch_ok hw hf hp]
  rfl

/-- `bu_next` in terms of the bits left. -/
theorem buNext_cons {cap : Word} {w : InBuf} {u : Unpacker} (hw : InBufInv cap w) (hf : windowFits w = true)
    {b : Bool} {rest : Bits} (h : unread w u = b :: rest) :
    buNext cap w u = .ok (some b, { u with pos := u.pos + 1 }) ∧ unread w { u with pos := u.pos + 1 } = rest ∧
      (u.pos + 1).toNat = u.pos.toNat + 1 ∧ u.pos.toNat < w.limit.toNat := by
  have hp : u.pos.toNat < w.limit.toNat := by
    by_contra hn
    rw [unread_nil.2 (by omega)] at h
    simp at h
  have hl := w.limit.isLt
  rw [unread_cons hp, List.cons.injEq] at h
  refine ⟨by rw [buNext_bit hw hf hp, h.1], h.2, ?_, hp⟩
  rw [BitVec.toNat_add]
  simp
  omega

/-- Every outcome of `bu_next` within the invariants: `EOS` at the end, else one bit and the cursor moved by one. -/
theorem buNext_cases {cap : Word} {w : InBuf} {u : Unpacker} (hw : InBufInv cap w) (hf : windowFits w = true)
    (hp : u.pos.toNat ≤ w.limit.toNat) :
    (u.pos = w.limit ∧ buNext cap w u = .ok (none, u)) ∨
      ∃ b, buNext cap w u = .ok (some b, { u with pos := u.pos + 1 }) ∧ (u.pos + 1).toNat = u.pos.toNat + 1 ∧
        u.pos.toNat < w.limit.toNat := by
  by_cases h : u.pos = w.limit
  · exact .inl ⟨h, buNext_eos h⟩
  · have hlt : u.pos.toNat < w.limit.toNat :=
      Nat.lt_of_le_of_ne hp (fun e => h (BitVec.eq_of_toNat_eq e))
    have hb := buNext_cons hw hf (unread_cons hlt)
    exact .inr ⟨_, hb.1, hb.2.2.1, hlt⟩

/-- A read of `n` bits with at least `n` left: the bits are shifted in, first bit first, and the cursor moves by `n`. -/
theorem buTake_ok {cap : Word} {w : InBuf} (hw : InBufInv cap w) (hf : windowFits w = true) (n k : Nat)
    (x : BitVec 16) (u : Unpacker) (hx : x.toNat < 2 ^ k) (hk : k + n ≤ 16) (hn : n ≤ (unread w u).length) :
    ∃ y : BitVec 16, buTake cap w n x u = .ok (y, { u with pos := u.pos + BitVec.ofNat 64 n }) ∧
      lowBits y (k + n) = lowBits x k ++ (unread w u).take n ∧ y.toNat < 2 ^ (k + n) := by
  induction n generalizing k x u with
  | zero => exact ⟨x, by simp [buTake], by simp, by simpa using hx⟩
  | succ n ih =>
    rcases hu : unread w u with _ | ⟨b, rest⟩
    · rw [hu] at hn
      simp at hn
    · obtain ⟨h1, h2, -, -⟩ := buNext_cons hw hf hu
      rw [hu, List.length_cons] at hn
      obtain ⟨y, hy1, hy2, hy3⟩ := ih (k + 1) (shiftIn x b) { u with pos := u.pos + 1 }
        (shiftIn_lt b hx (by omega)) (by omega) (by rw [h2]; omega)
      refine ⟨y, ?_, ?_, ?_⟩
      · simp only [buTake, h1, hy1]
        congr 3
        rw [BitVec.add_assoc]
        congr 1
        apply BitVec.eq_of_toNat_eq
        simp [BitVec.toNat_add]
        omega
      · rw [show k + (n + 1) = k + 1 + n by omega, hy2, lowBits_shiftIn x b k (by omega), h2]
        simp
      · rw [show k + (n + 1) = k + 1 + n by omega]
        exact hy3

end Sys2Proof.Machine
end

