-- ==== Sys2Proof/Laws/Loader.lean ====
section
/-! SUPPORT. Reading a tree description (45_tree_walker.md R225): the parse of a description gives a tree of its shape, and
whatever the parse accepts is the description of the tree it leaves, and it raises a fault where the description has its
first one. -/

namespace Sys2Proof.Machine

/-- The bits `w` holds for a parse can be read: the window lies within `IBUF` and the cursor within the window. -/
structure Readable (cap : Word) (w : InBuf) (u : Unpacker) : Prop where
  buf : InBufInv cap w
  fits : windowFits w = true
  pos : u.pos.toNat ≤ w.limit.toNat

theorem Readable.of_inv {cap : Word} {w : InBuf} {u : Unpacker} (hw : InBufInv cap w) (hu : UnpackerInv w u)
    (ho : u.isOpen = true) : Readable cap w u := ⟨hw, (hu.opened ho).2, (hu.opened ho).1⟩

/-- The cursor moved by `n` bits. -/
def Unpacker.advance (u : Unpacker) (n : Nat) : Unpacker := { u with pos := u.pos + BitVec.ofNat 64 n }

@[simp] theorem Unpacker.advance_zero (u : Unpacker) : u.advance 0 = u := by simp [Unpacker.advance]

@[simp] theorem Unpacker.advance_advance (u : Unpacker) (m n : Nat) : (u.advance m).advance n = u.advance (m + n) := by
  simp [Unpacker.advance, BitVec.add_assoc, BitVec.ofNat_add]

@[simp] theorem Unpacker.advance_isOpen (u : Unpacker) (n : Nat) : (u.advance n).isOpen = u.isOpen := rfl

@[simp] theorem Unpacker.advance_data (u : Unpacker) (n : Nat) : (u.advance n).data = u.data := rfl

/-- `bu_next` in terms of the bits left, one bit. -/
theorem buNext_unread {cap : Word} {w : InBuf} {u : Unpacker} (h : Readable cap w u) {b : Bool} {rest : Bits}
    (hb : unread w u = b :: rest) :
    buNext cap w u = .ok (some b, u.advance 1) ∧ unread w (u.advance 1) = rest ∧ Readable cap w (u.advance 1) := by
  obtain ⟨h1, h2, h3, h4⟩ := buNext_cons h.buf h.fits hb
  refine ⟨h1, h2, h.buf, h.fits, ?_⟩
  show (u.pos + 1).toNat ≤ _
  omega

/-- `bu_next` with no bits left. -/
theorem buNext_unread_nil {cap : Word} {w : InBuf} {u : Unpacker} (h : Readable cap w u) (hb : unread w u = []) :
    buNext cap w u = .ok (none, u) ∧ u.pos = w.limit := by
  have h1 := unread_nil.1 hb
  have h2 : u.pos = w.limit := BitVec.eq_of_toNat_eq (by have := h.pos; omega)
  exact ⟨buNext_eos h2, h2⟩

/-! ## Bits of the parse -/

theorem parseBit_cons {cap : Word} {w : InBuf} {p : Parse} (h : Readable cap w p.bu) {b : Bool} {rest : Bits}
    (hb : unread w p.bu = b :: rest) :
    parseBit cap w p = .ok (b, { p with bu := p.bu.advance 1 }) ∧ unread w (p.bu.advance 1) = rest ∧
      Readable cap w (p.bu.advance 1) := by
  obtain ⟨h1, h2, h3⟩ := buNext_unread h hb
  exact ⟨by simp only [parseBit, h1], h2, h3⟩

theorem parseBit_nil {cap : Word} {w : InBuf} {p : Parse} (h : Readable cap w p.bu) (hb : unread w p.bu = []) :
    parseBit cap w p = raise .fmtTreeTrunc w.limit := by
  obtain ⟨h1, h2⟩ := buNext_unread_nil h hb
  simp only [parseBit, h1, h2]

/-- Reading `n` bits of a symbol: they are shifted in behind the `k` bits read, or the stream is too short. -/
theorem parseSymBits_spec {cap : Word} {w : InBuf} (n k : Nat) (x : Sym) (p : Parse) (h : Readable cap w p.bu)
    (hk : k + n ≤ 8) :
    (n ≤ (unread w p.bu).length ∧ ∃ y : Sym, parseSymBits cap w n x p = .ok (y, { p with bu := p.bu.advance n }) ∧
        lowBits y (k + n) = lowBits x k ++ (unread w p.bu).take n ∧
        unread w (p.bu.advance n) = (unread w p.bu).drop n ∧ Readable cap w (p.bu.advance n)) ∨
      ((unread w p.bu).length < n ∧ parseSymBits cap w n x p = raise .fmtTreeTrunc w.limit) := by
  induction n generalizing k x p with
  | zero => exact .inl ⟨by omega, x, by simp [parseSymBits], by simp, by simp, by simpa using h⟩
  | succ n ih =>
    rcases hu : unread w p.bu with _ | ⟨b, rest⟩
    · right
      simp only [List.length_nil, parseSymBits, parseBit_nil h hu]
      exact ⟨by omega, rfl⟩
    · obtain ⟨h1, h2, h3⟩ := parseBit_cons h hu
      have := ih (k + 1) (shiftIn x b) { p with bu := p.bu.advance 1 } h3 (by omega)
      simp only [h2, Unpacker.advance_advance] at this
      rcases this with ⟨h4, y, h5, h6, h7, h8⟩ | ⟨h4, h5⟩
      · left
        simp only [List.length_cons, parseSymBits, h1]
        rw [show n + 1 = 1 + n by omega]
        refine ⟨by omega, y, h5, ?_, by rw [Nat.add_comm 1 n, List.drop_succ_cons, Nat.add_comm n 1]; exact h7, h8⟩
        rw [← Nat.add_assoc, h6, lowBits_shiftIn x b k (by omega), Nat.add_comm 1 n, List.take_succ_cons]
        simp
      · right
        simp only [List.length_cons, parseSymBits, h1]
        exact ⟨by omega, h5⟩

/-! ## What a parse leaves -/

/-- A parse from `p` to `q` has read the description of the tree `g`: the arena holds it, its internal nodes take the numbers
from `p.next` on in pre-order with weight 0, its symbols are seen, the cursor stands behind the description, and no other
entry has changed. -/
structure Parsed (cap : Word) (w : InBuf) (p q : Parse) (g : HTree) : Prop where
  held : g.heldIn q.nodes = true
  inner : g.inner.map BitVec.toNat = List.range' p.next g.inner.length
  next : q.next = p.next + g.inner.length
  seen : q.seen = g.leaves.reverse ++ p.seen
  bits : unread w p.bu = g.desc ++ unread w q.bu
  moved : q.bu = p.bu.advance g.desc.length
  readable : Readable cap w q.bu
  others : ∀ i, i.toNat < p.next ∨ q.next ≤ i.toNat → nodeGet q.nodes i = nodeGet p.nodes i
  weights : ∀ i, p.next ≤ i.toNat → i.toNat < q.next → (nodeGet q.nodes i).weight = 0

theorem Parsed.leaf {cap : Word} {w : InBuf} {p : Parse} {s : Sym} (hb : unread w p.bu = true :: symBits s ++ unread w (p.bu.advance 9))
    (hr : Readable cap w (p.bu.advance 9)) :
    Parsed cap w p { p with bu := p.bu.advance 9, seen := s :: p.seen } (.leaf s) where
  held := rfl
  inner := rfl
  next := rfl
  seen := rfl
  bits := hb
  moved := rfl
  readable := hr
  others := fun _ _ => rfl
  weights := fun i h1 h2 => absurd h2 (by simp only; omega)

/-- An internal node read: the marker, then the two subtrees, then its entry written (45_tree_walker.md R225). -/
theorem Parsed.node {cap : Word} {w : InBuf} {p q q' : Parse} {l r : HTree} (h1 : 256 ≤ p.next) (h2 : p.next ≤ 510)
    (hb : unread w p.bu = false :: unread w (p.bu.advance 1))
    (hl : Parsed cap w { p with bu := p.bu.advance 1, next := p.next + 1 } q l) (hr : Parsed cap w q q' r) :
    Parsed cap w p { q' with nodes := nodeSet q'.nodes (BitVec.ofNat 9 p.next) ⟨l.root, r.root, 0⟩ }
      (.node (BitVec.ofNat 9 p.next) l r) := by
  have hidx : (BitVec.ofNat 9 p.next).toNat = p.next := by
    simp
    omega
  have hint : isInternal (BitVec.ofNat 9 p.next) = true := isInternal_iff.2 (by omega)
  have hother : ∀ i : NodeIdx, i.toNat ≠ p.next →
      nodeGet (nodeSet q'.nodes (BitVec.ofNat 9 p.next) ⟨l.root, r.root, 0⟩) i = nodeGet q'.nodes i := fun i hi =>
    nodeGet_nodeSet_ne _ (fun e => hi (by rw [e, hidx])) _
  have hln := hl.next
  have hrn := hr.next
  simp only at hln
  have hmem : ∀ {a : Nat} {x : HTree} (_ : x.inner.map BitVec.toNat = List.range' a x.inner.length) {i : NodeIdx}
      (_ : i ∈ x.inner), a ≤ i.toNat ∧ i.toNat < a + x.inner.length := by
    intro a x hx i hi
    have h3 : i.toNat ∈ x.inner.map BitVec.toNat := List.mem_map_of_mem hi
    rw [hx, List.mem_range'_1] at h3
    exact h3
  have hkl : ∀ i ∈ l.inner, nodeGet (nodeSet q'.nodes (BitVec.ofNat 9 p.next) ⟨l.root, r.root, 0⟩) i =
      nodeGet q.nodes i := by
    intro i hi
    obtain ⟨h3, h4⟩ := hmem hl.inner hi
    simp only at h3 h4
    rw [hother i (by omega)]
    exact hr.others i (by omega)
  have hkr : ∀ i ∈ r.inner, nodeGet (nodeSet q'.nodes (BitVec.ofNat 9 p.next) ⟨l.root, r.root, 0⟩) i =
      nodeGet q'.nodes i := by
    intro i hi
    obtain ⟨h3, h4⟩ := hmem hr.inner hi
    exact hother i (by omega)
  exact {
    held := by
      refine HTree.heldIn_node.2 ⟨hint, ?_, ?_, HTree.heldIn_congr hl.held hkl, HTree.heldIn_congr hr.held hkr⟩ <;>
      rw [nodeGet_nodeSet_same _ hint]
    inner := by
      have h3 := hl.inner
      have h4 := hr.inner
      simp only at h3
      simp only [HTree.inner, List.map_cons, List.map_append, hidx, h3, h4, List.length_cons, List.length_append, hln]
      rw [List.range'_succ, List.range'_append_1]
    next := by
      simp only [HTree.inner, List.length_cons, List.length_append]
      omega
    seen := by
      simp [hr.seen, hl.seen, HTree.leaves]
    bits := by
      have h3 := hl.bits
      have h4 := hr.bits
      simp only at h3 ⊢
      rw [hb, h3, h4]
      simp [HTree.desc]
    moved := by
      have h3 := hl.moved
      have h4 := hr.moved
      simp only at h3 ⊢
      rw [h4, h3, Unpacker.advance_advance, Unpacker.advance_advance]
      congr 1
      simp only [HTree.desc, List.length_cons, List.length_append]
      omega
    readable := hr.readable
    others := by
      intro i hi
      simp only at hi ⊢
      rw [hother i (by omega), hr.others i (by omega), hl.others i (by simp only; omega)]
    weights := by
      intro i h3 h4
      simp only at h4 ⊢
      by_cases h5 : i.toNat = p.next
      · have : i = BitVec.ofNat 9 p.next := BitVec.eq_of_toNat_eq (by omega)
        rw [this, nodeGet_nodeSet_same _ hint]
      · rw [hother i h5]
        by_cases h6 : q.next ≤ i.toNat
        · exact hr.weights i h6 h4
        · rw [hr.others i (by omega)]
          exact hl.weights i (by simp only; omega) (by omega) }

/-! ## A leaf -/

/-- What the reading of a leaf answers: the leaf, or a symbol seen before, or the end of the stream. -/
theorem parseLeaf_spec {cap : Word} {w : InBuf} {p : Parse} (h : Readable cap w p.bu) :
    (∃ s, unread w p.bu = symBits s ++ unread w (p.bu.advance 8) ∧ Readable cap w (p.bu.advance 8) ∧
        parseLeaf cap w p = if s ∈ p.seen then raise .fmtTreeDup (p.bu.advance 8).pos
          else .ok (leafIdx s, { p with bu := p.bu.advance 8, seen := s :: p.seen })) ∨
      ((unread w p.bu).length < 8 ∧ parseLeaf cap w p = raise .fmtTreeTrunc w.limit) := by
  rcases parseSymBits_spec 8 0 0 p h (by omega) with ⟨-, y, h1, h2, h3, h4⟩ | ⟨h1, h2⟩
  · left
    refine ⟨y, ?_, h4, ?_⟩
    · have h5 : symBits y = (unread w p.bu).take 8 := by simpa [lowBits, symBits] using h2
      rw [h5, h3, List.take_append_drop]
    · unfold parseLeaf
      simp only [h1]
  · right
    refine ⟨h1, ?_⟩
    unfold parseLeaf
    simp only [h2]
    rfl

theorem parseNode_succ (cap : Word) (w : InBuf) (d : Nat) (p : Parse) :
    parseNode cap w (d + 1) p = match parseBit cap w p with
      | .error e => .error e
      | .ok (true, q) => parseLeaf cap w q
      | .ok (false, q) => parseInternal (parseNode cap w d) q := rfl

/-! ## A description is read as its tree -/

/-- The parse of a description over symbols not seen before (45_tree_walker.md R225, 30_encoding.md R122). -/
theorem parseNode_complete {cap : Word} {w : InBuf} (h : HTree) {p : Parse} {d : Nat} {rest : Bits}
    (hr : Readable cap w p.bu) (hb : unread w p.bu = h.desc ++ rest) (h1 : 256 ≤ p.next)
    (h2 : p.next + h.inner.length ≤ 511) (hd : h.inner.length < d) (hn : h.leaves.Nodup)
    (hs : ∀ s ∈ h.leaves, s ∉ p.seen) :
    ∃ g q, parseNode cap w d p = .ok (g.root, q) ∧ Parsed cap w p q g ∧ h.sameShape g = true ∧ g.leaves = h.leaves ∧
      unread w q.bu = rest := by
  induction h generalizing p d rest with
  | leaf s =>
    obtain ⟨d, rfl⟩ : ∃ k, d = k + 1 := ⟨d - 1, by omega⟩
    obtain ⟨h3, h4, h5⟩ := parseBit_cons hr hb
    have hlen : (symBits s).length = 8 := symBits_length s
    rcases parseLeaf_spec (p := { p with bu := p.bu.advance 1 }) h5 with ⟨y, h6, h7, h8⟩ | ⟨h6, -⟩
    · simp only [Unpacker.advance_advance, Nat.reduceAdd] at h6 h7 h8
      rw [h4] at h6
      obtain ⟨h9, h10⟩ := List.append_inj h6 (by simp)
      obtain rfl := symBits_inj h9
      have hns : s ∉ p.seen := hs s (by simp [HTree.leaves])
      refine ⟨.leaf s, _, ?_, Parsed.leaf (s := s) ?_ h7, by simp [HTree.sameShape], rfl, h10.symm⟩
      · simp only [parseNode, h3, h8, if_neg hns]
        rfl
      · rw [hb, ← h10]
        rfl
    · rw [h4] at h6
      simp at h6
  | node i l r ihl ihr =>
    simp only [HTree.inner, List.length_cons, List.length_append] at h2 hd
    simp only [HTree.leaves] at hn hs
    rw [List.nodup_append] at hn
    obtain ⟨d, rfl⟩ : ∃ k, d = k + 1 := ⟨d - 1, by omega⟩
    have hb' : unread w p.bu = false :: (l.desc ++ (r.desc ++ rest)) := by
      rw [hb]
      simp [HTree.desc]
    obtain ⟨h3, h4, h5⟩ := parseBit_cons hr hb'
    obtain ⟨gl, q, hl1, hl2, hl3, hl4, hl5⟩ := ihl (p := { p with bu := p.bu.advance 1, next := p.next + 1 }) (d := d)
      h5 h4 (by simp only; omega) (by simp only; omega) (by omega) hn.1 (fun s hm => hs s (by simp [hm]))
    have hlen : gl.inner.length = l.inner.length := by
      have := gl.leaves_length
      rw [hl4, l.leaves_length] at this
      omega
    have hqn := hl2.next
    simp only at hqn
    obtain ⟨gr, q', hr1, hr2, hr3, hr4, hr5⟩ := ihr (p := q) (d := d) hl2.readable hl5 (by omega) (by omega) (by omega)
      hn.2.1 (by
        intro s hm
        rw [hl2.seen, hl4]
        simp only [List.mem_append, List.mem_reverse, not_or]
        exact ⟨fun hm' => hn.2.2 s hm' s hm rfl, hs s (by simp [hm])⟩)
    refine ⟨.node (BitVec.ofNat 9 p.next) gl gr, _, ?_, Parsed.node h1 (by omega) ?_ hl2 hr2, ?_, ?_, hr5⟩
    · simp only [parseNode, h3, parseInternal]
      rw [if_neg (by omega)]
      simp only [hl1, hr1, HTree.root]
    · rw [hb', h4]
    · simp [HTree.sameShape, hl3, hr3]
    · simp [HTree.leaves, hl4, hr4]

/-- The parse of a description that carries a symbol twice, or one seen before (45_tree_walker.md R226). -/
theorem parseNode_dup {cap : Word} {w : InBuf} (h : HTree) {p : Parse} {d : Nat} {rest : Bits}
    (hr : Readable cap w p.bu) (hb : unread w p.bu = h.desc ++ rest) (h1 : 256 ≤ p.next)
    (h2 : p.next + h.inner.length ≤ 511) (hd : h.inner.length < d)
    (hs : ¬ (h.leaves.Nodup ∧ ∀ s ∈ h.leaves, s ∉ p.seen)) :
    ∃ pos, parseNode cap w d p = raise .fmtTreeDup pos := by
  induction h generalizing p d rest with
  | leaf s =>
    obtain ⟨d, rfl⟩ : ∃ k, d = k + 1 := ⟨d - 1, by omega⟩
    obtain ⟨h3, h4, h5⟩ := parseBit_cons hr hb
    rcases parseLeaf_spec (p := { p with bu := p.bu.advance 1 }) h5 with ⟨y, h6, h7, h8⟩ | ⟨h6, -⟩
    · simp only [Unpacker.advance_advance, Nat.reduceAdd] at h6 h7 h8
      rw [h4] at h6
      obtain ⟨h9, h10⟩ := List.append_inj h6 (by simp)
      obtain rfl := symBits_inj h9
      have hns : s ∈ p.seen := by
        by_contra hn
        exact hs ⟨by simp [HTree.leaves], by simpa [HTree.leaves] using hn⟩
      exact ⟨(p.bu.advance 9).pos, by simp only [parseNode, h3, h8, if_pos hns]⟩
    · rw [h4] at h6
      simp at h6
  | node i l r ihl ihr =>
    simp only [HTree.inner, List.length_cons, List.length_append] at h2 hd
    obtain ⟨d, rfl⟩ : ∃ k, d = k + 1 := ⟨d - 1, by omega⟩
    have hb' : unread w p.bu = false :: (l.desc ++ (r.desc ++ rest)) := by
      rw [hb]
      simp [HTree.desc]
    obtain ⟨h3, h4, h5⟩ := parseBit_cons hr hb'
    by_cases hl : l.leaves.Nodup ∧ ∀ s ∈ l.leaves, s ∉ p.seen
    · obtain ⟨gl, q, hl1, hl2, hl3, hl4, hl5⟩ := parseNode_complete l
        (p := { p with bu := p.bu.advance 1, next := p.next + 1 }) (d := d) h5 h4 (by simp only; omega)
        (by simp only; omega) (by omega) hl.1 hl.2
      have hlen : gl.inner.length = l.inner.length := by
        have := gl.leaves_length
        rw [hl4, l.leaves_length] at this
        omega
      have hqn := hl2.next
      simp only at hqn
      obtain ⟨pos, hp⟩ := ihr (p := q) (d := d) hl2.readable hl5 (by omega) (by omega) (by omega) (by
        rintro ⟨hr1, hr2⟩
        apply hs
        rw [hl2.seen, hl4] at hr2
        simp only [HTree.leaves]
        refine ⟨List.nodup_append.2 ⟨hl.1, hr1, ?_⟩, ?_⟩
        · rintro s hm s' hm' rfl
          have := hr2 s hm'
          simp [hm] at this
        · intro s hm
          rcases List.mem_append.1 hm with hm | hm
          · exact hl.2 s hm
          · have := hr2 s hm
            simp only [List.mem_append, not_or] at this
            exact this.2)
      refine ⟨pos, ?_⟩
      simp only [parseNode, h3, parseInternal]
      rw [if_neg (by omega)]
      simp only [hl1, hp]
      rfl
    · obtain ⟨pos, hp⟩ := ihl (p := { p with bu := p.bu.advance 1, next := p.next + 1 }) (d := d) h5 h4
        (by simp only; omega) (by simp only; omega) (by omega) hl
      refine ⟨pos, ?_⟩
      simp only [parseNode, h3, parseInternal]
      rw [if_neg (by omega)]
      simp only [hp]
      rfl

/-! ## Whatever is accepted is a tree, and every fault is where the description has it -/

/-- The error of a token that is a fault (45_tree_walker.md R226). -/
def faultOf : Token → ErrCode
  | .inner => .fmtTreeBig
  | .leaf _ => .fmtTreeDup

/-- The tokens that are a fault for a parse that has read `ts` since `p`. -/
def FaultyAt (p : Parse) (ts : List Token) : Token → Prop
  | .inner => p.next + tokenInner ts = 511
  | .leaf x => x ∈ p.seen ∨ x ∈ tokenLeaves ts

/-- The parse from `p` has read the tokens `ts` without a fault and without completing its node. -/
structure ReadsOpen (w : InBuf) (p : Parse) (ts : List Token) : Prop where
  isOpen : stillOpen 1 ts = true
  distinct : (tokenLeaves ts).Nodup
  fresh : ∀ s ∈ tokenLeaves ts, s ∉ p.seen
  room : p.next + tokenInner ts ≤ 511
  bits : tokenBits ts <+: unread w p.bu

/-- How a parse from `p` fails: behind tokens read without a fault either the stream ends, or a token is a fault and is read
to its end (45_tree_walker.md R226). -/
inductive LoadFault (w : InBuf) (p : Parse) : Stop → Prop
  | trunc {ts : List Token} {rest : Bits} (h : ReadsOpen w p ts) (hb : unread w p.bu = tokenBits ts ++ rest)
      (hn : ∀ t : Token, ¬ t.bits <+: rest) : LoadFault w p (.raise .fmtTreeTrunc w.limit)
  | fault {ts : List Token} {t : Token} (h : ReadsOpen w p ts) (hb : tokenBits (ts ++ [t]) <+: unread w p.bu)
      (hf : FaultyAt p ts t) :
      LoadFault w p (.raise (faultOf t) (p.bu.advance (tokenBits (ts ++ [t])).length).pos)

/-- The parse has read the tokens `us` from `p` to `q`, and its node is not complete. -/
structure ReadTo (w : InBuf) (p q : Parse) (us : List Token) : Prop where
  isOpen : ∀ ts, stillOpen 1 ts = true → stillOpen 1 (us ++ ts) = true
  next : q.next = p.next + tokenInner us
  seen : q.seen = (tokenLeaves us).reverse ++ p.seen
  bits : unread w p.bu = tokenBits us ++ unread w q.bu
  moved : q.bu = p.bu.advance (tokenBits us).length
  distinct : q.seen.Nodup

theorem ReadTo.readsOpen {w : InBuf} {p q : Parse} {us ts : List Token} (hr : ReadTo w p q us) (h : ReadsOpen w q ts) :
    ReadsOpen w p (us ++ ts) := by
  have hd := hr.distinct
  have hfr := h.fresh
  rw [hr.seen] at hd hfr
  rw [List.nodup_append] at hd
  simp only [List.mem_append, List.mem_reverse, not_or] at hfr
  refine ⟨hr.isOpen ts h.isOpen, ?_, ?_, ?_, ?_⟩
  · rw [tokenLeaves_append, List.nodup_append]
    refine ⟨List.nodup_reverse.1 hd.1, h.distinct, ?_⟩
    rintro s hs s' hs' rfl
    exact (hfr s hs').1 hs
  · intro s hs
    rw [tokenLeaves_append, List.mem_append] at hs
    rcases hs with hs | hs
    · exact fun hp => hd.2.2 s (by simpa using hs) s hp rfl
    · exact (hfr s hs).2
  · have h1 := h.room
    have h2 := hr.next
    rw [tokenInner_append]
    omega
  · rw [tokenBits_append, hr.bits, List.prefix_append_right_inj]
    exact h.bits

/-- A fault of a part of the parse is one of the whole. -/
theorem ReadTo.loadFault {w : InBuf} {p q : Parse} {us : List Token} {e : Stop} (hr : ReadTo w p q us)
    (h : LoadFault w q e) : LoadFault w p e := by
  cases h with
  | @trunc ts rest h hb hn =>
    exact .trunc (hr.readsOpen h) (by rw [hr.bits, hb, tokenBits_append, List.append_assoc]) hn
  | @fault ts t h hb hf =>
    have hpos : (q.bu.advance (tokenBits (ts ++ [t])).length).pos =
        (p.bu.advance (tokenBits (us ++ ts ++ [t])).length).pos := by
      rw [hr.moved, Unpacker.advance_advance, List.append_assoc us, tokenBits_append us, List.length_append]
    rw [hpos]
    refine .fault (hr.readsOpen h) ?_ ?_
    · rw [List.append_assoc, tokenBits_append, hr.bits, List.prefix_append_right_inj]
      exact hb
    · have h2 := hr.next
      cases t with
      | inner =>
        simp only [FaultyAt, tokenInner_append] at hf ⊢
        omega
      | leaf x =>
        simp only [FaultyAt, hr.seen, tokenLeaves_append, List.mem_append, List.mem_reverse] at hf ⊢
        tauto

/-- Nothing read yet. -/
theorem ReadsOpen.nil {w : InBuf} {p : Parse} (h2 : p.next ≤ 511) : ReadsOpen w p [] where
  isOpen := rfl
  distinct := List.nodup_nil
  fresh := by simp [tokenLeaves]
  room := h2
  bits := List.nil_prefix

/-- The marker of an internal node read. -/
theorem ReadTo.marker {w : InBuf} {p : Parse} (hb : unread w p.bu = false :: unread w (p.bu.advance 1)) (hn : p.seen.Nodup) :
    ReadTo w p { p with bu := p.bu.advance 1, next := p.next + 1 } [.inner] where
  isOpen := fun ts h => show stillOpen 2 ts = true from stillOpen_succ h
  next := rfl
  seen := rfl
  bits := hb
  moved := rfl
  distinct := hn

/-- The left subtree of an internal node read as well. -/
theorem ReadTo.left {cap : Word} {w : InBuf} {p q : Parse} {l : HTree}
    (hb : unread w p.bu = false :: unread w (p.bu.advance 1))
    (hl : Parsed cap w { p with bu := p.bu.advance 1, next := p.next + 1 } q l) (hn : q.seen.Nodup) :
    ReadTo w p q (.inner :: l.tokens) where
  isOpen := fun ts h => by
    rw [List.cons_append]
    exact (stillOpen_tokens l 1 ts).trans h
  next := by
    have := hl.next
    simp only [tokenInner, HTree.tokenInner_tokens] at this ⊢
    omega
  seen := by simpa [tokenLeaves, HTree.tokenLeaves_tokens] using hl.seen
  bits := by
    have := hl.bits
    simp only at this
    rw [hb, this, tokenBits_cons, HTree.tokenBits_tokens]
    rfl
  moved := by
    have := hl.moved
    simp only [Unpacker.advance_advance] at this
    rw [this, tokenBits_cons, HTree.tokenBits_tokens, List.length_append]
    rfl
  distinct := hn

/-- The outcomes of an internal node's parse, given those of its children's. -/
theorem parseInternal_sound {cap : Word} {w : InBuf} {p : Parse} {child : Parse → Cmd (NodeIdx × Parse)}
    (h1 : 256 ≤ p.next) (h2 : p.next ≤ 511) (hr : Readable cap w (p.bu.advance 1))
    (hb : unread w p.bu = false :: unread w (p.bu.advance 1))
    (hn : p.seen.Nodup)
    (hc : ∀ q : Parse, p.next < q.next → q.next ≤ 511 → Readable cap w q.bu → q.seen.Nodup →
      (∃ g q', child q = .ok (g.root, q') ∧ Parsed cap w q q' g ∧ q'.seen.Nodup ∧ q'.next ≤ 511) ∨
        ∃ e, child q = .error e ∧ LoadFault w q e) :
    (∃ g q', parseInternal child { p with bu := p.bu.advance 1 } = .ok (g.root, q') ∧ Parsed cap w p q' g ∧
        (∃ l r, g = .node (BitVec.ofNat 9 p.next) l r) ∧ q'.seen.Nodup ∧ q'.next ≤ 511) ∨
      ∃ e, parseInternal child { p with bu := p.bu.advance 1 } = .error e ∧ LoadFault w p e := by
  unfold parseInternal
  by_cases hbig : p.next > 510
  · right
    rw [if_pos hbig]
    refine ⟨_, rfl, .fault (ts := []) (t := .inner) (.nil h2) ?_ ?_⟩
    · rw [hb]
      simp [Token.bits]
    · simp only [FaultyAt, tokenInner]
      omega
  · rw [if_neg hbig]
    rcases hc { p with bu := p.bu.advance 1, next := p.next + 1 } (by simp only; omega) (by simp only; omega) hr hn with
      ⟨l, q, hl1, hl2, hl3, hl4⟩ | ⟨e, he, hf⟩
    · have hqn := hl2.next
      simp only at hqn
      simp only [hl1]
      rcases hc q (by omega) hl4 hl2.readable hl3 with ⟨r, q', hr1, hr2, hr3, hr4⟩ | ⟨e, he, hf⟩
      · left
        simp only [hr1]
        exact ⟨.node (BitVec.ofNat 9 p.next) l r, _, rfl, Parsed.node h1 (by omega) hb hl2 hr2, ⟨l, r, rfl⟩, hr3, hr4⟩
      · right
        simp only [he]
        exact ⟨e, rfl, (ReadTo.left hb hl2 hl3).loadFault hf⟩
    · right
      simp only [he]
      exact ⟨e, rfl, (ReadTo.marker hb hn).loadFault hf⟩

/-- Every outcome of the parse of a node: a tree whose description was read, over symbols not seen before, or one of the
faults of a description (45_tree_walker.md R225 to R227). -/
theorem parseNode_sound {cap : Word} {w : InBuf} (d : Nat) {p : Parse} (h1 : 256 ≤ p.next) (h2 : p.next ≤ 511)
    (hd : 512 ≤ d + p.next) (hr : Readable cap w p.bu) (hn : p.seen.Nodup) :
    (∃ g q', parseNode cap w d p = .ok (g.root, q') ∧ Parsed cap w p q' g ∧ q'.seen.Nodup ∧ q'.next ≤ 511) ∨
      ∃ e, parseNode cap w d p = .error e ∧ LoadFault w p e := by
  induction d generalizing p with
  | zero => omega
  | succ d ih =>
    rcases hu : unread w p.bu with _ | ⟨b, rest⟩
    · right
      simp only [parseNode, parseBit_nil hr hu]
      refine ⟨_, rfl, .trunc (rest := []) (.nil h2) hu fun t ht => ?_⟩
      have := t.bits_length_pos
      simp [List.prefix_nil.1 ht] at this
    · obtain ⟨h3, h4, h5⟩ := parseBit_cons hr hu
      simp only [parseNode, h3]
      cases b
      · rcases parseInternal_sound (p := p) (child := parseNode cap w d) h1 h2 h5 (by rw [hu, h4]) hn
          (fun q hq1 hq2 hq3 hq4 => ih (by omega) hq2 (by omega) hq3 hq4) with
          ⟨g, q', hg1, hg2, -, hg3, hg4⟩ | he
        · exact .inl ⟨g, q', hg1, hg2, hg3, hg4⟩
        · exact .inr he
      · rcases parseLeaf_spec (p := { p with bu := p.bu.advance 1 }) h5 with ⟨s, h6, h7, h8⟩ | ⟨h6, h7⟩
        · simp only [Unpacker.advance_advance, Nat.reduceAdd] at h6 h7 h8
          have hleaf : unread w p.bu = true :: symBits s ++ unread w (p.bu.advance 9) := by
            rw [hu, ← h4, h6]
            rfl
          simp only [h8]
          split
          · rename_i hs
            refine .inr ⟨_, rfl, ?_⟩
            have hf := LoadFault.fault (w := w) (ts := []) (t := .leaf s) (.nil h2)
              (by rw [hleaf]; simp [Token.bits]) (.inl hs : FaultyAt p [] (.leaf s))
            simpa [Token.bits, faultOf] using hf
          · rename_i hs
            left
            exact ⟨.leaf s, _, rfl, Parsed.leaf hleaf h7, List.nodup_cons.2 ⟨hs, hn⟩, h2⟩
        · right
          simp only [h7]
          refine ⟨_, rfl, .trunc (rest := unread w p.bu) (.nil h2) rfl fun t ht => ?_⟩
          simp only at h6
          rw [h4] at h6
          rw [hu] at ht
          cases t with
          | inner => simp [Token.bits] at ht
          | leaf s =>
            have := ht.length_le
            simp [Token.bits] at this
            omega

/-- A parse from an empty arena as node 256 leaves a general tree (10_state.md R49 (c)). -/
theorem Parsed.general {cap : Word} {w : InBuf} {u : Unpacker} {q : Parse} {l r : HTree}
    (h : Parsed cap w ⟨u, 256, [], clearNodes⟩ q (.node (BitVec.ofNat 9 256) l r)) (hn : q.seen.Nodup) :
    GeneralTree ⟨q.nodes, BitVec.ofNat 9 q.seen.length, 256, .general, 0, true⟩ (.node (BitVec.ofNat 9 256) l r) := by
  have hseen := h.seen
  have hnext := h.next
  have hinn := h.inner
  simp only [List.append_nil] at hseen hnext hinn
  generalize hg : HTree.node (BitVec.ofNat 9 256) l r = g at *
  have hleaves : g.leaves.Nodup := by
    rw [hseen] at hn
    exact List.nodup_reverse.1 hn
  have hlen : q.seen.length = g.leaves.length := by rw [hseen, List.length_reverse]
  have hle := nodup_syms_length hleaves
  have hli := g.leaves_length
  have hk : (BitVec.ofNat 9 q.seen.length).toNat = g.leaves.length := by
    simp
    omega
  have hmem : ∀ i : NodeIdx, i ∈ g.inner ↔ 256 ≤ i.toNat ∧ i.toNat ≤ 254 + g.leaves.length := by
    intro i
    have h1 : i ∈ g.inner ↔ i.toNat ∈ g.inner.map BitVec.toNat := by
      rw [List.mem_map]
      constructor
      · exact fun hi => ⟨i, hi, rfl⟩
      · rintro ⟨j, hj, hij⟩
        rwa [← BitVec.eq_of_toNat_eq hij]
    rw [h1, hinn, List.mem_range'_1]
    omega
  exact {
    root := by rw [← hg]; rfl
    rootInternal := by
      show isInternal 256#9 = true
      decide
    held := h.held
    leavesOnce := hleaves
    innerOnce := List.Nodup.of_map BitVec.toNat (by rw [hinn]; exact List.nodup_range')
    count := hk.symm
    inner := fun i => by rw [hk]; exact hmem i
    others := fun i hi => by
      rw [hmem] at hi
      rw [show nodeGet q.nodes i = nodeGet clearNodes i from h.others i (by simp only; omega), nodeGet_clearNodes] }

/-- The weights of a parse from an empty arena are all 0. -/
theorem Parsed.weight_zero {cap : Word} {w : InBuf} {u : Unpacker} {q : Parse} {g : HTree}
    (h : Parsed cap w ⟨u, 256, [], clearNodes⟩ q g) (i : NodeIdx) : (nodeGet q.nodes i).weight = 0 := by
  by_cases hi : 256 ≤ i.toNat ∧ i.toNat < q.next
  · exact h.weights i hi.1 hi.2
  · rw [show nodeGet q.nodes i = nodeGet clearNodes i from h.others i (by simp only; omega), nodeGet_clearNodes]
    rfl

/-- How the load of a tree from the cursor `u` fails (45_tree_walker.md R226). -/
inductive LoadError (w : InBuf) (u : Unpacker) : Stop → Prop
  | trunc {ts : List Token} {rest : Bits} (hd : (tokenLeaves ts).Nodup) (hi : tokenInner ts ≤ 255)
      (hb : unread w u = tokenBits ts ++ rest) (hn : ∀ t : Token, ¬ t.bits <+: rest) :
      LoadError w u (.raise .fmtTreeTrunc w.limit)
  | rootleaf (h : (unread w u).head? = some true) : LoadError w u (.raise .fmtTreeRootleaf (u.pos + 1))
  | fault {ts : List Token} {t : Token} (h : FaultFree ts) (hf : Faulty ts t)
      (hb : tokenBits (ts ++ [t]) <+: unread w u) :
      LoadError w u (.raise (faultOf t) (u.pos + BitVec.ofNat 64 (tokenBits (ts ++ [t])).length))

/-- A fault of the parse from the start, the first marker 0. -/
theorem LoadFault.loadError {w : InBuf} {u : Unpacker} {e : Stop} {rest : Bits}
    (h : LoadFault w ⟨u, 256, [], clearNodes⟩ e) (hu : unread w u = false :: rest) : LoadError w u e := by
  cases h with
  | trunc h hb hn =>
    have := h.room
    exact .trunc h.distinct (by simp only at this; omega) hb hn
  | @fault ts t h hb hf =>
    have hroom := h.room
    simp only at hroom hb
    have hfy : Faulty ts t := by
      cases t with
      | inner =>
        simp only [FaultyAt] at hf
        simp only [Faulty]
        omega
      | leaf x => simpa [FaultyAt, Faulty] using hf
    refine .fault ⟨?_, h.isOpen, h.distinct, by omega⟩ hfy hb
    have hbits := h.bits
    cases ts with
    | nil => cases t <;> simp [Faulty, tokenInner, tokenLeaves] at hfy
    | cons x xs =>
      simp only [hu, tokenBits_cons] at hbits
      rw [Token.bits_inj (a := x) (b := .inner) ((List.prefix_append _ _).trans hbits) (by simp [Token.bits])]
      rfl

/-- Every outcome of the load of a tree (45_tree_walker.md R225 to R227). -/
theorem loadTree_sound {cap : Word} {w : InBuf} {u : Unpacker} (hr : Readable cap w u) :
    (∃ t g, loadTree cap w u = .ok (t, u.advance g.desc.length) ∧ GeneralTree t g ∧ t.mode = .general ∧ t.valid = true ∧
        Readable cap w (u.advance g.desc.length) ∧ g.desc <+: unread w u) ∨
      ∃ e, loadTree cap w u = .error e ∧ LoadError w u e := by
  unfold loadTree
  rcases hu : unread w u with _ | ⟨b, rest⟩
  · right
    rw [parseBit_nil (p := ⟨u, 256, [], clearNodes⟩) hr hu]
    refine ⟨_, rfl, .trunc (ts := []) (rest := []) List.nodup_nil (by simp [tokenInner]) hu fun t ht => ?_⟩
    have := t.bits_length_pos
    simp [List.prefix_nil.1 ht] at this
  · obtain ⟨h3, h4, h5⟩ := parseBit_cons (p := ⟨u, 256, [], clearNodes⟩) hr hu
    rw [h3]
    cases b
    · simp only
      rcases parseInternal_sound (p := ⟨u, 256, [], clearNodes⟩) (child := parseNode cap w 256) (by simp) (by simp) h5
        (by simp only at h4 ⊢; rw [hu, h4]) List.nodup_nil
        (fun q hq1 hq2 hq3 hq4 => parseNode_sound 256 (by simp only at hq1; omega) hq2 (by simp only at hq1; omega) hq3 hq4) with
        ⟨g, q, hg1, hg2, ⟨l, r, rfl⟩, hg3, -⟩ | ⟨e, he, hf⟩
      · left
        simp only at hg1
        simp only [hg1]
        have hm := hg2.moved
        simp only at hm
        exact ⟨_, _, by rw [hm], hg2.general hg3, rfl, rfl, hm ▸ hg2.readable, ⟨_, hg2.bits.symm.trans hu⟩⟩
      · right
        simp only at he
        simp only [he]
        exact ⟨e, rfl, hf.loadError hu⟩
    · right
      exact ⟨_, rfl, .rootleaf (by simp [hu])⟩

/-- A fault behind a fault-free beginning is what the load raises, there (45_tree_walker.md R226). -/
theorem loadTree_fault {cap : Word} {w : InBuf} {u : Unpacker} (hr : Readable cap w u) {ts : List Token} {t : Token}
    (h : FaultFree ts) (hf : Faulty ts t) (hb : tokenBits (ts ++ [t]) <+: unread w u) :
    loadTree cap w u = raise (faultOf t) (u.pos + BitVec.ofNat 64 (tokenBits (ts ++ [t])).length) := by
  rcases loadTree_sound hr with ⟨tree, g, -, hg, -, -, -, hp⟩ | ⟨e, he, hle⟩
  · exfalso
    rw [← g.tokenBits_tokens] at hp
    have hgi := g.tokenInner_tokens
    have hle := nodup_syms_length hg.leavesOnce
    have hli := g.leaves_length
    have hn := hf.not_prefix (us := g.tokens) (by rw [g.tokenLeaves_tokens]; exact hg.leavesOnce) (by omega)
    rcases tokens_comparable hp hb with hc | hc
    · rcases List.prefix_concat_iff.1 hc with hc | hc
      · exact hn (hc ▸ List.prefix_rfl)
      · have := not_stillOpen_tokens g hc
        simp [h.isOpen] at this
    · exact hn hc
  · rw [he]
    cases hle with
    | @trunc us rest hd hi hu hno =>
      exfalso
      have hn := hf.not_prefix hd hi
      rcases tokens_comparable (us := us) hb (by rw [hu]; exact List.prefix_append _ _) with hc | hc
      · exact hn hc
      · obtain ⟨v, hv⟩ := token_of_longer (hu ▸ hb) hc (fun e => hn (e ▸ List.prefix_rfl))
        exact hno v hv
    | rootleaf hh =>
      exfalso
      obtain ⟨rest, hrest⟩ := hb
      cases ts with
      | nil => exact absurd h.first (by simp)
      | cons x xs =>
        have hx := h.first
        simp only [List.head?_cons, Option.some.injEq] at hx
        simp [← hrest, hx, Token.bits] at hh
    | @fault us v h' hf' hb' =>
      rcases tokens_comparable hb hb' with hc | hc
      · obtain ⟨rfl, rfl⟩ := hf.unique h'.distinct h'.inner hc
        rfl
      · obtain ⟨rfl, rfl⟩ := hf'.unique h.distinct h.inner hc
        rfl

/-- The load of the description of a tree over distinct symbols (45_tree_walker.md R225, 30_encoding.md R122). -/
theorem loadTree_complete {cap : Word} {w : InBuf} {u : Unpacker} {i : NodeIdx} {l r : HTree} (hr : Readable cap w u)
    (hn : (HTree.node i l r).leaves.Nodup) (hp : (HTree.node i l r).desc <+: unread w u) :
    ∃ t g, loadTree cap w u = .ok (t, u.advance (HTree.node i l r).desc.length) ∧ GeneralTree t g ∧
      (HTree.node i l r).sameShape g = true ∧ t.root = 256 ∧ t.mode = .general ∧ t.valid = true ∧ t.singleSym = 0 ∧
      g.inner.map BitVec.toNat = List.range' 256 (t.k.toNat - 1) ∧ ∀ n, (nodeGet t.nodes n).weight = 0 := by
  obtain ⟨rest, hb⟩ := hp
  have hle := nodup_syms_length hn
  have hli := (HTree.node i l r).leaves_length
  have hdl := (HTree.node i l r).desc_length
  simp only [HTree.inner, List.length_cons, List.length_append] at hli
  simp only [HTree.leaves] at hn
  rw [List.nodup_append] at hn
  have hb' : unread w u = false :: (l.desc ++ (r.desc ++ rest)) := by
    rw [← hb]
    simp [HTree.desc]
  obtain ⟨h3, h4, h5⟩ := parseBit_cons (p := ⟨u, 256, [], clearNodes⟩) hr hb'
  obtain ⟨gl, q, hl1, hl2, hl3, hl4, hl5⟩ := parseNode_complete l (p := ⟨u.advance 1, 257, [], clearNodes⟩) (d := 256)
    h5 h4 (by simp) (by simp only; omega) (by omega) hn.1 (by simp)
  have hlen : gl.inner.length = l.inner.length := by
    have := gl.leaves_length
    rw [hl4, l.leaves_length] at this
    omega
  have hqn := hl2.next
  simp only at hqn
  obtain ⟨gr, q', hr1, hr2, hr3, hr4, hr5⟩ := parseNode_complete r (p := q) (d := 256) hl2.readable hl5 (by omega)
    (by omega) (by omega) hn.2.1 (by
      intro s hm
      rw [hl2.seen, hl4]
      simp only [List.append_nil, List.mem_reverse]
      exact fun hm' => hn.2.2 s hm' s hm rfl)
  have hP := Parsed.node (p := ⟨u, 256, [], clearNodes⟩) (by simp) (by simp) (by simp only at h4 ⊢; rw [hb', h4]) hl2 hr2
  have hleaves : (HTree.node (BitVec.ofNat 9 256) gl gr).leaves = (HTree.node i l r).leaves := by
    simp [HTree.leaves, hl4, hr4]
  have hseen := hP.seen
  rw [hleaves] at hseen
  simp only [List.append_nil] at hseen
  have hG := hP.general (by
    rw [hseen, List.nodup_reverse]
    simp only [HTree.leaves]
    exact List.nodup_append.2 hn)
  refine ⟨_, _, ?_, hG, by simp [HTree.sameShape, hl3, hr3], rfl, rfl, rfl, rfl, ?_, hP.weight_zero⟩
  · unfold loadTree
    simp only [h3, parseInternal]
    rw [if_neg (by omega)]
    simp only [hl1, hr1]
    congr 2
    have hm := hP.moved
    simp only at hm
    rw [hm]
    have := (HTree.node (BitVec.ofNat 9 256) gl gr).desc_length
    rw [hleaves] at this
    congr 1
    omega
  · rw [hP.inner, ← hG.count, HTree.leaves_length]
    rfl

/-- The load of a description that carries a symbol twice (45_tree_walker.md R226). -/
theorem loadTree_dup {cap : Word} {w : InBuf} {u : Unpacker} {i : NodeIdx} {l r : HTree} (hr : Readable cap w u)
    (hn : ¬ (HTree.node i l r).leaves.Nodup) (hle : (HTree.node i l r).leaves.length ≤ 256)
    (hp : (HTree.node i l r).desc <+: unread w u) :
    ∃ ts x, tokenBits (ts ++ [.leaf x]) <+: (HTree.node i l r).desc ∧ x ∈ tokenLeaves ts ∧
      loadTree cap w u = raise .fmtTreeDup (u.pos + BitVec.ofNat 64 (tokenBits (ts ++ [.leaf x])).length) := by
  have hp0 := hp
  obtain ⟨rest, hb⟩ := hp
  have hli := (HTree.node i l r).leaves_length
  simp only [HTree.inner, List.length_cons, List.length_append] at hli
  have hb0 := hb
  have hb' : unread w u = false :: (l.desc ++ (r.desc ++ rest)) := by
    rw [← hb]
    simp [HTree.desc]
  obtain ⟨pos, h1⟩ := parseNode_dup (.node i l r) (p := ⟨u, 256, [], clearNodes⟩) (d := 256 + 1) hr hb0.symm (by simp)
    (by simp only [HTree.inner, List.length_cons, List.length_append]; omega)
    (by simp only [HTree.inner, List.length_cons, List.length_append]; omega) (fun h => hn h.1)
  obtain ⟨h3, -, -⟩ := parseBit_cons (p := ⟨u, 256, [], clearNodes⟩) hr hb'
  have hraise : loadTree cap w u = raise .fmtTreeDup pos := by
    rw [parseNode_succ, h3] at h1
    unfold loadTree
    simp only [h3, h1]
    rfl
  rcases loadTree_sound hr with ⟨tree, g, h2, -⟩ | ⟨e, h2, hle⟩
  · simp [hraise, raise] at h2
  rw [hraise] at h2
  simp only [raise, Except.error.injEq] at h2
  subst h2
  generalize hs : Stop.raise .fmtTreeDup pos = e at hle
  cases hle with
  | trunc => simp at hs
  | rootleaf => simp at hs
  | @fault ts t h hf hb'' =>
    cases t with
    | inner => simp [faultOf] at hs
    | leaf x =>
      simp only [Stop.raise.injEq, faultOf, true_and] at hs
      refine ⟨ts, x, ?_, hf, by rw [hraise, hs]⟩
      rw [← HTree.tokenBits_tokens] at hp0 ⊢
      rcases tokens_comparable hb'' hp0 with ⟨vs, hc⟩ | hc
      · rw [← hc, tokenBits_append _ vs]
        exact List.prefix_append _ _
      · rcases List.prefix_concat_iff.1 hc with hc | hc
        · rw [hc]
        · have := not_stillOpen_tokens _ hc
          simp [h.isOpen] at this

end Sys2Proof.Machine
end

