-- ==== Sys2Proof/Laws/Packer.lean ====
section
/-! SUPPORT. The bit packer's invariant (10_state.md R49 (g)) and its stream: what one bit, a string of bits and a flush do
to them, and when `OBUF` is full (43_bit_packer.md R181, R184, R187). -/

namespace Sys2Proof.Machine

/-! ## append -/

theorem append_ok {full : ErrCode} {cap : Word} {buf : List Byte} {v : Byte} (h : buf.length ≠ cap.toNat) :
    append full cap buf v = .ok (buf ++ [v]) := by
  simp [append, h]

theorem append_full {full : ErrCode} {cap : Word} {buf : List Byte} {v : Byte} (h : buf.length = cap.toNat) :
    append full cap buf v = raise full (cap.setWidth 64) := by
  simp [append, h]

/-! ## The stream -/

/-- An open packer's stream has `BP_BITCNT` bits (43_bit_packer.md R185). -/
theorem Packer.stream_length {cap : Word} {p : Packer} (h : PackerInv cap p) (ho : p.isOpen = true) :
    p.stream.length = p.bitcnt.toNat := by
  have := (h.opened ho).1
  simp [Packer.stream]
  omega

/-- A full accumulator's bits are the bits it had and the new one. -/
theorem take_lowBits_setBit (acc : Byte) (k : Nat) (b : Bool) (hk : k < 8) :
    (lowBits (setBit acc (7 - k) b) 8).take (k + 1) = (lowBits acc 8).take k ++ [b] := by
  apply List.ext_getElem
  · simp
    omega
  · intro i h1 h2
    simp only [List.length_take, lowBits_length] at h1
    rw [List.getElem_take, lowBits_getElem, setBit_getLsbD _ _ _ _ (by omega)]
    by_cases hi : i < k
    · rw [if_neg (by omega), List.getElem_append_left (by simp; omega), List.getElem_take, lowBits_getElem]
    · rw [if_pos (by omega), List.getElem_append_right (by simp; omega)]
      simp

/-- `bp_put` with room for the bit (43_bit_packer.md R181): the stream grows by the bit, the invariant stays. -/
theorem bpPut_ok {cap : Word} {p : Packer} (h : PackerInv cap p) (ho : p.isOpen = true) (b : Bool)
    (hc : (p.bitcnt.toNat + 1) / 8 ≤ cap.toNat) :
    ∃ q, bpPut cap p b = .ok q ∧ PackerInv cap q ∧ q.isOpen = true ∧ q.stream = p.stream ++ [b] ∧
      q.bitcnt.toNat = p.bitcnt.toNat + 1 := by
  have ⟨hlen, hacc⟩ := h.opened ho
  have hcap := cap.isLt
  have hfit := h.fits
  have hcnt : (p.bitcnt + 1).toNat = p.bitcnt.toNat + 1 := by
    rw [BitVec.toNat_add]
    simp
    omega
  have hk : p.bitcnt.toNat % 8 < 8 := Nat.mod_lt _ (by omega)
  have htake := take_lowBits_setBit p.acc (p.bitcnt.toNat % 8) b hk
  unfold bpPut
  simp only [hcnt]
  split
  · rename_i h8
    rw [append_ok (by omega)]
    refine ⟨_, rfl, ⟨fun _ => ⟨?_, fun j _ => by simp⟩, fun hf => ?_, ?_⟩, ho, ?_, hcnt⟩
    · simp [hlen]
      omega
    · exact absurd hf (by simp [ho])
    · simp [hlen]
      omega
    · have h7 : p.bitcnt.toNat % 8 = 7 := by omega
      rw [h7] at htake
      simp only [Packer.stream, hcnt, h8, List.take_zero, List.append_nil, bytesBits_append, bytesBits_singleton,
        List.append_assoc]
      rw [h7, ← htake, List.take_of_length_le (by simp)]
  · rename_i h8
    refine ⟨_, rfl, ⟨fun _ => ⟨?_, fun j hj => ?_⟩, fun hf => ?_, hfit⟩, ho, ?_, hcnt⟩
    · simp only [hlen, hcnt]
      omega
    · simp only [hcnt] at hj ⊢
      rw [setBit_getLsbD _ _ _ _ (by omega), if_neg (by omega)]
      exact hacc j (by omega)
    · exact absurd hf (by simp [ho])
    · simp only [Packer.stream, hcnt, List.append_assoc]
      rw [show (p.bitcnt.toNat + 1) % 8 = p.bitcnt.toNat % 8 + 1 by omega, htake]

/-- `bp_put` of the bit that completes a byte `OBUF` has no room for (20_memory.md R76, 43_bit_packer.md R187). -/
theorem bpPut_full {cap : Word} {p : Packer} (h : PackerInv cap p) (ho : p.isOpen = true) (b : Bool)
    (hc : cap.toNat < (p.bitcnt.toNat + 1) / 8) : bpPut cap p b = raise .obufFull (cap.setWidth 64) := by
  obtain ⟨hlen, -⟩ := h.opened ho
  have hfit := h.fits
  have hcap := cap.isLt
  have hcnt : (p.bitcnt + 1).toNat = p.bitcnt.toNat + 1 := by
    rw [BitVec.toNat_add]
    simp
    omega
  unfold bpPut
  simp only [hcnt]
  rw [if_pos (by omega), append_full (by omega)]
  rfl

/-- A string of bits with room for it: the stream grows by the string. -/
theorem bpPutAll_ok {cap : Word} (bs : Bits) {p : Packer} (h : PackerInv cap p) (ho : p.isOpen = true)
    (hc : (p.bitcnt.toNat + bs.length) / 8 ≤ cap.toNat) :
    ∃ q, bpPutAll cap p bs = .ok q ∧ PackerInv cap q ∧ q.isOpen = true ∧ q.stream = p.stream ++ bs ∧
      q.bitcnt.toNat = p.bitcnt.toNat + bs.length := by
  induction bs generalizing p with
  | nil => exact ⟨p, rfl, h, ho, by simp, by simp⟩
  | cons b bs ih =>
    simp only [List.length_cons] at hc
    obtain ⟨q, hq, hqi, hqo, hqs, hqc⟩ := bpPut_ok h ho b (by omega)
    obtain ⟨r, hr, hri, hro, hrs, hrc⟩ := ih hqi hqo (by omega)
    refine ⟨r, by simp [bpPutAll, hq, hr], hri, hro, by simp [hrs, hqs], ?_⟩
    simp only [hrc, hqc, List.length_cons]
    omega

/-- A string of bits without room for it raises `OBUF_FULL` with the capacity. -/
theorem bpPutAll_full {cap : Word} (bs : Bits) {p : Packer} (h : PackerInv cap p) (ho : p.isOpen = true)
    (hc : cap.toNat < (p.bitcnt.toNat + bs.length) / 8) :
    bpPutAll cap p bs = raise .obufFull (cap.setWidth 64) := by
  induction bs generalizing p with
  | nil =>
    have := (h.opened ho).1
    have := h.fits
    simp only [List.length_nil] at hc
    omega
  | cons b bs ih =>
    simp only [List.length_cons] at hc
    by_cases h1 : (p.bitcnt.toNat + 1) / 8 ≤ cap.toNat
    · obtain ⟨q, hq, hqi, hqo, -, hqc⟩ := bpPut_ok h ho b h1
      simp only [bpPutAll, hq]
      exact ih hqi hqo (by omega)
    · simp only [bpPutAll, bpPut_full h ho b (by omega)]
      rfl

/-- A string of bits either goes in whole or raises `OBUF_FULL`. -/
theorem bpPutAll_cases {cap : Word} (bs : Bits) {p : Packer} (h : PackerInv cap p) (ho : p.isOpen = true) :
    (∃ q, bpPutAll cap p bs = .ok q ∧ PackerInv cap q) ∨ bpPutAll cap p bs = raise .obufFull (cap.setWidth 64) := by
  by_cases hc : (p.bitcnt.toNat + bs.length) / 8 ≤ cap.toNat
  · obtain ⟨q, hq, hqi, -⟩ := bpPutAll_ok bs h ho hc
    exact .inl ⟨q, hq, hqi⟩
  · exact .inr (bpPutAll_full bs h ho (by omega))

/-! ## Flush -/

/-- The bits of a partial byte below the significant ones are zero. -/
theorem lowBits_eq_take_append_zeros (acc : Byte) (k : Nat) (hk : k ≤ 8) (h : ∀ j, j < 8 - k → acc.getLsbD j = false) :
    lowBits acc 8 = (lowBits acc 8).take k ++ List.replicate (8 - k) false := by
  apply List.ext_getElem
  · simp
    omega
  · intro i h1 h2
    rw [List.getElem_append]
    split
    · rw [List.getElem_take]
    · rename_i hi
      simp only [List.length_take, lowBits_length] at hi h1
      rw [lowBits_getElem, List.getElem_replicate]
      exact h _ (by omega)

/-- `BP_FLUSH` on the packer, with room for the partial byte (43_bit_packer.md R184). -/
theorem bpFlush_ok {cap : Word} {p : Packer} (h : PackerInv cap p) (ho : p.isOpen = true)
    (hc : (p.bitcnt.toNat + 7) / 8 ≤ cap.toNat) :
    ∃ bytes, bpFlush cap p = .ok ⟨false, 0, p.bitcnt, bytes⟩ ∧ PackerInv cap ⟨false, 0, p.bitcnt, bytes⟩ ∧
      bytes.length = (p.bitcnt.toNat + 7) / 8 ∧
      ∃ pad, bytesBits bytes = p.stream ++ List.replicate pad false ∧ pad < 8 := by
  have ⟨hlen, hacc⟩ := h.opened ho
  unfold bpFlush
  split
  · rename_i h8
    have ha : p.acc = 0 := by
      apply BitVec.eq_of_getLsbD_eq
      intro i hi
      simpa using hacc i (by omega)
    refine ⟨p.obuf, ?_, ⟨nofun, fun _ => ⟨?_, rfl⟩, h.fits⟩, by omega, 0, ?_, by omega⟩
    · simp [ha]
    · simp only
      omega
    · simp [Packer.stream, h8]
  · rename_i h8
    rw [append_ok (by omega)]
    refine ⟨p.obuf ++ [p.acc], rfl, ⟨nofun, fun _ => ⟨?_, rfl⟩, ?_⟩, ?_, 8 - p.bitcnt.toNat % 8, ?_, by omega⟩
    · simp [hlen]
      omega
    · simp [hlen]
      omega
    · simp [hlen]
      omega
    · have hz := lowBits_eq_take_append_zeros p.acc (p.bitcnt.toNat % 8) (by omega) hacc
      simp only [bytesBits_append, bytesBits_singleton, Packer.stream, List.append_assoc]
      rw [← hz]

/-- `BP_FLUSH` without room for the partial byte (43_bit_packer.md R184, R187). -/
theorem bpFlush_full {cap : Word} {p : Packer} (h : PackerInv cap p) (ho : p.isOpen = true)
    (hc : cap.toNat < (p.bitcnt.toNat + 7) / 8) : bpFlush cap p = raise .obufFull (cap.setWidth 64) := by
  obtain ⟨hlen, -⟩ := h.opened ho
  have := h.fits
  unfold bpFlush
  rw [if_neg (by omega), append_full (by omega)]
  rfl

end Sys2Proof.Machine
end

