-- ==== Sys2Proof/Laws/Walker.lean ====
section
/-! SUPPORT. The walk (45_tree_walker.md R231 to R237): every outcome of one step, what the loop does with the code of a
symbol and with a whole payload, and that it always ends. -/

namespace Sys2Proof.Machine

/-! ## Emitting and finishing -/

theorem Walker.finish_eq (origLen : Len) (k : Walker) (h : k.done = false) :
    k.finish origLen = { k with done := k.count == origLen } := by
  unfold Walker.finish
  split
  · rename_i he
    simp [he]
  · rename_i he
    rw [beq_eq_false_iff_ne.2 he, ← h]

theorem Walker.emit_ok {cap : Word} {v : Byte} {k : Walker} (h : k.sout.length ≠ cap.toNat) :
    k.emit cap v = .ok { k with sout := k.sout ++ [v], count := k.count + 1 } := by
  simp only [Walker.emit, append_ok h]

theorem Walker.emit_full {cap : Word} {v : Byte} {k : Walker} (h : k.sout.length = cap.toNat) :
    k.emit cap v = raise .soutFull (cap.setWidth 64) := by
  simp only [Walker.emit, append_full h]
  rfl

/-! ## One step -/

/-- A step in single-symbol mode (45_tree_walker.md R231, R235). -/
theorem twStep_single {caps : Caps} {w : InBuf} {t : Tree} {origLen : Len} {u : Unpacker} {k : Walker}
    (hm : t.mode = .single) (hd : k.done = false) :
    twStep caps w t origLen u k =
      if k.sout.length = caps.sout.toNat then raise .soutFull (caps.sout.setWidth 64)
      else .ok (u, { k with sout := k.sout ++ [t.singleSym], count := k.count + 1, done := k.count + 1 == origLen }) := by
  unfold twStep
  rw [if_pos hm]
  by_cases h : k.sout.length = caps.sout.toNat
  · rw [if_pos h, Walker.emit_full h]
    rfl
  · rw [if_neg h, Walker.emit_ok h]
    simp only
    rw [Walker.finish_eq]
    exact hd

/-- A step in general mode with a bit left (45_tree_walker.md R231). -/
theorem twStep_bit {caps : Caps} {w : InBuf} {t : Tree} {origLen : Len} {u : Unpacker} {k : Walker} {b : Bool} {rest : Bits}
    (hm : t.mode ≠ .single) (hd : k.done = false) (hr : Readable caps.ibuf w u) (hb : unread w u = b :: rest)
    {c : NodeIdx} (hc : c = if b then (nodeGet t.nodes k.cur).right else (nodeGet t.nodes k.cur).left) :
    (isInternal c = true → twStep caps w t origLen u k =
        .ok (u.advance 1, { k with cur := c, done := k.count == origLen })) ∧
      (∀ s, c = leafIdx s → twStep caps w t origLen u k =
        if k.sout.length = caps.sout.toNat then raise .soutFull (caps.sout.setWidth 64)
        else .ok (u.advance 1, { k with sout := k.sout ++ [s], count := k.count + 1, cur := t.root,
                                        done := k.count + 1 == origLen })) := by
  obtain ⟨h1, -, -⟩ := buNext_unread hr hb
  unfold twStep
  rw [if_neg hm, h1]
  simp only [← hc]
  constructor
  · intro hi
    obtain ⟨h2, h3⟩ := isInternal_iff.1 hi
    have h4 : c ≠ absent := fun e => by simp [e] at h3
    rw [if_neg h4, if_neg (by omega), Walker.finish_eq]
    exact hd
  · rintro s rfl
    have hs := s.isLt
    have h4 : leafIdx s ≠ absent := fun e => by
      have := congrArg BitVec.toNat e
      rw [leafIdx_toNat] at this
      simp at this
      omega
    rw [if_neg h4, if_pos (by rw [leafIdx_toNat]; exact hs), leafIdx_setWidth]
    by_cases h : k.sout.length = caps.sout.toNat
    · rw [if_pos h, Walker.emit_full h]
      rfl
    · rw [if_neg h, Walker.emit_ok h]
      simp only
      rw [Walker.finish_eq]
      exact hd

/-- A step in general mode at the end of the stream (45_tree_walker.md R231). -/
theorem twStep_eos {caps : Caps} {w : InBuf} {t : Tree} {origLen : Len} {u : Unpacker} {k : Walker}
    (hm : t.mode ≠ .single) (hr : Readable caps.ibuf w u) (hb : unread w u = []) :
    twStep caps w t origLen u k = raise .corEos w.limit := by
  obtain ⟨h1, h2⟩ := buNext_unread_nil hr hb
  unfold twStep
  rw [if_neg hm, h1]
  simp only [h2]

/-- A count below the length owed goes up by one without wrapping. -/
theorem count_succ {c l : Len} (h1 : c.toNat ≤ l.toNat) (h2 : c ≠ l) : (c + 1).toNat = c.toNat + 1 ∧ c.toNat < l.toNat := by
  have hl := l.isLt
  have hlt : c.toNat < l.toNat := Nat.lt_of_le_of_ne h1 (fun e => h2 (BitVec.eq_of_toNat_eq e))
  refine ⟨?_, hlt⟩
  rw [BitVec.toNat_add]
  simp
  omega

/-- Walking on keeps the walker's invariant: one symbol more. -/
theorem WalkerInv.emit {cap : Word} {t : Tree} {origLen : Len} {k : Walker} (h : WalkerInv cap t origLen k)
    (ha : k.active = true) (hd : k.done = false) (hf : k.sout.length ≠ cap.toNat) (v : Byte) (c : NodeIdx)
    (hc : t.mode = .general → 256 ≤ c.toNat ∧ c.toNat ≤ 254 + t.k.toNat) :
    WalkerInv cap t origLen { k with sout := k.sout ++ [v], count := k.count + 1, cur := c, done := k.count + 1 == origLen } := by
  have h1 := h.fits
  obtain ⟨h2, h3⟩ := h.counted ha
  have hne : k.count ≠ origLen := fun e => by simp [(h.done ha).2 e] at hd
  obtain ⟨h4, h5⟩ := count_succ h3 hne
  refine ⟨?_, ?_, h.tree, ?_, ?_, h.emptyMode, fun _ hm => hc hm⟩
  · simp
    omega
  · intro hf'
    simp [ha] at hf'
  · intro _
    simp only [List.length_append, List.length_cons, List.length_nil, h4]
    omega
  · intro _
    simp

/-- Walking on keeps the walker's invariant: one node down. -/
theorem WalkerInv.move {cap : Word} {t : Tree} {origLen : Len} {k : Walker} (h : WalkerInv cap t origLen k)
    (ha : k.active = true) (c : NodeIdx) (hc : t.mode = .general → 256 ≤ c.toNat ∧ c.toNat ≤ 254 + t.k.toNat) :
    WalkerInv cap t origLen { k with cur := c, done := k.count == origLen } := by
  refine ⟨h.fits, fun hf => by simp [ha] at hf, h.tree, h.counted, fun _ => by simp, h.emptyMode, fun _ hm => hc hm⟩

/-- Every outcome of a step in single-symbol mode within the invariants. -/
theorem twStep_single_cases {caps : Caps} {w : InBuf} {t : Tree} {origLen : Len} {u : Unpacker} {k : Walker}
    (hm : t.mode = .single) (hw : WalkerInv caps.sout t origLen k) (ha : k.active = true) (hd : k.done = false) :
    twStep caps w t origLen u k = raise .soutFull (caps.sout.setWidth 64) ∨
      ∃ k', twStep caps w t origLen u k = .ok (u, k') ∧ k'.active = true ∧ WalkerInv caps.sout t origLen k' ∧
        origLen.toNat - k'.count.toNat < origLen.toNat - k.count.toNat := by
  have hne : k.count ≠ origLen := fun e => by simp [(hw.done ha).2 e] at hd
  obtain ⟨h4, h5⟩ := count_succ (hw.counted ha).2 hne
  rw [twStep_single hm hd]
  split
  · exact .inl rfl
  · rename_i h
    refine .inr ⟨_, rfl, ha, ?_, ?_⟩
    · exact hw.emit ha hd h t.singleSym k.cur (fun hg => absurd (hm.symm.trans hg) (by decide))
    · simp only [h4]
      omega

/-- Every outcome of a step in general mode within the invariants: `COR_WALKOFF` is not among them (R231, R236). -/
theorem twStep_general_cases {caps : Caps} {w : InBuf} {t : Tree} {origLen : Len} {u : Unpacker} {k : Walker} {h : HTree}
    (hm : t.mode = .general) (hg : GeneralTree t h) (hr : Readable caps.ibuf w u) (hw : WalkerInv caps.sout t origLen k)
    (ha : k.active = true) (hd : k.done = false) :
    twStep caps w t origLen u k = raise .corEos w.limit ∨
      twStep caps w t origLen u k = raise .soutFull (caps.sout.setWidth 64) ∨
      ∃ k', twStep caps w t origLen u k = .ok (u.advance 1, k') ∧ k'.active = true ∧ WalkerInv caps.sout t origLen k' ∧
        Readable caps.ibuf w (u.advance 1) ∧ (unread w (u.advance 1)).length < (unread w u).length := by
  have hns : t.mode ≠ .single := by
    rw [hm]
    decide
  rcases hu : unread w u with _ | ⟨b, rest⟩
  · exact .inl (twStep_eos hns hr hu)
  · obtain ⟨-, h2, h3⟩ := buNext_unread hr hu
    obtain ⟨h4, h5⟩ := twStep_bit (origLen := origLen) hns hd hr hu (c := _) rfl
    have hlen : (unread w (u.advance 1)).length < (b :: rest).length := by
      rw [h2]
      simp
    have hroot : 256 ≤ t.root.toNat ∧ t.root.toNat ≤ 254 + t.k.toNat := by
      obtain ⟨l, r, hn⟩ := hg.exists_node
      exact (hg.inner t.root).1 (by rw [hn]; simp [HTree.inner])
    have hcur : k.cur ∈ h.inner := (hg.inner k.cur).2 (hw.onNode ha hm)
    rcases HTree.child_of_mem_inner hg.held hcur b with ⟨s, -, hs⟩ | hi
    · rw [h5 s hs]
      split
      · exact .inr (.inl rfl)
      · rename_i hf
        exact .inr (.inr ⟨_, rfl, ha, hw.emit ha hd hf s t.root (fun _ => hroot), h3, hlen⟩)
    · rw [h4 (HTree.isInternal_of_mem_inner hg.held hi)]
      exact .inr (.inr ⟨_, rfl, ha, hw.move ha _ (fun _ => (hg.inner _).1 hi), h3, hlen⟩)

/-! ## The loop -/

@[simp] theorem twLoop_done {caps : Caps} {w : InBuf} {t : Tree} {origLen : Len} {u : Unpacker} {k : Walker}
    (h : k.done = true) (fuel : Nat) : twLoop caps w t origLen fuel u k = .ok (u, k) := by
  cases fuel <;> simp [twLoop, h]

theorem twLoop_step {caps : Caps} {w : InBuf} {t : Tree} {origLen : Len} {u u' : Unpacker} {k k' : Walker}
    (h : k.done = false) (hs : twStep caps w t origLen u k = .ok (u', k')) (fuel : Nat) :
    twLoop caps w t origLen (fuel + 1) u k = twLoop caps w t origLen fuel u' k' := by
  simp [twLoop, h, hs]

theorem twLoop_stop {caps : Caps} {w : InBuf} {t : Tree} {origLen : Len} {u : Unpacker} {k : Walker} {e : Stop}
    (h : k.done = false) (hs : twStep caps w t origLen u k = .error e) (fuel : Nat) :
    twLoop caps w t origLen (fuel + 1) u k = .error e := by
  simp [twLoop, h, hs]

/-- The loop in single-symbol mode, with room for every copy still owed (45_tree_walker.md R235). -/
theorem twLoop_single {caps : Caps} {w : InBuf} {t : Tree} {origLen : Len} {u : Unpacker} (hm : t.mode = .single)
    (hroom : origLen.toNat ≤ caps.sout.toNat) (n : Nat) {k : Walker} (hw : WalkerInv caps.sout t origLen k)
    (ha : k.active = true) (hn : k.count.toNat + n = origLen.toNat) {fuel : Nat} (hf : n ≤ fuel) :
    twLoop caps w t origLen fuel u k =
      .ok (u, ⟨true, true, k.cur, origLen, k.sout ++ List.replicate n t.singleSym⟩) := by
  induction n generalizing k fuel with
  | zero =>
    have hc : k.count = origLen := BitVec.eq_of_toNat_eq (by omega)
    have hd := (hw.done ha).2 hc
    rw [twLoop_done hd]
    cases k
    simp_all
  | succ n ih =>
    have hne : k.count ≠ origLen := fun e => by rw [e] at hn; omega
    have hd : k.done = false := by
      rw [← Bool.not_eq_true, hw.done ha]
      exact hne
    obtain ⟨h4, h5⟩ := count_succ (hw.counted ha).2 hne
    have hfull : k.sout.length ≠ caps.sout.toNat := by
      have := (hw.counted ha).1
      omega
    obtain ⟨fuel, rfl⟩ : ∃ m, fuel = m + 1 := ⟨fuel - 1, by omega⟩
    have hs := twStep_single (caps := caps) (w := w) (origLen := origLen) (u := u) hm hd
    rw [if_neg hfull] at hs
    rw [twLoop_step hd hs]
    have hw' := hw.emit ha hd hfull t.singleSym k.cur (fun hg => absurd (hm.symm.trans hg) (by decide))
    rw [ih hw' ha (by simp only [h4]; omega) (by omega)]
    simp [List.replicate_succ]

/-- The loop walks a path from the root of a subtree to an internal node: it moves there and emits nothing
(45_tree_walker.md R231). -/
theorem twLoop_descend {caps : Caps} {w : InBuf} {t : Tree} {origLen : Len} (hm : t.mode = .general) {x : HTree}
    (hx : x.heldIn t.nodes = true) {path rest : Bits} {i : NodeIdx} {l r : HTree}
    (hs : x.subtreeAt path = some (.node i l r)) {u : Unpacker} (hr : Readable caps.ibuf w u)
    (hb : unread w u = path ++ rest) {k : Walker} (hd : k.done = false) (hne : k.count ≠ origLen) (hcur : k.cur = x.root)
    (fuel : Nat) :
    twLoop caps w t origLen (fuel + path.length) u k =
        twLoop caps w t origLen fuel (u.advance path.length) { k with cur := i } ∧
      unread w (u.advance path.length) = rest ∧ Readable caps.ibuf w (u.advance path.length) := by
  have hns : t.mode ≠ .single := by
    rw [hm]
    decide
  induction path generalizing x u k with
  | nil =>
    cases x with
    | leaf s => simp [HTree.subtreeAt] at hs
    | node j a c =>
      simp only [HTree.subtreeAt, Option.some.injEq, HTree.node.injEq] at hs
      obtain ⟨rfl, -, -⟩ := hs
      refine ⟨?_, by simpa using hb, by simpa using hr⟩
      simp only [HTree.root] at hcur
      simp [← hcur]
  | cons b path ih =>
    cases x with
    | leaf s => simp [HTree.subtreeAt] at hs
    | node j a c =>
      obtain ⟨-, h1, h2, ha, hc⟩ := HTree.heldIn_node.1 hx
      obtain ⟨y, hy, hys, hroot⟩ : ∃ y : HTree, y.heldIn t.nodes = true ∧ y.subtreeAt path = some (.node i l r) ∧
          (if b then (nodeGet t.nodes k.cur).right else (nodeGet t.nodes k.cur).left) = y.root := by
        cases b
        · exact ⟨a, ha, hs, by simp [hcur, HTree.root, h1]⟩
        · exact ⟨c, hc, hs, by simp [hcur, HTree.root, h2]⟩
      obtain ⟨-, h3, h4⟩ := buNext_unread hr hb
      have hin : isInternal y.root = true := by
        cases y with
        | leaf s =>
          simp only [HTree.subtreeAt] at hys
          split at hys <;> simp at hys
        | node _ _ _ => exact (HTree.heldIn_node.1 hy).1
      have hstep := (twStep_bit (origLen := origLen) hns hd hr hb (c := _) rfl).1 (hroot ▸ hin)
      rw [hroot, show (k.count == origLen) = false by simpa using hne, ← hd] at hstep
      obtain ⟨h6, h7, h8⟩ := ih hy hys h4 h3 (k := { k with cur := y.root }) hd hne rfl
      simp only [Unpacker.advance_advance, Nat.add_comm 1] at h6 h7 h8
      rw [List.length_cons, ← Nat.add_assoc]
      exact ⟨by rw [twLoop_step hd hstep]; exact h6, h7, h8⟩

/-- The loop walks the code of a symbol from the root of a subtree: it emits the symbol and stands on the root
(45_tree_walker.md R237), or stops at the last bit with `SOUT` full (R231). -/
theorem twLoop_code {caps : Caps} {w : InBuf} {t : Tree} {origLen : Len} (hm : t.mode = .general) {x : HTree}
    (hx : x.heldIn t.nodes = true) {s : Sym} {code rest : Bits} (hc : (s, code) ∈ x.codes []) (hne : code ≠ [])
    {u : Unpacker} (hr : Readable caps.ibuf w u) (hb : unread w u = code ++ rest) {k : Walker} (hd : k.done = false)
    (hcount : k.count ≠ origLen) (hcur : k.cur = x.root) (fuel : Nat) :
    (k.sout.length ≠ caps.sout.toNat →
      twLoop caps w t origLen (fuel + code.length) u k =
          twLoop caps w t origLen fuel (u.advance code.length)
            { k with sout := k.sout ++ [s], count := k.count + 1, cur := t.root, done := k.count + 1 == origLen } ∧
        unread w (u.advance code.length) = rest ∧ Readable caps.ibuf w (u.advance code.length)) ∧
    (k.sout.length = caps.sout.toNat →
      twLoop caps w t origLen (fuel + code.length) u k = raise .soutFull (caps.sout.setWidth 64)) := by
  have hns : t.mode ≠ .single := by
    rw [hm]
    decide
  -- the code is the path to the leaf's parent and one bit more
  obtain ⟨path, b, rfl⟩ : ∃ path b, code = path ++ [b] := ⟨_, _, (List.dropLast_concat_getLast hne).symm⟩
  obtain ⟨i, l, r, hs⟩ := HTree.subtreeAt_of_cut hc (by simp)
  obtain ⟨-, hheld, hcodes⟩ := HTree.subtreeAt_spec hs
  have hleaf : (if b then r else l) = .leaf s := by
    have h1 := (HTree.subtreeAt_spec (show (HTree.node i l r).subtreeAt [b] = some (if b then r else l) by
      cases b <;> cases l <;> cases r <;> rfl)).2.2 s [] (hcodes s [b] hc)
    generalize (if b then r else l) = y at h1
    cases y with
    | leaf s' => simpa [HTree.codes, eq_comm] using h1
    | node _ _ _ =>
      simp only [HTree.codes, List.mem_append, List.nil_append] at h1
      rcases h1 with h1 | h1 <;> simpa using (HTree.prefix_of_mem_codes h1).length_le
  obtain ⟨-, hl, hr', -, -⟩ := HTree.heldIn_node.1 (hheld _ hx)
  rw [List.append_assoc] at hb
  obtain ⟨h1, h2, h3⟩ := twLoop_descend (origLen := origLen) hm hx hs hr hb hd hcount hcur (fuel + 1)
  obtain ⟨-, h4, h5⟩ := buNext_unread h3 h2
  have hstep := (twStep_bit (origLen := origLen) (k := { k with cur := i }) hns hd h3 h2 (c := _) rfl).2 s (by
    cases b
    · simpa [hl, HTree.root] using congrArg HTree.root hleaf
    · simpa [hr', HTree.root] using congrArg HTree.root hleaf)
  rw [List.length_append, List.length_singleton, ← Unpacker.advance_advance, Nat.add_comm path.length, ← Nat.add_assoc, h1]
  constructor
  · intro hroom
    rw [if_neg hroom] at hstep
    exact ⟨twLoop_step (k := { k with cur := i }) hd hstep fuel, h4, h5⟩
  · intro hfull
    rw [if_pos hfull] at hstep
    exact twLoop_stop (k := { k with cur := i }) hd hstep fuel

/-- Where a walk in general mode stands: on the internal node a path of the tree leads to. -/
def StandsAt (tree : HTree) (path : Bits) (k : Walker) : Prop := ∃ i l r, tree.subtreeAt path = some (.node i l r) ∧ k.cur = i

/-- The loop over codes of symbols all still owed, with room for them: the path walked so far and the stream left, read on
as these codes, are consumed, the symbols emitted, and the walk goes on (45_tree_walker.md R233, R237). -/
theorem twLoop_codes {caps : Caps} {w : InBuf} {t : Tree} {origLen : Len} {tree : HTree} (hg : GeneralTree t tree)
    (hm : t.mode = .general) (payload : List (Sym × Bits)) (hp : ∀ x ∈ payload, x ∈ tree.codes []) {path rest : Bits}
    {u : Unpacker} (hr : Readable caps.ibuf w u) (hb : path ++ unread w u = payload.flatMap Prod.snd ++ rest) {k : Walker}
    (hw : WalkerInv caps.sout t origLen k) (ha : k.active = true) (hat : StandsAt tree path k)
    (hn : k.count.toNat + payload.length ≤ origLen.toNat) (hroom : k.count.toNat + payload.length ≤ caps.sout.toNat) :
    ∃ n path' k', (∀ fuel, twLoop caps w t origLen (fuel + n) u k = twLoop caps w t origLen fuel (u.advance n) k') ∧
      Readable caps.ibuf w (u.advance n) ∧ WalkerInv caps.sout t origLen k' ∧ k'.active = true ∧ StandsAt tree path' k' ∧
      path' ++ unread w (u.advance n) = rest ∧ n + path.length = (payload.flatMap Prod.snd).length + path'.length ∧
      k'.count.toNat = k.count.toNat + payload.length ∧ k'.sout = k.sout ++ payload.map Prod.fst ∧
      path' = if payload = [] then path else [] := by
  induction payload generalizing u k path with
  | nil => exact ⟨0, path, k, by simp, by simpa using hr, hw, ha, hat, by simpa using hb, by simp, by simp, by simp, by simp⟩
  | cons x xs ih =>
    obtain ⟨s, code⟩ := x
    simp only [List.length_cons] at hn hroom
    have hne : k.count ≠ origLen := fun e => by rw [e] at hn; omega
    have hd : k.done = false := by
      rw [← Bool.not_eq_true, hw.done ha]
      exact hne
    obtain ⟨h4, -⟩ := count_succ (hw.counted ha).2 hne
    have hfull : k.sout.length ≠ caps.sout.toNat := by
      have := (hw.counted ha).1
      omega
    obtain ⟨i, l, r, hs, hcur⟩ := hat
    obtain ⟨l', r', htree⟩ := hg.exists_node
    have hroot : 256 ≤ t.root.toNat ∧ t.root.toNat ≤ 254 + t.k.toNat :=
      (hg.inner t.root).1 (by rw [htree]; simp [HTree.inner])
    obtain ⟨-, hheld, hcodes⟩ := HTree.subtreeAt_spec hs
    simp only [List.flatMap_cons, List.append_assoc] at hb
    obtain ⟨d, hdne, rfl, hu⟩ := HTree.code_behind hs (by simp) (hp (s, code) (by simp)) hb
    have hstep := fun fuel => (twLoop_code (origLen := origLen) hm (hheld _ hg.held) (hcodes s d (hp _ (by simp))) hdne hr hu
      hd hne hcur fuel).1 hfull
    obtain ⟨-, h7, h8⟩ := hstep 0
    obtain ⟨n, path', k', g1, g2, g3, g4, g5, g6, g7, g8, g9, g10⟩ := ih (fun y hy => hp y (by simp [hy])) h8
      (path := []) (by simpa using h7) (hw.emit ha hd hfull s t.root (fun _ => hroot)) ha
      ⟨_, l', r', by rw [htree]; rfl, rfl⟩ (by simp only [h4]; omega) (by simp only [h4]; omega)
    simp only [Unpacker.advance_advance] at g1 g2 g6
    refine ⟨d.length + n, path', k', fun fuel => ?_, g2, g3, g4, g5, g6, ?_, ?_, ?_, ?_⟩
    · rw [Nat.add_comm d.length, ← Nat.add_assoc, (hstep (fuel + n)).1, g1, Nat.add_comm n]
    · simp only [List.length_nil, List.flatMap_cons, List.length_append] at g7 ⊢
      omega
    · simp only [h4] at g8
      rw [g8, List.length_cons]
      omega
    · simp [g9]
    · simpa using g10

/-- The loop over the codes of exactly the symbols owed, one or more: it ends there, done, on the root
(45_tree_walker.md R234, R237). -/
theorem twLoop_owed {caps : Caps} {w : InBuf} {t : Tree} {origLen : Len} {tree : HTree} (hg : GeneralTree t tree)
    (hm : t.mode = .general) (hroom : origLen.toNat ≤ caps.sout.toNat) {payload : List (Sym × Bits)} (hne : payload ≠ [])
    (hp : ∀ x ∈ payload, x ∈ tree.codes []) {path padding : Bits} {u : Unpacker} (hr : Readable caps.ibuf w u)
    (hb : path ++ unread w u = payload.flatMap Prod.snd ++ padding) {k : Walker} (hw : WalkerInv caps.sout t origLen k)
    (ha : k.active = true) (hat : StandsAt tree path k) (hn : k.count.toNat + payload.length = origLen.toNat) (fuel : Nat)
    (hf : (payload.flatMap Prod.snd).length ≤ fuel + path.length) :
    twLoop caps w t origLen fuel u k = .ok (u.advance ((payload.flatMap Prod.snd).length - path.length),
      ⟨true, true, t.root, origLen, k.sout ++ payload.map Prod.fst⟩) := by
  obtain ⟨n, path', ⟨active, done, cur, count, sout⟩, h1, -, h2, h3, ⟨i, l, r, h4, h5⟩, -, h6, h7, h8, h9⟩ :=
    twLoop_codes hg hm payload hp hr hb hw ha hat (by omega) (by omega)
  rw [if_neg hne] at h9
  subst h9
  simp only at h3 h5 h7 h8
  have hc : count = origLen := BitVec.eq_of_toNat_eq (by omega)
  have hd : done = true := (h2.done h3).2 hc
  have hi : i = t.root := by
    obtain ⟨l', r', htree⟩ := hg.exists_node
    rw [htree] at h4
    simp only [HTree.subtreeAt, Option.some.injEq, HTree.node.injEq] at h4
    exact h4.1.symm
  simp only [List.length_nil, Nat.add_zero] at h6
  rw [show fuel = (fuel - n) + n by omega, h1, twLoop_done hd, h3, hd, h5, hi, hc, h8,
    show n = (payload.flatMap Prod.snd).length - path.length by omega]

/-- A walk that stands on the root. -/
theorem StandsAt.root {t : Tree} {tree : HTree} (hg : GeneralTree t tree) {k : Walker} (h : k.cur = t.root) :
    StandsAt tree [] k := by
  obtain ⟨l, r, htree⟩ := hg.exists_node
  exact ⟨_, l, r, by rw [htree]; rfl, h⟩

/-- The loop over a whole payload: the symbols owed are emitted, their codes consumed, and the walk is done
(45_tree_walker.md R234, R237). -/
theorem twLoop_payload {caps : Caps} {w : InBuf} {t : Tree} {origLen : Len} {tree : HTree} (hg : GeneralTree t tree)
    (hm : t.mode = .general) (hroom : origLen.toNat ≤ caps.sout.toNat) (payload : List (Sym × Bits)) {padding : Bits}
    (hp : ∀ x ∈ payload, x ∈ tree.codes []) {u : Unpacker} (hr : Readable caps.ibuf w u)
    (hb : unread w u = payload.flatMap Prod.snd ++ padding) {k : Walker} (hw : WalkerInv caps.sout t origLen k)
    (ha : k.active = true) (hcur : k.cur = t.root) (hn : k.count.toNat + payload.length = origLen.toNat) (fuel : Nat)
    (hf : (payload.flatMap Prod.snd).length ≤ fuel) :
    twLoop caps w t origLen fuel u k = .ok (u.advance (payload.flatMap Prod.snd).length,
      ⟨true, true, t.root, origLen, k.sout ++ payload.map Prod.fst⟩) := by
  by_cases hne : payload = []
  · subst hne
    have hc : k.count = origLen := BitVec.eq_of_toNat_eq (by simpa using hn)
    have hd := (hw.done ha).2 hc
    rw [twLoop_done hd]
    cases k
    simp_all
  · simpa using twLoop_owed hg hm hroom hne hp (path := []) hr hb hw ha (.root hg hcur) hn fuel (by simpa using hf)

/-- The loop from inside a code: the code is completed, then the payload as from the root (45_tree_walker.md R233, R237). -/
theorem twLoop_within {caps : Caps} {w : InBuf} {t : Tree} {origLen : Len} {tree sub : HTree} (hg : GeneralTree t tree)
    (hm : t.mode = .general) (hroom : origLen.toNat ≤ caps.sout.toNat) {payload : List (Sym × Bits)} {path code padding : Bits}
    {s : Sym} (hp : ∀ x ∈ payload, x ∈ tree.codes []) (hsub : tree.subtreeAt path = some sub) (hne : code ≠ [])
    (hc : (s, path ++ code) ∈ tree.codes []) {u : Unpacker} (hr : Readable caps.ibuf w u)
    (hb : unread w u = code ++ payload.flatMap Prod.snd ++ padding) {k : Walker} (hw : WalkerInv caps.sout t origLen k)
    (ha : k.active = true) (hcur : k.cur = sub.root) (hn : k.count.toNat + (payload.length + 1) = origLen.toNat) (fuel : Nat)
    (hf : (code ++ payload.flatMap Prod.snd).length ≤ fuel) :
    twLoop caps w t origLen fuel u k = .ok (u.advance (code ++ payload.flatMap Prod.snd).length,
      ⟨true, true, t.root, origLen, k.sout ++ s :: payload.map Prod.fst⟩) := by
  have hat : StandsAt tree path k := by
    obtain ⟨i, l, r, h1⟩ := HTree.subtreeAt_of_cut hc hne
    obtain rfl := Option.some.inj (hsub.symm.trans h1)
    exact ⟨i, l, r, h1, hcur⟩
  have h := twLoop_owed hg hm hroom (payload := (s, path ++ code) :: payload) (by simp)
    (fun y hy => (List.mem_cons.1 hy).elim (fun e => e ▸ hc) (hp y)) (path := path) (padding := padding) hr (by simp [hb]) hw ha
    hat hn fuel (by simp only [List.flatMap_cons, List.length_append] at hf ⊢; omega)
  rw [h]
  simp

/-- The loop over a stream that ends before the codes owed are complete: `COR_EOS` (45_tree_walker.md R231, R236). -/
theorem twLoop_cut {caps : Caps} {w : InBuf} {t : Tree} {origLen : Len} {tree : HTree} (hg : GeneralTree t tree)
    (hm : t.mode = .general) {payload : List (Sym × Bits)} (hp : ∀ x ∈ payload, x ∈ tree.codes []) {path cut more : Bits}
    {s : Sym} (hc : (s, cut ++ more) ∈ tree.codes []) (hmore : more ≠ []) {u : Unpacker} (hr : Readable caps.ibuf w u)
    (hb : path ++ unread w u = payload.flatMap Prod.snd ++ cut) {k : Walker} (hw : WalkerInv caps.sout t origLen k)
    (ha : k.active = true) (hat : StandsAt tree path k) (hn : k.count.toNat + payload.length < origLen.toNat)
    (hroom : k.count.toNat + payload.length ≤ caps.sout.toNat) (fuel : Nat) (hf : (unread w u).length < fuel) :
    twLoop caps w t origLen fuel u k = raise .corEos w.limit := by
  have hns : t.mode ≠ .single := by
    rw [hm]
    decide
  obtain ⟨n, path', k', h1, h2, h3, h4, ⟨i, l, r, h5, h6⟩, h7, h8, h9, -, -⟩ :=
    twLoop_codes hg hm payload hp hr hb hw ha hat (by omega) hroom
  have hne : k'.count ≠ origLen := fun e => by rw [e] at h9; omega
  have hd : k'.done = false := by
    rw [← Bool.not_eq_true, h3.done h4]
    exact hne
  -- the walk goes down the beginning of a code that is left, and there the stream ends
  obtain ⟨j, a, b, h10⟩ := HTree.subtreeAt_of_cut hc hmore
  rw [← h7] at h10 hc
  obtain ⟨-, hheld, -⟩ := HTree.subtreeAt_spec h5
  have h11 : (HTree.node i l r).subtreeAt (unread w (u.advance n)) = some (.node j a b) := HTree.subtreeAt_append h5 h10
  have hlen := congrArg List.length hb
  have hlen' := congrArg List.length h7
  simp only [List.length_append] at hlen hlen'
  obtain ⟨g1, g2, g3⟩ := twLoop_descend (origLen := origLen) hm (hheld _ hg.held) h11 h2 (rest := []) (by simp) hd hne h6
    (fuel - (unread w u).length - 1 + 1)
  rw [show fuel = fuel - (unread w u).length - 1 + 1 + (unread w (u.advance n)).length + n by omega, h1, g1]
  exact twLoop_stop (k := { k' with cur := j }) hd (twStep_eos hns g3 g2) _

/-- The loop over the codes of one symbol more than `SOUT` has room for, all owed: `SOUT_FULL` (45_tree_walker.md R231). -/
theorem twLoop_full {caps : Caps} {w : InBuf} {t : Tree} {origLen : Len} {tree : HTree} (hg : GeneralTree t tree)
    (hm : t.mode = .general) {payload : List (Sym × Bits)} (hp : ∀ x ∈ payload, x ∈ tree.codes []) {path rest : Bits}
    {u : Unpacker} (hr : Readable caps.ibuf w u) (hb : path ++ unread w u = payload.flatMap Prod.snd ++ rest) {k : Walker}
    (hw : WalkerInv caps.sout t origLen k) (ha : k.active = true) (hat : StandsAt tree path k)
    (hn : k.count.toNat + payload.length = caps.sout.toNat + 1) (hroom : caps.sout.toNat < origLen.toNat) (fuel : Nat)
    (hf : (unread w u).length < fuel) :
    twLoop caps w t origLen fuel u k = raise .soutFull (caps.sout.setWidth 64) := by
  have hc := hw.fits
  rw [(hw.counted ha).1] at hc
  obtain ⟨init, ⟨s, code⟩, rfl⟩ : ∃ init x, payload = init ++ [x] :=
    ⟨_, _, (List.dropLast_concat_getLast (by rintro rfl; simp at hn; omega)).symm⟩
  simp only [List.length_append, List.length_singleton] at hn
  simp only [List.flatMap_append, List.flatMap_singleton, List.append_assoc] at hb
  obtain ⟨n, path', k', h1, h2, h3, h4, ⟨i, l, r, h5, h6⟩, h7, h8, h9, -, -⟩ :=
    twLoop_codes hg hm init (fun x hx => hp x (by simp [hx])) hr hb hw ha hat (by omega) (by omega)
  have hne : k'.count ≠ origLen := fun e => by rw [e] at h9; omega
  have hd : k'.done = false := by
    rw [← Bool.not_eq_true, h3.done h4]
    exact hne
  obtain ⟨-, hheld, hcodes⟩ := HTree.subtreeAt_spec h5
  obtain ⟨d, hdne, rfl, hu⟩ := HTree.code_behind h5 (by simp) (hp (s, code) (by simp)) h7
  have hlen := congrArg List.length hb
  have hlen' := congrArg List.length hu
  simp only [List.length_append] at hlen hlen' h8
  rw [show fuel = fuel - n - d.length + d.length + n by omega, h1]
  exact (twLoop_code hm (hheld _ hg.held) (hcodes s d (hp _ (by simp))) hdne h2 hu hd hne h6 _).2
    (by rw [(h3.counted h4).1]; omega)

/-- The loop in single-symbol mode with more copies owed than `SOUT` has room for (45_tree_walker.md R231, R235). -/
theorem twLoop_single_full {caps : Caps} {w : InBuf} {t : Tree} {origLen : Len} {u : Unpacker} (hm : t.mode = .single)
    (hroom : caps.sout.toNat < origLen.toNat) {k : Walker} (hw : WalkerInv caps.sout t origLen k) (ha : k.active = true)
    {fuel : Nat} (hf : origLen.toNat - k.count.toNat < fuel) :
    twLoop caps w t origLen fuel u k = raise .soutFull (caps.sout.setWidth 64) := by
  induction fuel generalizing k with
  | zero => omega
  | succ fuel ih =>
    have hc := hw.fits
    rw [(hw.counted ha).1] at hc
    have hd : k.done = false := by
      rw [← Bool.not_eq_true, hw.done ha]
      intro e
      rw [e] at hc
      omega
    rcases twStep_single_cases (caps := caps) (w := w) (u := u) hm hw ha hd with h1 | ⟨k', h1, h2, h3, h4⟩
    · exact twLoop_stop hd h1 fuel
    · rw [twLoop_step hd h1]
      exact ih h3 h2 (by omega)

/-- A bound that was enough is enough when it is larger. -/
theorem twLoop_succ {caps : Caps} {w : InBuf} {t : Tree} {origLen : Len} (fuel : Nat) {u : Unpacker} {k : Walker}
    (h : twLoop caps w t origLen fuel u k ≠ .error (.fault .noTree)) :
    twLoop caps w t origLen (fuel + 1) u k = twLoop caps w t origLen fuel u k := by
  induction fuel generalizing u k with
  | zero =>
    by_cases hd : k.done = true
    · simp [hd]
    · simp [twLoop, hd] at h
  | succ fuel ih =>
    by_cases hd : k.done = true
    · simp [hd]
    · have hd : k.done = false := by simpa using hd
      rcases hs : twStep caps w t origLen u k with e | ⟨u', k'⟩
      · rw [twLoop_stop hd hs, twLoop_stop hd hs]
      · rw [twLoop_step hd hs] at h ⊢
        rw [twLoop_step hd hs]
        exact ih h

/-- The loop within the invariants always ends: the walk done, the stream ended or `SOUT` full (45_tree_walker.md R233, R236). -/
theorem twLoop_cases {caps : Caps} {w : InBuf} {t : Tree} {origLen : Len} (ht : TreeInv t) (fuel : Nat) {u : Unpacker}
    {k : Walker} (hw : WalkerInv caps.sout t origLen k) (ha : k.active = true)
    (hr : t.mode = .general → k.done = false → Readable caps.ibuf w u)
    (hf : (if t.mode = .single then origLen.toNat - k.count.toNat else (unread w u).length) < fuel) :
    twLoop caps w t origLen fuel u k = raise .corEos w.limit ∨
      twLoop caps w t origLen fuel u k = raise .soutFull (caps.sout.setWidth 64) ∨
      ∃ n k', twLoop caps w t origLen fuel u k = .ok (u.advance n, k') ∧ k'.active = true ∧ k'.done = true ∧
        WalkerInv caps.sout t origLen k' ∧ (Readable caps.ibuf w u → Readable caps.ibuf w (u.advance n)) := by
  induction fuel generalizing u k with
  | zero => omega
  | succ fuel ih =>
    by_cases hd : k.done = true
    · rw [twLoop_done hd]
      exact .inr (.inr ⟨0, k, by simp, ha, hd, hw, by simp⟩)
    · have hd : k.done = false := by simpa using hd
      have hv := hw.tree ha
      cases hm : t.mode with
      | empty =>
        have h0 := hw.emptyMode ha hm
        have h1 := (hw.counted ha).2
        have : k.count = origLen := BitVec.eq_of_toNat_eq (by simp [h0] at h1 ⊢; exact h1)
        simp [(hw.done ha).2 this] at hd
      | single =>
        rw [hm, if_pos rfl] at hf
        rcases twStep_single_cases (caps := caps) (w := w) (u := u) hm hw ha hd with h1 | ⟨k', h1, h2, h3, h4⟩
        · exact .inr (.inl (twLoop_stop hd h1 fuel))
        · rw [twLoop_step hd h1]
          exact ih h3 h2 (fun e => absurd (hm.symm.trans e) (by decide)) (by rw [hm, if_pos rfl]; omega)
      | general =>
        obtain ⟨h, hg⟩ := ht.general hv hm
        rw [hm, if_neg (by decide)] at hf
        rcases twStep_general_cases hm hg (hr hm hd) hw ha hd with h1 | h1 | ⟨k', h1, h2, h3, h4, h5⟩
        · exact .inl (twLoop_stop hd h1 fuel)
        · exact .inr (.inl (twLoop_stop hd h1 fuel))
        · rw [twLoop_step hd h1]
          rcases ih h3 h2 (fun _ _ => h4) (by rw [hm, if_neg (by decide)]; omega) with h6 | h6 | ⟨n, k'', h6, h7⟩
          · exact .inl h6
          · exact .inr (.inl h6)
          · refine .inr (.inr ⟨1 + n, k'', ?_, h7.1, h7.2.1, h7.2.2.1, fun _ => ?_⟩)
            · rw [h6, Unpacker.advance_advance]
            · rw [← Unpacker.advance_advance]
              exact h7.2.2.2 h4

/-- `walkFuel` is more than a walk can use. -/
theorem lt_walkFuel (t : Tree) (origLen : Len) (w : InBuf) (u : Unpacker) (k : Walker) :
    (if t.mode = .single then origLen.toNat - k.count.toNat else (unread w u).length) < walkFuel := by
  have h1 := origLen.isLt
  have h2 := w.limit.isLt
  rw [unread_length]
  unfold walkFuel
  split <;> omega

end Sys2Proof.Machine
end

