-- ==== Sys2Proof/Laws/Invariants.lean ====
section
/-! SUPPORT. The invariants of 10_state.md R49 unit by unit: what reset, error entry, a new tree and each unit's operation
keep of them. -/

namespace Sys2Proof.Machine

/-! ## Reset values -/

theorem TreeInv.reset : TreeInv Tree.reset := by
  constructor <;> simp [Tree.reset]

theorem CodesInv.reset (t : Tree) : CodesInv t CodeTable.reset := by
  constructor <;> simp [CodeTable.reset]

theorem PackerInv.reset (cap : Word) : PackerInv cap Packer.reset := by
  constructor <;> simp [Packer.reset]

theorem UnpackerInv.reset (w : InBuf) : UnpackerInv w Unpacker.reset := ⟨by simp [Unpacker.reset]⟩

theorem WalkerInv.reset (cap : Word) (t : Tree) (origLen : Len) : WalkerInv cap t origLen Walker.reset := by
  constructor <;> simp [Walker.reset]

/-- The reset contents of `IBUF` are in canonical form. -/
theorem InBufInv.reset (cap : Word) : InBufInv cap InBuf.reset :=
  ⟨⟨by simp [InBuf.reset], by simp [InBuf.reset]⟩, by simp [InBuf.reset], by simp [InBuf.reset]⟩

/-- Error entry keeps the invariants (60_exceptions.md R300). -/
theorem State.Inv.abortRun {s : State} (h : s.Inv) (e : ErrCode) (info : Len) :
    (Sys2Proof.Machine.abortRun e info s).Inv where
  tree := TreeInv.reset
  codes := CodesInv.reset _
  packer := PackerInv.reset _
  inbuf := h.inbuf
  unpacker := UnpackerInv.reset _
  walker := WalkerInv.reset _ _ _
  err := ⟨by simp, fun _ => ⟨⟨e, rfl, rfl⟩, rfl, rfl, rfl, rfl, rfl⟩⟩

/-! ## IBUF -/

/-- A byte written within `IBUF` keeps its canonical form and its capacity (20_memory.md R82). -/
theorem InBufInv.write {cap : Word} {w : InBuf} (h : InBufInv cap w) {x : Nat} (hx : x < cap.toNat) (v : Byte) :
    InBufInv cap { w with mem := Memory.write w.mem x v } where
  wf := Memory.write_wf h.wf x v
  within := fun c hc => by
    rcases Memory.mem_write hc with hc | ⟨rfl, -⟩
    · exact h.within c hc
    · exact hx
  lenFits := h.lenFits

theorem clampLen_toNat (cap v : Word) : (clampLen cap v).toNat = min v.toNat cap.toNat := by
  unfold clampLen
  split <;> omega

/-! ## Trees -/

/-- `TB_BUILD` leaves a tree within R49 (a) to (c) (41_tree_builder.md R151). -/
theorem TreeInv.buildTree (freq : Vector Word 256) : TreeInv (Sys2Proof.Machine.buildTree freq) := by
  by_cases h2 : 2 ≤ distinctSyms freq
  · obtain ⟨h, hg, hm, -⟩ := buildTree_general h2
    exact ⟨fun _ h' => by rw [hm] at h'; simp at h', fun _ h' => by rw [hm] at h'; simp at h', fun _ _ => ⟨h, hg⟩⟩
  · have hl : (liveLeaves freq).length = distinctSyms freq := by
      rw [liveLeaves_eq freq clearNodes, List.length_map, liveSet_length]
    unfold Sys2Proof.Machine.buildTree
    split
    · constructor <;> simp
    · rename_i x hx
      rw [liveLeaves_eq freq clearNodes] at hx
      rcases hs : liveSet freq with _ | ⟨s, _ | _⟩ <;> simp [hs] at hx
      subst hx
      refine ⟨by simp, fun _ _ => ⟨rfl, rfl, ?_, ?_⟩, by simp⟩
      · simp only
        rw [nodeGet_nodeSet_same _ (by decide)]
        simp [HTree.entry, HTree.root]
      · simp only
        rw [nodeGet_nodeSet_same _ (by decide)]
    · rename_i h1 h3
      rcases hx : liveLeaves freq with _ | ⟨a, _ | _⟩
      · exact absurd hx h1
      · exact absurd hx (h3 a)
      · simp [hx] at hl
        omega

/-- `TW_CFG` leaves a tree within R49 (a) to (c) (45_tree_walker.md R220). -/
theorem TreeInv.cfgTree (m : Mode) (x : Sym) : TreeInv (Sys2Proof.Machine.cfgTree m x) := by
  cases m
  · constructor <;> simp [Sys2Proof.Machine.cfgTree]
  · refine ⟨by simp [Sys2Proof.Machine.cfgTree], fun _ _ => ⟨rfl, rfl, ?_, ?_⟩, by simp [Sys2Proof.Machine.cfgTree]⟩ <;>
    · simp only [Sys2Proof.Machine.cfgTree]
      rw [nodeGet_nodeSet_same _ (by decide)]
  · constructor <;> simp [Sys2Proof.Machine.cfgTree]

/-- A walk that is cancelled meets its invariant for any tree and length. -/
theorem WalkerInv.cancel {cap : Word} {t t' : Tree} {l l' : Len} {k : Walker} (h : WalkerInv cap t l k) :
    WalkerInv cap t' l' k.cancel := by
  constructor <;> simp [Walker.cancel, h.fits]

/-- A new tree in IDLE keeps the invariants (10_state.md R24). -/
theorem State.Inv.withNewTree {s : State} (h : s.Inv) (hi : s.seq = .idle) {t : Tree} (ht : TreeInv t) :
    (Sys2Proof.Machine.withNewTree s t).Inv where
  tree := ht
  codes := ⟨by simp [Sys2Proof.Machine.withNewTree], h.codes.short⟩
  packer := h.packer
  inbuf := h.inbuf
  unpacker := h.unpacker
  walker := h.walker.cancel
  err := ⟨fun _ => h.err.idle hi, by simp [hi]⟩

/-- On a valid tree `CG_GEN` does not get stuck, and no code it makes is longer than 255 bits (42_code_generator.md R164). -/
theorem genCodes_ok {t : Tree} (ht : TreeInv t) (hv : t.valid = true) :
    ∃ c, genCodes t = .ok c ∧ ∀ x, (symGet c x).length ≤ 255 := by
  cases hm : t.mode with
  | empty => exact ⟨emptyCodes, by simp [genCodes, hm], by simp [emptyCodes]⟩
  | single =>
    refine ⟨symSet emptyCodes t.singleSym [false], by simp [genCodes, hm], fun x => ?_⟩
    by_cases hx : x = t.singleSym
    · rw [hx, symGet_symSet_same]
      simp
    · rw [symGet_symSet_ne _ hx]
      simp [emptyCodes]
  | general =>
    obtain ⟨h', hg⟩ := ht.general hv hm
    refine ⟨_, genCodes_general hg hm, fun x => ?_⟩
    by_cases hx : symGet (recordCodes emptyCodes (h'.codes [])) x = []
    · simp [hx]
    · have h1 := HTree.length_of_mem_codes (genCodes_mem hg.leavesOnce hx)
      have h2 := hg.inner_length
      simp only [List.length_nil, maxDepth] at h1 h2
      omega

/-! ## Streams -/

/-- A cursor within a readable window meets the unpacker's invariant, open or closed. -/
theorem Readable.unpackerInv {cap : Word} {w : InBuf} {u : Unpacker} (h : Readable cap w u) : UnpackerInv w u :=
  ⟨fun _ => ⟨h.pos, h.fits⟩⟩

/-- What goes through `bp_put` keeps the packer's invariant. -/
theorem PackerInv.putAll {cap : Word} {p q : Packer} {bits : Bits} (h : PackerInv cap p) (ho : p.isOpen = true)
    (hq : bpPutAll cap p bits = .ok q) : PackerInv cap q := by
  rcases bpPutAll_cases bits h ho with ⟨q', h1, h2⟩ | h1
  · rw [h1] at hq
    exact Except.ok.inj hq ▸ h2
  · rw [h1] at hq
    exact absurd hq (raise_ne_ok _ _ _)

/-- A walk that is active in EMPTY mode is done (45_tree_walker.md R230). -/
theorem WalkerInv.done_of_empty {cap : Word} {t : Tree} {origLen : Len} {k : Walker} (h : WalkerInv cap t origLen k)
    (ha : k.active = true) (hm : t.mode = .empty) : k.done = true := by
  have h0 := h.emptyMode ha hm
  have h1 := (h.counted ha).2
  refine (h.done ha).2 (BitVec.eq_of_toNat_eq ?_)
  rw [h0] at h1 ⊢
  simpa using h1

end Sys2Proof.Machine
end

