-- ==== Sys2Proof/Laws/PerInstr.lean ====
section
/-! SUPPORT. Statements made per instruction, one lemma per constructor of `Instr`. -/

namespace Sys2Proof.Laws

/-- Family `ReservedBitsZero`: in a command's own word every reserved bit of `ARG` is 0, whatever the operands
(30_encoding.md R101, R105). -/
def ReservedBitsZero.Statement (i : Instr) : Prop := argField (encode i) &&& i.opcode.reserved = 0

/-- Two fields no bit of which is set in both. -/
theorem and_eq_zero_of_bits {x y : BitVec 24} (h : ∀ k < 24, y.getLsbD k = true → x.getLsbD k = false) : x &&& y = 0 := by
  apply BitVec.eq_of_getLsbD_eq
  intro k hk
  rw [BitVec.getLsbD_and]
  cases hy : y.getLsbD k
  · simp
  · simp [h k hk hy]

theorem ReservedBitsZero.of_arg_zero {i : Instr} (h : i.arg = 0) : ReservedBitsZero.Statement i := by
  unfold ReservedBitsZero.Statement
  rw [argField_encode, h]
  simp

theorem ReservedBitsZero.nop : ReservedBitsZero.Statement .nop := of_arg_zero rfl
theorem ReservedBitsZero.softReset : ReservedBitsZero.Statement .softReset := of_arg_zero rfl
theorem ReservedBitsZero.clrErr : ReservedBitsZero.Statement .clrErr := of_arg_zero rfl
theorem ReservedBitsZero.ioAbort : ReservedBitsZero.Statement .ioAbort := of_arg_zero rfl
theorem ReservedBitsZero.tbBuild : ReservedBitsZero.Statement .tbBuild := of_arg_zero rfl
theorem ReservedBitsZero.cgGen : ReservedBitsZero.Statement .cgGen := of_arg_zero rfl
theorem ReservedBitsZero.cgEmit : ReservedBitsZero.Statement .cgEmit := of_arg_zero rfl
theorem ReservedBitsZero.bpInit : ReservedBitsZero.Statement .bpInit := of_arg_zero rfl

theorem ReservedBitsZero.bpPutbits (n : BitVec 5) (v : BitVec 16) : ReservedBitsZero.Statement (.bpPutbits n v) := by
  unfold ReservedBitsZero.Statement
  rw [argField_encode]
  apply and_eq_zero_of_bits
  intro k hk
  simp only [Instr.opcode, Opcode.reserved, Instr.arg]
  rw [BitVec.getLsbD_append, BitVec.getLsbD_append]
  interval_cases k <;> simp

theorem ReservedBitsZero.bpPutsym (s : Sym) : ReservedBitsZero.Statement (.bpPutsym s) := by
  unfold ReservedBitsZero.Statement
  rw [argField_encode]
  apply and_eq_zero_of_bits
  intro k hk
  simp only [Instr.opcode, Opcode.reserved, Instr.arg]
  rw [BitVec.getLsbD_append]
  interval_cases k <;> simp

theorem ReservedBitsZero.bpFlush : ReservedBitsZero.Statement .bpFlush := of_arg_zero rfl
theorem ReservedBitsZero.buInit : ReservedBitsZero.Statement .buInit := of_arg_zero rfl

theorem ReservedBitsZero.buGet (n : BitVec 5) : ReservedBitsZero.Statement (.buGet n) := by
  unfold ReservedBitsZero.Statement
  rw [argField_encode]
  apply and_eq_zero_of_bits
  intro k hk
  simp only [Instr.opcode, Opcode.reserved, Instr.arg]
  rw [BitVec.getLsbD_append]
  interval_cases k <;> simp

theorem ReservedBitsZero.twCfg (m : Byte) (s : Sym) : ReservedBitsZero.Statement (.twCfg m s) := by
  unfold ReservedBitsZero.Statement
  rw [argField_encode]
  apply and_eq_zero_of_bits
  intro k hk
  simp only [Instr.opcode, Opcode.reserved, Instr.arg]
  rw [BitVec.getLsbD_append, BitVec.getLsbD_append]
  interval_cases k <;> simp

theorem ReservedBitsZero.twLoad : ReservedBitsZero.Statement .twLoad := of_arg_zero rfl
theorem ReservedBitsZero.twStart : ReservedBitsZero.Statement .twStart := of_arg_zero rfl
theorem ReservedBitsZero.twStep : ReservedBitsZero.Statement .twStep := of_arg_zero rfl
theorem ReservedBitsZero.twRun : ReservedBitsZero.Statement .twRun := of_arg_zero rfl

end Sys2Proof.Laws
end

