-- ==== Sys2Proof/Laws/Registers.lean ====
section
/-! SUPPORT. The register images as facts about bits: fields put side by side, and the 256-bit image of a code
(30_encoding.md R110, R111). -/

namespace Sys2Proof.Machine

/-- Two fields side by side, as a number. -/
theorem append_toNat {n m : Nat} (x : BitVec n) (y : BitVec m) : (x ++ y).toNat = x.toNat * 2 ^ m + y.toNat := by
  rw [BitVec.toNat_append, Nat.shiftLeft_eq, ← Nat.shiftLeft_eq, ← Nat.shiftLeft_add_eq_or_of_lt y.isLt, Nat.shiftLeft_eq]

theorem append_ofBool_getLsbD_zero {n : Nat} (x : BitVec n) (b : Bool) : (x ++ BitVec.ofBool b).getLsbD 0 = b := by
  rw [BitVec.getLsbD_append]
  simp

theorem append_ofBool_getLsbD_succ {n : Nat} (x : BitVec n) (b : Bool) (k : Nat) :
    (x ++ BitVec.ofBool b).getLsbD (k + 1) = x.getLsbD k := by
  simp [BitVec.getLsbD_append]

/-- Bit `k` of `STATUS` is the `k`-th flag, every bit above the eighth 0 (10_state.md R33). -/
theorem statusWord_getLsbD (s : State) (k : Nat) : (statusWord s).getLsbD k =
    ([s.running.isSome, s.seq == .error, s.tree.valid, s.codes.valid, s.bp.isOpen, s.bu.isOpen, s.tw.active,
      s.tw.done][k]?.getD false) := by
  rcases k with _ | _ | _ | _ | _ | _ | _ | _ | k <;>
    simp only [statusWord, append_ofBool_getLsbD_zero, append_ofBool_getLsbD_succ] <;> simp [State.busy, State.errorFlag]

/-- The image of the first `n` bits of a code, first bit on top. -/
theorem foldl_shiftIn_getLsbD (code : Bits) (n : Nat) (hn : n ≤ 256) (k : Nat) (hk : k < n) :
    ((List.range n).foldl (fun x i => shiftIn x (code.getD i false)) (0 : BitVec 256)).getLsbD (n - 1 - k) =
      code.getD k false := by
  induction n generalizing k with
  | zero => omega
  | succ n ih =>
    rw [List.range_succ, List.foldl_append]
    simp only [List.foldl_cons, List.foldl_nil]
    by_cases h : k = n
    · subst h
      rw [show k + 1 - 1 - k = 0 by omega, shiftIn_getLsbD_zero _ _ (by omega)]
    · rw [show n + 1 - 1 - k = (n - 1 - k) + 1 by omega, shiftIn_getLsbD_succ _ _ _ (by omega)]
      exact ih (by omega) k (by omega)

/-- Bit `i` of a code stands at bit `255 - i` of its image (30_encoding.md R111). -/
theorem codeImage_getLsbD (code : Bits) (i : Nat) (hi : i < 256) : (codeImage code).getLsbD (255 - i) = code.getD i false :=
  foldl_shiftIn_getLsbD code 256 (by omega) i hi

/-- Bit `i` of `CODE_BITSj` from the top is bit `32 j + i` of the code (30_encoding.md R111). -/
theorem codeWord_getLsbD (code : Bits) {j i : Nat} (hj : j < 8) (hi : i < 32) :
    (codeWord code j).getLsbD (31 - i) = code.getD (32 * j + i) false := by
  unfold codeWord
  rw [BitVec.getLsbD_extractLsb', ← codeImage_getLsbD _ _ (by omega)]
  simp only [show 31 - i < 32 by omega, decide_true, Bool.true_and]
  congr 1
  omega

end Sys2Proof.Machine
end

