-- ==== Sys2Proof/Machine/Procedures.lean ====
section
/-! DEFINITION. The host's reference procedures `ENCODE` and `DECODE` (47_host_procedures.md R265 to R274), written in the
script actions of 30_encoding.md R135 and R136 over the machine's own step, and the container's layout
(30_encoding.md R125 to R131). They are the host's programs, not part of the block (R265, log 19). -/

namespace Sys2Proof.Machine

/-- How a procedure of the host fails. -/
inductive HostFailure where
  /-- IoError: HUFFCORE's class 1 (R274), or the host's own, a count that does not fit `FREQ_W` (R266) or a container that
  does not fit `IBUF` (R270). -/
  | ioError
  /-- FormatError: HUFFCORE's class 2 (R274), or the host's own (R271 to R273). -/
  | formatError
  /-- CorruptDataError: HUFFCORE's class 3 (R274). -/
  | corruptDataError
  /-- HUFFCORE's class 4, UsageError: "the host's own mistake" (R269, R274). -/
  | hostMistake
  /-- The machine gave no next state, or one its rules exclude: an error of no class, a `TW_RUN` without error that leaves
  the walk not done (R274). -/
  | stopped
  deriving DecidableEq, Repr

/-- The failure value a class of HUFFCORE's errors is mapped to (47_host_procedures.md R274, R269). -/
def HostFailure.ofClass (cls : BitVec 4) : HostFailure :=
  if cls = 1 then .ioError else if cls = 2 then .formatError else if cls = 3 then .corruptDataError
  else if cls = 4 then .hostMistake else .stopped

/-- A script of the host: it acts on the machine, returns a value or fails. -/
abbrev Script (α : Type) := StateT State (Except HostFailure) α

/-- One operation of the host, with nothing in its busy window (it waits for `BUSY = 0`, 70_reset_and_hazards.md R340). -/
def perform (op : HostOp) : Script Unit := fun s =>
  match step { s with events := ⟨op, 0⟩ :: s.events } with
  | .next t => .ok ((), t)
  | .fault _ => .error .stopped
  | .refused _ => .error .stopped

/-- The procedure fails. -/
def failWith {α : Type} (f : HostFailure) : Script α := fun _ => .error f

/-- `wr REG, v` (30_encoding.md R135). -/
def wr (r : Reg) (v : Word) : Script Unit := perform (.write .word r.offset v)

/-- `rd REG` (30_encoding.md R135). -/
def rd (r : Reg) : Script Word := do
  perform (.read .word r.offset)
  let s ← get
  return s.rdata

/-- `cmd MNEMONIC operands`, and then the look at `STATUS.ERROR` after every command: in ERROR the procedure fails with the
value the class in `ERR[11:8]` is mapped to (30_encoding.md R135, 47_host_procedures.md R267, R274). -/
def cmd (i : Instr) : Script Unit := do
  wr .cmd (encode i)
  let status ← rd .status
  if status.getLsbD 1 then
    let err ← rd .err
    failWith (.ofClass (err.extractLsb' 8 4))

/-- `setfreq s, v` (30_encoding.md R136). -/
def setfreq (sym : Sym) (v : Word) : Script Unit := do
  wr .freqSel (sym.setWidth 32)
  wr .freqData v

/-- `ldibuf i, v` (30_encoding.md R136). -/
def ldibuf (i : Nat) (v : Byte) : Script Unit := do
  wr .ibufIdx (BitVec.ofNat 32 i)
  wr .ibufData (v.setWidth 32)

/-- `setibuf b0 b1 ...` (30_encoding.md R136). -/
def setibuf (bytes : List Byte) : Script Unit := do
  bytes.zipIdx.forM (fun x => ldibuf x.2 x.1)
  wr .ibufLen (BitVec.ofNat 32 bytes.length)

/-- `window base, limit` (30_encoding.md R136). -/
def window (base limit : Nat) : Script Unit := do
  wr .buBase (BitVec.ofNat 32 base)
  wr .buLimitLo (lowHalf (BitVec.ofNat 64 limit))
  wr .buLimitHi (highHalf (BitVec.ofNat 64 limit))
  cmd .buInit

/-- `setlen v` (30_encoding.md R136). -/
def setlen (v : Len) : Script Unit := do
  wr .origlenLo (lowHalf v)
  wr .origlenHi (highHalf v)

/-- `getobuf` (30_encoding.md R136). -/
def getobuf : Script (List Byte) := do
  let n ← rd .bpBytes
  (List.range n.toNat).mapM (fun i => do
    wr .obufIdx (BitVec.ofNat 32 i)
    let b ← rd .obufData
    return b.setWidth 8)

/-- `getsout` (30_encoding.md R136). -/
def getsout : Script (List Byte) := do
  let n ← rd .soutLen
  (List.range n.toNat).mapM (fun i => do
    wr .soutIdx (BitVec.ofNat 32 i)
    let b ← rd .soutData
    return b.setWidth 8)

/-- Magic and version, `48 55 46 01` (30_encoding.md R126). -/
def magic : List Byte := [0x48#8, 0x55#8, 0x46#8, 0x01#8]

/-- `be64(L)`: 8 bytes, most significant first (30_encoding.md R128, 47_host_procedures.md R267). -/
def be64 (x : Len) : List Byte := [7, 6, 5, 4, 3, 2, 1, 0].map (fun i => x.extractLsb' (8 * i) 8)

/-- The number 8 bytes stand for, most significant first (30_encoding.md R128). -/
def ofBe64 (bytes : List Byte) : Len := bytes.foldl (fun x b => (x <<< 8) ||| b.setWidth 64) 0

/-- All symbols, ascending. -/
def allSyms : List Sym := (List.range 256).map (BitVec.ofNat 8)

/-- `ENCODE(S)` (47_host_procedures.md R266, R267). -/
def encodeProc (input : List Byte) : Script (List Byte) := do
  if (allSyms.any (fun x => input.count x ≥ 2 ^ 32)) then failWith .ioError
  cmd .softReset
  (allSyms.filter (fun x => input.count x ≠ 0)).forM (fun x => setfreq x (BitVec.ofNat 32 (input.count x)))
  cmd .tbBuild
  let info ← rd .treeinfo
  let lo ← rd .origlenLo
  let hi ← rd .origlenHi
  let mode := info.extractLsb' 28 2
  let hdr := magic ++ [mode.setWidth 8] ++ be64 (hi ++ lo)
  if mode = 0 then return hdr
  if mode = 1 then
    let sym ← rd .single
    return hdr ++ [sym.setWidth 8]
  cmd .cgGen
  cmd .bpInit
  cmd .cgEmit
  cmd .bpFlush
  let description ← getobuf
  cmd .bpInit
  input.forM (fun x => cmd (.bpPutsym x))
  cmd .bpFlush
  let payload ← getobuf
  return hdr ++ description ++ payload

/-- The walk, and the look at `STATUS.TW_DONE` that must be 1 before `SOUT` is read (47_host_procedures.md R270, R274). -/
def runWalk : Script Unit := do
  cmd .twStart
  cmd .twRun
  let status ← rd .status
  if !status.getLsbD 7 then failWith .stopped

/-- The part of `DECODE` for a container of general mode, its bytes from offset 13 given (47_host_procedures.md R270,
R272: fewer than 8 bits may be left over). -/
def decodeGeneral (rest : List Byte) : Script (List Byte) := do
  let cap ← rd .capIbuf
  if rest.length > cap.toNat then failWith .ioError
  setibuf rest
  window 0 (8 * rest.length)
  cmd .twLoad
  let dlo ← rd .buPosLo
  let dhi ← rd .buPosHi
  let dbytes := ((dhi ++ dlo).toNat + 7) / 8
  window dbytes (8 * (rest.length - dbytes))
  runWalk
  let ulo ← rd .buPosLo
  let uhi ← rd .buPosHi
  if 8 * (rest.length - dbytes) - (uhi ++ ulo).toNat ≥ 8 then failWith .formatError
  getsout

/-- `DECODE(C)` (47_host_procedures.md R270 to R273). -/
def decodeProc (c : List Byte) : Script (List Byte) := do
  if c.length < 13 then failWith .formatError
  if c.take 4 ≠ magic then failWith .formatError
  let m := c.getD 4 0
  let len := ofBe64 ((c.drop 5).take 8)
  cmd .softReset
  if m = 0 ∧ c.length ≠ 13 then failWith .formatError
  if m = 1 ∧ c.length ≠ 14 then failWith .formatError
  cmd (.twCfg m (if m = 1 then c.getD 13 0 else 0))
  setlen len
  if m = 2 then decodeGeneral (c.drop 13)
  else
    runWalk
    getsout

end Sys2Proof.Machine
end

