-- ==== Sys2Proof/Tests/Slice0.lean ====
section
/-! SUPPORT. Tests of the model against words written out from spec/30_encoding.md and vectors of spec/95_test_vectors.md, the
smoke test of WellFormed, and for every obligation with hypotheses a concrete state and operands that meet them. -/

namespace Sys2Proof.Tests

open Sys2Proof Sys2Proof.Machine

-- Many small kernel evaluations: one after another, so that they do not wait for each other on threads of their own.
set_option Elab.async false

/-! ## Decoding: one word per command, opcode and operand fields written out from 30_encoding.md R101 and R102 -/

theorem test_decode_system :
    decode (0b00000000#8 ++ 0#24) = .ok .nop ∧ decode (0b00000001#8 ++ 0#24) = .ok .softReset ∧
    decode (0b00000010#8 ++ 0#24) = .ok .clrErr ∧ decode (0b00000011#8 ++ 0#24) = .ok .ioAbort := by decide +kernel

theorem test_decode_builder_and_codes :
    decode (0b00010000#8 ++ 0#24) = .ok .tbBuild ∧ decode (0b00100000#8 ++ 0#24) = .ok .cgGen ∧
    decode (0b00100001#8 ++ 0#24) = .ok .cgEmit := by decide +kernel

/-- `BP_PUTBITS 3, 5` is 0x31030005 (43_bit_packer.md R182), `BP_PUTSYM 'a'` 0x32000061. -/
theorem test_decode_packer :
    decode (0b00110000#8 ++ 0#24) = .ok .bpInit ∧
    decode (0b00110001#8 ++ 0b000#3 ++ 0b00011#5 ++ 0b0000000000000101#16) = .ok (.bpPutbits 3 5) ∧
    decode (0b00110010#8 ++ 0#16 ++ 0b01100001#8) = .ok (.bpPutsym 0x61) ∧
    decode (0b00110011#8 ++ 0#24) = .ok .bpFlush := by decide +kernel

theorem test_decode_unpacker :
    decode (0b01000000#8 ++ 0#24) = .ok .buInit ∧
    decode (0b01000001#8 ++ 0#19 ++ 0b10000#5) = .ok (.buGet 16) := by decide +kernel

/-- `TW_CFG 1, 'a'` is 0x50000161 (45_tree_walker.md R220). -/
theorem test_decode_walker :
    decode (0b01010000#8 ++ 0#8 ++ 0b00000001#8 ++ 0b01100001#8) = .ok (.twCfg 1 0x61) ∧
    decode (0b01010001#8 ++ 0#24) = .ok .twLoad ∧ decode (0b01010010#8 ++ 0#24) = .ok .twStart ∧
    decode (0b01010011#8 ++ 0#24) = .ok .twStep ∧ decode (0b01010100#8 ++ 0#24) = .ok .twRun := by decide +kernel

/-- Undefined opcodes next to defined ones, and single reserved bits (30_encoding.md R104, R105). -/
theorem test_decode_rejects :
    decode 0x04000000 = .error .illegalCmd ∧ decode 0x34000000 = .error .illegalCmd ∧
    decode 0x55000000 = .error .illegalCmd ∧ decode 0xFF000000 = .error .illegalCmd ∧
    decode 0x10000001 = .error .badArg ∧ decode 0x31200001 = .error .badArg ∧ decode 0x32000161 = .error .badArg ∧
    decode 0x41000020 = .error .badArg ∧ decode 0x50010000 = .error .badArg := by decide +kernel

theorem test_decodeTableWord :
    decodeTableWord 32 0x31030005 = some (.bpPutbits 3 5) ∧ decodeTableWord 32 0x54000000 = some .twRun ∧
    decodeTableWord 32 0x04000000 = none := by decide +kernel

/-! ## WellFormed: one ill-formed term for each check -/

theorem test_wf_refuses :
    (Instr.bpPutbits 17 0).wf = false ∧ (Instr.buGet 17).wf = false ∧ (Instr.twCfg 3 0).wf = false ∧
    (Instr.bpPutbits 16 0xFFFF).wf = true ∧ (Instr.buGet 16).wf = true ∧ (Instr.twCfg 2 0xFF).wf = true := by decide

/-! ## States to test on -/

/-- Reset with capacities given (95_test_vectors.md: 4096 is enough for every vector). -/
def start : State := { State.reset with caps := ⟨4096, 4096, 4096⟩ }

/-- A frequency table from pairs. -/
def table (l : List (Sym × Word)) : Vector Word 256 := l.foldl (fun t x => symSet t x.1 x.2) (Vector.replicate 256 0)

/-- The state with that frequency table. -/
def withFreq (l : List (Sym × Word)) : State := { start with freq := table l }

/-- An input buffer from bytes, its window from byte 0. -/
def bufOf (bytes : List Byte) (limit : Len) : InBuf :=
  ⟨bytes.zipIdx.foldl (fun m x => Memory.write m x.2 x.1) [], BitVec.ofNat 32 bytes.length, 0, limit⟩

/-- The state with an open unpacker on those bytes. -/
def reading (bytes : List Byte) (limit : Len) : State := { start with ibuf := bufOf bytes limit, bu := ⟨true, 0, 0⟩ }

/-- A field of the next state, if there is one. -/
def after {α : Type} (o : Host.Outcome State Fault Refusal) (f : State → α) : Option α :=
  match o with
  | .next t => some (f t)
  | .fault _ => none
  | .refused _ => none

/-- `ERR` and `ERRINFO`. -/
def errOf (t : State) : Word × Len := (errWord t.err, t.err.info)

/-! ## Vectors of 95_test_vectors.md, one step each -/

theorem test_nop_in_error : after (exec .nop { start with seq := .error, err := ⟨0x41, 4, 1⟩ }) errOf = some (0x441, 1) := by
  decide +kernel

theorem test_soft_reset : after (exec .softReset (withFreq [(97, 3)])) (fun t => symGet t.freq 97) = some 0 := by
  decide +kernel

theorem test_clr_err :
    after (exec .clrErr { start with seq := .error, err := ⟨0x41, 4, 1⟩ }) (fun t => (statusWord t, errOf t)) =
      some (0, 0, 0) := by decide +kernel

theorem test_io_abort : after (exec .ioAbort start) (fun t => (statusWord t, errOf t)) = some (2, 0x110, 0) := by
  decide +kernel

/-- V-T3 and V-T5: the tie-break puts the smaller index left. -/
theorem test_tb_build_tie :
    after (exec .tbBuild (withFreq [(97, 1), (98, 1), (99, 2)]))
      (fun t => (treeInfo t.tree, t.origLen, nodeGet t.tree.nodes 256, nodeGet t.tree.nodes 257)) =
      some (0x21010003, 4, ⟨97, 98, 2⟩, ⟨99, 256, 4⟩) := by decide +kernel

/-- V-T10: weights do not wrap at 32 bits. -/
theorem test_tb_build_wide :
    after (exec .tbBuild (withFreq [(0, 0xFFFFFFFF), (1, 0xFFFFFFFF)]))
      (fun t => (t.origLen, nodeGet t.tree.nodes 256)) = some (8589934590, ⟨0, 1, 8589934590⟩) := by decide +kernel

/-- V-T5: the codes "10", "11", "0". -/
theorem test_cg_gen :
    after (exec .cgGen { start with tree := buildTree (table [(97, 1), (98, 1), (99, 2)]) })
      (fun t => (statusWord t, symGet t.codes.entries 97, symGet t.codes.entries 98, symGet t.codes.entries 99)) =
      some (0xC, [true, false], [true, true], [false]) := by decide +kernel

/-- V-T3: the description's 19 bits, `58 6C` and the top of `40` in `BP_ACC`. -/
theorem test_cg_emit :
    after (exec .cgEmit { start with tree := buildTree (table [(97, 1), (98, 1)]), bp := ⟨true, 0, 0, []⟩ })
      (fun t => (t.bp.bitcnt, t.bp.obuf, t.bp.acc)) = some (19, [0x58, 0x6C], 0x40) := by decide +kernel

theorem test_bp_init : after (exec .bpInit start) statusWord = some 0x10 := by decide +kernel

/-- V-P1 step 5. -/
theorem test_bp_putbits :
    after (exec (.bpPutbits 16 0xABCD) { start with bp := ⟨true, 0xA0, 11, [0xBF]⟩ })
      (fun t => (t.bp.bitcnt, t.bp.obuf, t.bp.acc)) = some (27, [0xBF, 0xB5, 0x79], 0xA0) := by decide +kernel

/-- V-P4. -/
theorem test_bp_putbits_bad : after (exec (.bpPutbits 17 0) start) errOf = some (0x441, 0x31110000) := by decide +kernel

/-- V-P11: a symbol without a code. -/
theorem test_bp_putsym_no_code :
    after (exec (.bpPutsym 99) { start with bp := ⟨true, 0, 0, []⟩, codes := ⟨symSet emptyCodes 97 [false], true⟩ }) errOf =
      some (0x443, 0x63) := by decide +kernel

theorem test_bp_putsym :
    after (exec (.bpPutsym 98) { start with bp := ⟨true, 0, 1, []⟩, codes := ⟨symSet emptyCodes 98 [true], true⟩ })
      (fun t => (t.bp.bitcnt, t.bp.acc)) = some (2, 0x40) := by decide +kernel

/-- V-P1 step 7: the flush keeps `BP_BITCNT`. -/
theorem test_bp_flush :
    after (exec .bpFlush { start with bp := ⟨true, 0xA0, 27, [0xBF, 0xB5, 0x79]⟩ })
      (fun t => (t.bp.bitcnt, t.bp.obuf, t.bp.acc, statusWord t)) =
      some (27, [0xBF, 0xB5, 0x79, 0xA0], 0, 0) := by decide +kernel

/-- V-P8: the flush of a partial byte into a full buffer. -/
theorem test_bp_flush_full :
    after (exec .bpFlush { start with bp := ⟨true, 0x80, 17, [0x12, 0x34]⟩, caps := ⟨2, 4096, 4096⟩ }) errOf =
      some (0x111, 2) := by decide +kernel

/-- V-U3 and V-U1: one bit too many, and the exact fit. -/
theorem test_bu_init :
    after (exec .buInit (reading [0x58, 0x6C, 0x40] 25)) errOf = some (0x444, 0x19) ∧
    after (exec .buInit (reading [0x58, 0x6C, 0x40] 24)) statusWord = some 0x20 := by decide +kernel

/-- V-U1: 2 bits, then at 10 of 19 bits a request of 16 finds too few. -/
theorem test_bu_get :
    after (exec (.buGet 2) (reading [0x58, 0x6C, 0x40] 19)) (fun t => (t.bu.data, t.bu.pos)) = some (0x00020001, 2) ∧
    after (exec (.buGet 16) { reading [0x58, 0x6C, 0x40] 19 with bu := ⟨true, 10, 0⟩ }) (fun t => (t.bu.data, t.bu.pos)) =
      some (0x80000000, 10) := by decide +kernel

/-- V-U1: 9 bits from bit 10. -/
theorem test_bu_get_nine :
    after (exec (.buGet 9) { reading [0x58, 0x6C, 0x40] 19 with bu := ⟨true, 10, 0⟩ }) (fun t => (t.bu.data, t.bu.pos)) =
      some (0x00090162, 19) := by decide +kernel

/-- V-L2. -/
theorem test_tw_cfg_single :
    after (exec (.twCfg 1 0x61) start) (fun t => (statusWord t, treeInfo t.tree, t.tree.singleSym, nodeGet t.tree.nodes 256)) =
      some (4, 0x11000001, 0x61, ⟨97, 511, 0⟩) := by decide +kernel

/-- V-L4. -/
theorem test_tw_cfg_bad : after (exec (.twCfg 3 0) start) errOf = some (0x220, 0x50000300) := by decide +kernel

/-- V-L10: five leaves, internal nodes numbered in pre-order. -/
theorem test_tw_load :
    after (exec .twLoad (reading [0x58, 0x4B, 0x1D, 0x91, 0x62, 0xB9, 0x00] 56))
      (fun t => (treeInfo t.tree, t.bu.pos, nodeGet t.tree.nodes 257, nodeGet t.tree.nodes 259)) =
      some (0x21000005, 49, ⟨258, 259, 0⟩, ⟨98, 114, 0⟩) := by decide +kernel

/-- V-L12: a symbol twice. -/
theorem test_tw_load_dup : after (exec .twLoad (reading [0x58, 0x6C, 0x20] 24)) errOf = some (0x222, 0x13) := by
  decide +kernel

/-- V-L7's tree, `58 6C 40`: the leaves 97 and 98 under node 256. -/
def treeAB : Tree := ⟨nodeSet clearNodes 256 ⟨97, 98, 0⟩, 2, 256, .general, 0, true⟩

/-- V-W1 before step 2. -/
def walking : State :=
  { reading [0x40] 8 with tree := treeAB, origLen := 2, tw := ⟨true, false, 256, 0, []⟩ }

theorem test_tw_start :
    after (exec .twStart { reading [0x40] 8 with tree := treeAB, origLen := 2 }) (fun t => (statusWord t, t.tw.cur)) =
      some (0x64, 256) := by decide +kernel

/-- V-W1 step 2. -/
theorem test_tw_step :
    after (exec .twStep walking) (fun t => (statusWord t, t.tw.cur, t.bu.pos, t.tw.sout)) = some (0x64, 256, 1, [0x61]) := by
  decide +kernel

/-- V-W22: a walk goes on from where the cursor stands. -/
theorem test_tw_run_after_init :
    after (exec .twRun { walking with tw := ⟨true, false, 256, 1, [0x61]⟩ }) (fun t => (t.tw.sout, t.bu.pos, statusWord t)) =
      some ([0x61, 0x61], 1, 0xE4) := by decide +kernel

/-- V-W17 and V-W13. -/
theorem test_tw_run_single :
    after (exec .twRun { start with tree := cfgTree .single 97, origLen := 4, tw := ⟨true, false, 256, 0, []⟩ })
      (fun t => (t.tw.sout, statusWord t)) = some ([0x61, 0x61, 0x61, 0x61], 0xC4) ∧
    after (exec .twRun { start with tree := cfgTree .single 97, origLen := 4, tw := ⟨true, false, 256, 0, []⟩,
                                     caps := ⟨4096, 4096, 3⟩ }) errOf = some (0x112, 3) := by decide +kernel

/-- Every row of the opcode table runs as the first command after reset. -/
theorem test_first_command :
    ([0x00000000, 0x01000000, 0x02000000, 0x03000000, 0x10000000, 0x20000000, 0x21000000, 0x30000000, 0x31000000,
      0x32000000, 0x33000000, 0x40000000, 0x41000000, 0x50000000, 0x51000000, 0x52000000, 0x53000000, 0x54000000].all
      (fun w => (after (step (State.reset.withFetchWord 32 w)) (fun t => t.events.isEmpty)).getD false)) = true := by
  decide +kernel

/-! ## The host's procedures: the classes of 47_host_procedures.md R274 -/

/-- How a procedure ends: its failure or its result. -/
def ending {α : Type} (x : Script α) : Option HostFailure × Option α :=
  match x start with
  | .error f => (some f, none)
  | .ok (a, _) => (none, some a)

/-- Magic, version, a mode byte and a length below 256 (30_encoding.md R125 to R128). -/
def header (mode len : Byte) : List Byte := magic ++ [mode, 0, 0, 0, 0, 0, 0, 0, len]

/-- The container of "ab" (its description and payload: 95_test_vectors.md V-T3 and R232's example), and one that declares
more symbols than the payload holds. -/
theorem test_decode_proc :
    ending (decodeProc (header 2 2 ++ [0x58, 0x6C, 0x40, 0x40])) = (none, some [97, 98]) ∧
    ending (decodeProc (header 2 20 ++ [0x58, 0x6C, 0x40, 0x40])) = (some .corruptDataError, none) := by decide +kernel

/-- A mode byte that `TW_CFG` refuses; a command the host gives out of order; a stream of the host's that failed. -/
theorem test_host_failures :
    ending (decodeProc (header 3 0)) = (some .formatError, none) ∧ ending (cmd .cgGen) = (some .hostMistake, none) ∧
    ending (cmd .ioAbort) = (some .ioError, none) := by decide +kernel

/-! ## Witnesses: for every obligation with hypotheses, a state and operands that meet them -/

/-- The host's next operation is `op`. -/
def doing (s : State) (op : HostOp) : State := { s with events := [⟨op, 0⟩] }

/-- The host presents `c`. -/
def giving (s : State) (c : Word) (hold : Nat) : State := { s with events := [⟨.write .word Reg.cmd.offset c, hold⟩] }

/-- A state in ERROR. -/
def inError : State := abortRun .badArg 1 start

/-- The tree of `treeAB` as a tree. -/
def shapeAB : HTree := .node 256 (.leaf 97) (.leaf 98)

theorem general_treeAB : GeneralTree treeAB shapeAB where
  root := by decide
  rootInternal := by decide
  held := by decide +kernel
  leavesOnce := by decide
  innerOnce := by decide
  count := by decide
  inner := by decide +kernel
  others := fun i hi => by
    have h : i ≠ 256 := fun e => hi (by rw [e]; decide)
    show nodeGet (nodeSet clearNodes 256 _) i = _
    rw [nodeGet_nodeSet_ne _ h, nodeGet_clearNodes]

/-- The code table of `treeAB`. -/
def codesAB : CodeTable := ⟨symSet (symSet emptyCodes 97 [false]) 98 [true], true⟩

/-- A state within the invariants in which every unit is at work. -/
def busyState : State := { walking with codes := codesAB, bp := ⟨true, 0xA0, 3, []⟩, freq := table [(97, 1), (98, 1)] }

theorem treeInv_busyState : TreeInv busyState.tree :=
  ⟨fun _ h => absurd h (by decide), fun _ h => absurd h (by decide), fun _ _ => ⟨shapeAB, general_treeAB⟩⟩

theorem packerInv_busyState : PackerInv busyState.caps.obuf busyState.bp :=
  ⟨fun _ => by decide +kernel, fun h => absurd h (by decide), by decide⟩

theorem inbufInv_busyState : InBufInv busyState.caps.ibuf busyState.ibuf :=
  ⟨by decide +kernel, by decide +kernel, by decide +kernel⟩

theorem unpackerInv_busyState : UnpackerInv busyState.ibuf busyState.bu := ⟨fun _ => by decide +kernel⟩

theorem walkerInv_busyState : WalkerInv busyState.caps.sout busyState.tree busyState.origLen busyState.tw :=
  ⟨by decide, fun h => absurd h (by decide), fun _ => rfl, fun _ => by decide, fun _ => by decide,
    fun _ h => absurd h (by decide), fun _ _ => by decide⟩

theorem inv_busyState : busyState.Inv where
  tree := treeInv_busyState
  codes := by
    have hg := genCodes_general (t := treeAB) general_treeAB rfl
    refine ⟨fun _ => ⟨rfl, hg⟩, fun x => ?_⟩
    obtain ⟨c, hc, hl⟩ := genCodes_ok (t := treeAB) treeInv_busyState rfl
    obtain rfl : codesAB.entries = c := Except.ok.inj (hg.symm.trans hc)
    exact hl x
  packer := packerInv_busyState
  inbuf := inbufInv_busyState
  unpacker := unpackerInv_busyState
  walker := walkerInv_busyState
  err := ⟨fun _ => rfl, fun h => absurd h (by decide)⟩

theorem witness_EncodeOfDecode : decode 0x41000010 = .ok (.buGet 16) := by decide +kernel

theorem witness_UndefinedOpcodeIsIllegal :
    Presents (giving start 0xFF000000 0) 0xFF000000 0 [] ∧ (giving start 0xFF000000 0).seq = .idle ∧
    Presents (giving inError 0x04000000 0) 0x04000000 0 [] ∧ (giving inError 0x04000000 0).seq = .error ∧
    (∀ op ∈ allOpcodes, op.code ≠ opcField 0xFF000000) ∧ ∀ op ∈ allOpcodes, op.code ≠ opcField 0x04000000 :=
  ⟨⟨rfl, rfl, rfl⟩, rfl, ⟨rfl, rfl, rfl⟩, rfl, by decide +kernel, by decide +kernel⟩

theorem witness_BadOperandsAreRefused :
    Presents (giving start 0x00000001 0) 0x00000001 0 [] ∧ (giving start 0x00000001 0).seq = .idle ∧
    (Opcode.nop ∈ allOpcodes ∧ Opcode.nop.code = opcField 0x00000001 ∧ argField 0x00000001 &&& Opcode.nop.reserved ≠ 0) ∧
    Presents (giving start 0x31110000 0) 0x31110000 0 [] ∧ decode 0x31110000 = .ok (.bpPutbits 17 0) ∧
    Presents (giving start 0x41000011 0) 0x41000011 0 [] ∧ decode 0x41000011 = .ok (.buGet 17) ∧
    Presents (giving start 0x50000300 0) 0x50000300 0 [] ∧ decode 0x50000300 = .ok (.twCfg 3 0) :=
  ⟨⟨rfl, rfl, rfl⟩, rfl, by decide +kernel, ⟨rfl, rfl, rfl⟩, by decide +kernel, ⟨rfl, rfl, rfl⟩, by decide +kernel,
    ⟨rfl, rfl, rfl⟩, by decide +kernel⟩

theorem witness_StepRunsDecodedCommand :
    decode 0x30000000 = .ok .bpInit ∧ Presents (giving start 0x30000000 0) 0x30000000 0 [] :=
  ⟨by decide +kernel, rfl, rfl, rfl⟩

/-- Words that are acted on, one that raises included; windows that are over, on a command, an undefined opcode and a reserved
bit. -/
theorem witness_BusyRisesThenCommandCompletes :
    (Presents (giving start 0x10000000 3) 0x10000000 3 [] ∧ (giving start 0x10000000 3).seq = .idle) ∧
    Presents (giving inError 0x02000000 1) 0x02000000 1 [] ∧
    (WindowOver { giving start 0 0 with running := some ⟨.command 0x10000000, 0⟩ } (.command 0x10000000) ∧
      WindowOver { start with running := some ⟨.command 0x10000000, 2⟩ } (.command 0x10000000) ∧
      decode 0x10000000 = .ok .tbBuild) ∧
    (WindowOver { start with running := some ⟨.command 0xFF000000, 0⟩ } (.command 0xFF000000) ∧ start.seq = .idle ∧
      ∀ op ∈ allOpcodes, op.code ≠ opcField 0xFF000000) ∧
    Opcode.buGet ∈ allOpcodes ∧ Opcode.buGet.code = opcField 0x41000020 ∧
      argField 0x41000020 &&& Opcode.buGet.reserved ≠ 0 :=
  ⟨⟨⟨rfl, rfl, rfl⟩, rfl⟩, ⟨rfl, rfl, rfl⟩, ⟨⟨0, rfl, .inl rfl⟩, ⟨2, rfl, .inr rfl⟩, by decide +kernel⟩,
    ⟨⟨0, rfl, .inl rfl⟩, rfl, by decide +kernel⟩, by decide +kernel, by decide +kernel, by decide +kernel⟩

/-- A busy window with one host operation to serve. -/
def window (op : HostOp) : State := { doing start op with running := some ⟨.command 0x10000000, 1⟩ }

theorem witness_HostAccessWhileBusy :
    (window (.read .word Reg.id.offset)).running = some ⟨.command 0x10000000, 0 + 1⟩ ∧
    (window (.read .word Reg.id.offset)).events = [⟨.read .word Reg.id.offset, 0⟩] ∧
    (window (.read .word Reg.status.offset)).events = [⟨.read .word Reg.status.offset, 0⟩] ∧
    (window (.write .word Reg.cmd.offset 0x01000000)).events = [⟨.write .word Reg.cmd.offset 0x01000000, 0⟩] :=
  ⟨rfl, rfl, rfl, rfl⟩

theorem witness_ErrorStateIgnoresOtherWords :
    Presents (giving inError 0x02000001 0) 0x02000001 0 [] ∧ (giving inError 0x02000001 0).seq = .error ∧
    (0x02000001#32 ≠ 0x00000000#32 ∧ 0x02000001#32 ≠ 0x01000000#32 ∧ 0x02000001#32 ≠ 0x02000000#32) :=
  ⟨⟨rfl, rfl, rfl⟩, rfl, by decide⟩

theorem witness_ErrorsAreNotNested : inError.seq = .error := rfl

theorem witness_ErrorsArePrecise : start.seq = .idle ∧ exec .ioAbort start = .next (abortRun .ioAbort 0 start) ∧
    exec .bpInit start = .next { start with bp := ⟨true, 0, 0, []⟩ } := ⟨rfl, rfl, rfl⟩

theorem witness_WalkoffIsUnreachable : busyState.Inv ∧ busyState.seq = .idle ∧ exec .nop busyState = .next busyState :=
  ⟨inv_busyState, rfl, rfl⟩

/-- A reset at rest, one inside a busy window, one with a clearing window, and a clearing that is over. -/
theorem witness_SoftResetEqualsHardReset :
    (doing busyState .hardReset).events = [⟨.hardReset, 0⟩] ∧ (∀ w, (doing busyState .hardReset).running ≠ some ⟨w, 0⟩) ∧
    (∀ w, (window .hardReset).running ≠ some ⟨w, 0⟩) ∧
    ({ busyState with events := [⟨.hardReset, 2⟩] } : State).events = [⟨.hardReset, 2⟩] ∧
    WindowOver { busyState with running := some ⟨.clearing, 0⟩ } .clearing :=
  ⟨rfl, fun _ => nofun, fun _ => nofun, rfl, 0, rfl, .inl rfl⟩

theorem witness_NopClrErrIoAbort : start.seq = .idle ∧ inError.seq = .error := ⟨rfl, rfl⟩

/-- Power-up at rest, in a busy window and while a reset is awaited; then a reset, a read and a write. -/
theorem witness_NoAccessBeforeReset :
    ((doing start .powerUp).events = [⟨.powerUp, 0⟩] ∧ (∀ w, (doing start .powerUp).running ≠ some ⟨w, 0⟩)) ∧
    ((window .powerUp).events = [⟨.powerUp, 0⟩] ∧ (∀ w, (window .powerUp).running ≠ some ⟨w, 0⟩)) ∧
    ((powerUp (doing start .powerUp)).events = [⟨.powerUp, 0⟩] ∧
      (∀ w, (powerUp (doing start .powerUp)).running ≠ some ⟨w, 0⟩)) ∧
    (powerUp (doing start .hardReset)).running = none ∧ (powerUp (doing start .hardReset)).awaitingReset = true ∧
    (powerUp (doing start .hardReset)).events = [⟨.hardReset, 0⟩] ∧
    (powerUp (doing start (.read .word 0))).events = [⟨.read .word 0, 0⟩] ∧
    (powerUp (doing start (.write .word 4 0))).events = [⟨.write .word 4 0, 0⟩] :=
  ⟨⟨rfl, fun _ => nofun⟩, ⟨rfl, fun _ => nofun⟩, ⟨rfl, fun _ => nofun⟩, rfl, rfl, rfl, rfl, rfl⟩

/-- 70_reset_and_hazards.md R330 (b): power-up awaits a reset. -/
theorem test_power_up : after (step (doing start .powerUp)) (fun t => t.awaitingReset) = some true := by decide +kernel

theorem witness_TbBuildEmptyTable : start.seq = .idle ∧ ∀ x, symGet start.freq x = 0 := ⟨rfl, fun x => symGet_replicate 0 x⟩

theorem witness_TbBuildSingleSymbol :
    (withFreq [(255, 4)]).seq = .idle ∧ symGet (withFreq [(255, 4)]).freq 255 ≠ 0 ∧
    ∀ y, y ≠ 255 → symGet (withFreq [(255, 4)]).freq y = 0 :=
  ⟨rfl, by decide +kernel, fun y hy => (symGet_symSet_ne _ hy _).trans (symGet_replicate 0 y)⟩

theorem witness_TbBuildGeneralTree : busyState.seq = .idle ∧ 2 ≤ distinctSyms busyState.freq := ⟨rfl, by decide +kernel⟩

/-- Two nodes of equal weight: the tie-break decides. -/
theorem witness_MergeTakesTheTwoLeast :
    (2 ≤ [QNode.mk 1 98, QNode.mk 1 97].length ∧ ([QNode.mk 1 98, QNode.mk 1 97].map QNode.idx).Nodup) ∧
    busyState.seq = .idle ∧ 2 ≤ distinctSyms busyState.freq := ⟨by decide, rfl, by decide +kernel⟩

theorem witness_TbBuildCostIdentity :
    busyState.seq = .idle ∧ 2 ≤ distinctSyms busyState.freq ∧ ∃ t, exec .tbBuild busyState = .next t :=
  ⟨rfl, by decide +kernel, _, rfl⟩

theorem witness_CgGenGivesPathCodes :
    busyState.seq = .idle ∧ busyState.tree.valid = true ∧ busyState.tree.mode = .general ∧ GeneralTree busyState.tree shapeAB :=
  ⟨rfl, rfl, rfl, general_treeAB⟩

theorem witness_CgGenSpecialModes :
    (({ start with tree := cfgTree .single 97 } : State).tree.valid = true ∧ (cfgTree .single 97).mode = .single) ∧
    ({ start with tree := cfgTree .empty 0 } : State).tree.valid = true ∧ (cfgTree .empty 0).mode = .empty :=
  ⟨⟨rfl, rfl⟩, rfl, rfl⟩

theorem witness_CgNeedsItsTree :
    start.seq = .idle ∧ start.tree.valid = false ∧ (cfgTree .single 97).mode ≠ .general ∧ start.bp.isOpen = false :=
  ⟨rfl, rfl, by decide, rfl⟩

theorem witness_CodesArePrefixFree :
    busyState.Inv ∧ busyState.codes.valid = true ∧ (97#8 ≠ 98#8) ∧ symGet busyState.codes.entries 97 ≠ [] ∧
    symGet busyState.codes.entries 98 ≠ [] := ⟨inv_busyState, rfl, by decide, by decide +kernel, by decide +kernel⟩

theorem witness_CodesAreComplete : busyState.Inv ∧ busyState.codes.valid = true ∧ busyState.tree.mode = .general :=
  ⟨inv_busyState, rfl, rfl⟩

theorem witness_CgEmitAppendsDescription :
    busyState.seq = .idle ∧ busyState.tree.valid = true ∧ busyState.tree.mode = .general ∧
    GeneralTree busyState.tree shapeAB ∧ busyState.bp.isOpen = true ∧ PackerInv busyState.caps.obuf busyState.bp ∧
    (busyState.bp.bitcnt.toNat + (10 * busyState.tree.k.toNat - 1)) / 8 ≤ busyState.caps.obuf.toNat :=
  ⟨rfl, rfl, rfl, general_treeAB, rfl, packerInv_busyState, by decide⟩

theorem witness_BpInitOpensEmpty : start.seq = .idle := rfl

/-- A packer with room for one byte, 7 bits of it used: the ninth bit does not complete a byte more. -/
def tightPacker : State := { busyState with bp := ⟨true, 0xFE, 7, []⟩, caps := ⟨1, 4096, 4096⟩ }

theorem packerInv_tightPacker : PackerInv tightPacker.caps.obuf tightPacker.bp :=
  ⟨fun _ => by decide +kernel, fun h => absurd h (by decide), by decide⟩

theorem witness_PutBitsAppends :
    tightPacker.seq = .idle ∧ (8#5).toNat ≤ 16 ∧ tightPacker.bp.isOpen = true ∧
    PackerInv tightPacker.caps.obuf tightPacker.bp ∧
    (tightPacker.bp.bitcnt.toNat + (8#5).toNat) / 8 ≤ tightPacker.caps.obuf.toNat :=
  ⟨rfl, by decide, rfl, packerInv_tightPacker, by decide⟩

theorem witness_PutSymAppends :
    busyState.seq = .idle ∧ busyState.bp.isOpen = true ∧ busyState.codes.valid = true ∧
    symGet busyState.codes.entries 98 ≠ [] ∧ PackerInv busyState.caps.obuf busyState.bp ∧
    (busyState.bp.bitcnt.toNat + (symGet busyState.codes.entries 98).length) / 8 ≤ busyState.caps.obuf.toNat :=
  ⟨rfl, rfl, rfl, by decide +kernel, packerInv_busyState, by decide +kernel⟩

theorem witness_PackerPreconditions :
    start.seq = .idle ∧ (16#5).toNat ≤ 16 ∧ start.bp.isOpen = false ∧ busyState.bp.isOpen = true ∧
    busyState.codes.valid = true ∧ symGet busyState.codes.entries 99 = [] ∧
    (({ busyState with codes := CodeTable.reset } : State).codes.valid = false) :=
  ⟨rfl, by decide, rfl, rfl, rfl, by decide +kernel, rfl⟩

/-- A packer one whole byte long with its buffer full. -/
def fullPacker : State := { busyState with bp := ⟨true, 0xFE, 15, [0xFF]⟩, caps := ⟨1, 4096, 4096⟩ }

theorem witness_PackerRaisesWhenFull :
    fullPacker.seq = .idle ∧ fullPacker.bp.isOpen = true ∧ PackerInv fullPacker.caps.obuf fullPacker.bp ∧
    fullPacker.caps.obuf.toNat < (fullPacker.bp.bitcnt.toNat + (1#5).toNat) / 8 ∧
    (fullPacker.codes.valid = true ∧ symGet fullPacker.codes.entries 97 ≠ [] ∧
      fullPacker.caps.obuf.toNat < (fullPacker.bp.bitcnt.toNat + (symGet fullPacker.codes.entries 97).length) / 8) ∧
    (fullPacker.tree.valid = true ∧ fullPacker.tree.mode = .general ∧ GeneralTree fullPacker.tree shapeAB ∧
      fullPacker.caps.obuf.toNat < (fullPacker.bp.bitcnt.toNat + (10 * fullPacker.tree.k.toNat - 1)) / 8) ∧
    fullPacker.caps.obuf.toNat < (fullPacker.bp.bitcnt.toNat + 7) / 8 :=
  ⟨rfl, rfl, ⟨fun _ => by decide +kernel, fun h => absurd h (by decide), by decide⟩, by decide,
    ⟨rfl, by decide +kernel, by decide +kernel⟩, ⟨rfl, rfl, general_treeAB, by decide⟩, by decide⟩

theorem witness_FlushPadsAndCloses :
    tightPacker.seq = .idle ∧ tightPacker.bp.isOpen = true ∧ PackerInv tightPacker.caps.obuf tightPacker.bp ∧
    (tightPacker.bp.bitcnt.toNat + 7) / 8 ≤ tightPacker.caps.obuf.toNat :=
  ⟨rfl, rfl, packerInv_tightPacker, by decide⟩

/-- The window that ends with the last valid bit, and the one a bit longer. -/
theorem witness_BuInitOpensOrRefuses :
    8 * (reading [0x40] 8).ibuf.base.toNat + (reading [0x40] 8).ibuf.limit.toNat ≤ 8 * (reading [0x40] 8).ibuf.len.toNat ∧
    8 * (reading [0x40] 9).ibuf.len.toNat < 8 * (reading [0x40] 9).ibuf.base.toNat + (reading [0x40] 9).ibuf.limit.toNat := by
  decide +kernel

theorem witness_BuGetTakesBits :
    busyState.seq = .idle ∧ (8#5).toNat ≤ 16 ∧ busyState.bu.isOpen = true ∧ UnpackerInv busyState.ibuf busyState.bu ∧
    InBufInv busyState.caps.ibuf busyState.ibuf ∧ (8#5).toNat ≤ (unread busyState.ibuf busyState.bu).length :=
  ⟨rfl, by decide, rfl, unpackerInv_busyState, inbufInv_busyState, by decide +kernel⟩

theorem witness_BuGetAtTheEnd :
    busyState.seq = .idle ∧ (9#5).toNat ≤ 16 ∧ busyState.bu.isOpen = true ∧
    busyState.ibuf.limit.toNat - busyState.bu.pos.toNat < (9#5).toNat ∧ start.bu.isOpen = false :=
  ⟨rfl, by decide, rfl, by decide +kernel, rfl⟩

theorem witness_TwCfgModes : start.seq = .idle := rfl

/-- An unpacker on a description: `58 6C 40`, 19 bits and 5 after them. -/
def loading : State := reading [0x58, 0x6C, 0x40] 24

theorem inbufInv_loading : InBufInv loading.caps.ibuf loading.ibuf := ⟨by decide +kernel, by decide +kernel, by decide +kernel⟩

theorem unpackerInv_loading : UnpackerInv loading.ibuf loading.bu := ⟨fun _ => by decide +kernel⟩

theorem witness_TwLoadReadsDescription :
    loading.seq = .idle ∧ loading.bu.isOpen = true ∧ UnpackerInv loading.ibuf loading.bu ∧
    InBufInv loading.caps.ibuf loading.ibuf ∧ shapeAB.leaves.Nodup ∧ shapeAB.desc <+: unread loading.ibuf loading.bu :=
  ⟨rfl, rfl, unpackerInv_loading, inbufInv_loading, by decide, by decide +kernel⟩

/-- 256 markers 0: every one opens an internal node (45_tree_walker.md R226). -/
def manyMarkers : State := reading (List.replicate 32 0) 256

/-- The hypotheses on the state, on two streams: `58 6C 20`, the symbol 97 twice (V-L12), and 256 internal nodes. -/
theorem witness_TwLoadAcceptsOnlyTrees :
    ((reading [0x58, 0x6C, 0x20] 24).seq = .idle ∧ (reading [0x58, 0x6C, 0x20] 24).bu.isOpen = true ∧
      UnpackerInv (reading [0x58, 0x6C, 0x20] 24).ibuf (reading [0x58, 0x6C, 0x20] 24).bu ∧
      InBufInv (reading [0x58, 0x6C, 0x20] 24).caps.ibuf (reading [0x58, 0x6C, 0x20] 24).ibuf) ∧
    ((HTree.node 256 (.leaf 97) (.leaf 97)).desc <+:
        unread (reading [0x58, 0x6C, 0x20] 24).ibuf (reading [0x58, 0x6C, 0x20] 24).bu ∧
      (HTree.node 256 (.leaf 97) (.leaf 97)).leaves.length ≤ 256 ∧ ¬ (HTree.node 256 (.leaf 97) (.leaf 97)).leaves.Nodup) ∧
    (FaultFree [.inner, .leaf 97] ∧ 97 ∈ tokenLeaves [.inner, .leaf 97] ∧
      tokenBits ([.inner, .leaf 97] ++ [.leaf 97]) <+:
        unread (reading [0x58, 0x6C, 0x20] 24).ibuf (reading [0x58, 0x6C, 0x20] 24).bu) ∧
    (UnpackerInv manyMarkers.ibuf manyMarkers.bu ∧ InBufInv manyMarkers.caps.ibuf manyMarkers.ibuf) ∧
    FaultFree (List.replicate 255 .inner) ∧ tokenInner (List.replicate 255 .inner) = 255 ∧
    tokenBits (List.replicate 255 .inner ++ [.inner]) <+: unread manyMarkers.ibuf manyMarkers.bu :=
  ⟨⟨rfl, rfl, ⟨fun _ => by decide +kernel⟩, ⟨by decide +kernel, by decide +kernel, by decide +kernel⟩⟩,
    ⟨by decide +kernel, by decide, by decide⟩,
    ⟨⟨rfl, by decide, by decide, by decide⟩, by decide, by decide +kernel⟩,
    ⟨⟨fun _ => by decide +kernel⟩, ⟨by decide +kernel, by decide +kernel, by decide +kernel⟩⟩,
    ⟨rfl, by decide +kernel, by decide +kernel, by decide +kernel⟩, by decide +kernel, by decide +kernel⟩

/-- 45_tree_walker.md R226: the 256th internal node is refused right after its marker. -/
theorem test_tw_load_big : after (exec .twLoad manyMarkers) errOf = some (0x225, 256) := by decide +kernel

theorem witness_TwLoadFirstMarker :
    start.bu.isOpen = false ∧
    ((reading [] 0).bu.isOpen = true ∧ (reading [] 0).bu.pos = (reading [] 0).ibuf.limit) ∧
    (UnpackerInv (reading [0xB0] 8).ibuf (reading [0xB0] 8).bu ∧ InBufInv (reading [0xB0] 8).caps.ibuf (reading [0xB0] 8).ibuf ∧
      (unread (reading [0xB0] 8).ibuf (reading [0xB0] 8).bu).head? = some true) :=
  ⟨rfl, ⟨rfl, rfl⟩, ⟨fun _ => by decide +kernel⟩, ⟨by decide +kernel, by decide +kernel, by decide +kernel⟩, by decide +kernel⟩

theorem witness_TwStartBegins :
    (busyState.seq = .idle ∧ busyState.tree.valid = true ∧ busyState.bu.isOpen = true) ∧ start.tree.valid = false ∧
    (({ busyState with bu := Unpacker.reset } : State).tree.mode = .general ∧
      ({ busyState with bu := Unpacker.reset } : State).bu.isOpen = false) ∧
    (cfgTree .empty 0).valid = true ∧ (cfgTree .empty 0).mode = .empty ∧ busyState.origLen ≠ 0 :=
  ⟨⟨rfl, rfl, rfl⟩, rfl, ⟨rfl, rfl⟩, rfl, rfl, by decide⟩

theorem witness_TwStepAndRunPreconditions :
    start.tw.active = false ∧ ({ busyState with tw := ⟨true, true, 256, 2, [97, 98]⟩ } : State).tw.done = true ∧
    (({ busyState with bu := Unpacker.reset } : State).tree.mode = .general ∧
      ({ busyState with bu := Unpacker.reset } : State).tw.done = false ∧
      ({ busyState with bu := Unpacker.reset } : State).bu.isOpen = false) := ⟨rfl, rfl, rfl, rfl, rfl⟩

/-- A walk of three copies with room for three. -/
def copying : State :=
  { start with tree := cfgTree .single 97, origLen := 3, tw := ⟨true, false, 256, 2, [97, 97]⟩, caps := ⟨1, 1, 3⟩ }

theorem witness_TwStepSingleMode :
    (copying.seq = .idle ∧ copying.tw.active = true ∧ copying.tw.done = false ∧ copying.tree.mode = .single) ∧
    copying.tw.sout.length < copying.caps.sout.toNat ∧
    ({ copying with caps := ⟨1, 1, 2⟩ } : State).tw.sout.length = ({ copying with caps := ⟨1, 1, 2⟩ } : State).caps.sout.toNat :=
  ⟨⟨rfl, rfl, rfl, rfl⟩, by decide, by decide⟩

/-- A root with the leaf 97 on 0 and node 257 on 1, over a stream that begins with 1. -/
def deepState : State :=
  { busyState with
    tree := ⟨nodeSet (nodeSet clearNodes 256 ⟨97, 257, 0⟩) 257 ⟨98, 99, 0⟩, 3, 256, .general, 0, true⟩
    ibuf := bufOf [0x80] 8 }

/-- The end of the stream, an edge to a leaf with room and without, and an edge to an internal node. -/
theorem witness_TwStepGeneralMode :
    (busyState.seq = .idle ∧ busyState.tw.active = true ∧ busyState.tw.done = false ∧ busyState.tree.mode = .general ∧
      busyState.bu.isOpen = true ∧ UnpackerInv busyState.ibuf busyState.bu ∧ InBufInv busyState.caps.ibuf busyState.ibuf) ∧
    (UnpackerInv busyState.ibuf ⟨true, 8, 0⟩ ∧ unread busyState.ibuf ⟨true, 8, 0⟩ = []) ∧
    (unread busyState.ibuf busyState.bu = false :: [true, false, false, false, false, false, false] ∧
      (nodeGet busyState.tree.nodes busyState.tw.cur).left = leafIdx 97 ∧
      busyState.tw.sout.length < busyState.caps.sout.toNat) ∧
    (deepState.seq = .idle ∧ deepState.tw.active = true ∧ deepState.tw.done = false ∧ deepState.tree.mode = .general ∧
      deepState.bu.isOpen = true ∧ UnpackerInv deepState.ibuf deepState.bu ∧ InBufInv deepState.caps.ibuf deepState.ibuf ∧
      unread deepState.ibuf deepState.bu = true :: [false, false, false, false, false, false, false] ∧
      isInternal (nodeGet deepState.tree.nodes deepState.tw.cur).right = true) ∧
    ({ busyState with caps := ⟨1, 1, 0⟩ } : State).tw.sout.length = ({ busyState with caps := ⟨1, 1, 0⟩ } : State).caps.sout.toNat :=
  ⟨⟨rfl, rfl, rfl, rfl, rfl, unpackerInv_busyState, inbufInv_busyState⟩, ⟨⟨fun _ => by decide +kernel⟩, by decide +kernel⟩,
    by decide +kernel, ⟨rfl, rfl, rfl, rfl, rfl, ⟨fun _ => by decide +kernel⟩,
      ⟨by decide +kernel, by decide +kernel, by decide +kernel⟩, by decide +kernel, by decide +kernel⟩, by decide⟩

theorem witness_TwRunSingleMode :
    copying.seq = .idle ∧ copying.tw.active = true ∧ copying.tree.mode = .single ∧
    WalkerInv copying.caps.sout copying.tree copying.origLen copying.tw ∧ copying.origLen.toNat ≤ copying.caps.sout.toNat :=
  ⟨rfl, rfl, rfl, ⟨by decide, fun h => absurd h (by decide), fun _ => rfl, fun _ => by decide, fun _ => by decide,
    fun _ h => absurd h (by decide), fun _ h => absurd h (by decide)⟩, by decide⟩

/-- V-W1: the payload of "ab" and six padding bits. -/
theorem witness_TwRunDecodesPayload :
    (busyState.seq = .idle ∧ busyState.tw.active = true ∧ busyState.tree.mode = .general ∧ busyState.bu.isOpen = true ∧
      GeneralTree busyState.tree shapeAB ∧ UnpackerInv busyState.ibuf busyState.bu ∧
      InBufInv busyState.caps.ibuf busyState.ibuf ∧
      WalkerInv busyState.caps.sout busyState.tree busyState.origLen busyState.tw) ∧
    busyState.tw.cur = busyState.tree.root ∧ (∀ x ∈ [(97#8, [false]), (98#8, [true])], x ∈ shapeAB.codes []) ∧
    unread busyState.ibuf busyState.bu =
      [(97#8, [false]), (98#8, [true])].flatMap Prod.snd ++ [false, false, false, false, false, false] ∧
    busyState.tw.count.toNat + 2 = busyState.origLen.toNat ∧ busyState.origLen.toNat ≤ busyState.caps.sout.toNat :=
  ⟨⟨rfl, rfl, rfl, rfl, general_treeAB, unpackerInv_busyState, inbufInv_busyState, walkerInv_busyState⟩, rfl,
    by decide, by decide +kernel, by decide, by decide⟩

/-- A tree over three symbols with the codes "10", "11", "0" (V-T5), the bit 1 walked, `110000` left. -/
def insideCode : State :=
  { reading [0xE0] 7 with
    tree := ⟨nodeSet (nodeSet clearNodes 256 ⟨97, 98, 2⟩) 257 ⟨99, 256, 4⟩, 3, 257, .general, 0, true⟩
    origLen := 2
    bu := ⟨true, 1, 0⟩
    tw := ⟨true, false, 256, 0, []⟩ }

/-- The shape of that tree. -/
def shapeABC : HTree := .node 257 (.leaf 99) (.node 256 (.leaf 97) (.leaf 98))

theorem general_insideCode : GeneralTree insideCode.tree shapeABC where
  root := by decide
  rootInternal := by decide
  held := by decide +kernel
  leavesOnce := by decide
  innerOnce := by decide
  count := by decide
  inner := by decide +kernel
  others := fun i hi => by
    have h1 : i ≠ 256 := fun e => hi (by rw [e]; decide)
    have h2 : i ≠ 257 := fun e => hi (by rw [e]; decide)
    show nodeGet (nodeSet (nodeSet clearNodes 256 _) 257 _) i = _
    rw [nodeGet_nodeSet_ne _ h2, nodeGet_nodeSet_ne _ h1, nodeGet_clearNodes]

/-- The clause of a walk inside the tree: "1" completes the code of 98, then the code of 97. -/
theorem witness_TwRunDecodesPayload_inside :
    (insideCode.seq = .idle ∧ insideCode.tw.active = true ∧ insideCode.tree.mode = .general ∧ insideCode.bu.isOpen = true ∧
      GeneralTree insideCode.tree shapeABC ∧ UnpackerInv insideCode.ibuf insideCode.bu ∧
      InBufInv insideCode.caps.ibuf insideCode.ibuf ∧
      WalkerInv insideCode.caps.sout insideCode.tree insideCode.origLen insideCode.tw) ∧
    (∀ x ∈ [(97#8, [true, false])], x ∈ shapeABC.codes []) ∧ insideCode.origLen.toNat ≤ insideCode.caps.sout.toNat ∧
    shapeABC.subtreeAt [true] = some (.node 256 (.leaf 97) (.leaf 98)) ∧
    insideCode.tw.cur = (HTree.node 256 (.leaf 97) (.leaf 98)).root ∧ [true] ≠ [] ∧
    (98#8, [true] ++ [true]) ∈ shapeABC.codes [] ∧
    unread insideCode.ibuf insideCode.bu = [true] ++ [(97#8, [true, false])].flatMap Prod.snd ++ [false, false, false] ∧
    insideCode.tw.count.toNat + (1 + 1) = insideCode.origLen.toNat :=
  ⟨⟨rfl, rfl, rfl, rfl, general_insideCode, ⟨fun _ => by decide +kernel⟩,
      ⟨by decide +kernel, by decide +kernel, by decide +kernel⟩,
      ⟨by decide, fun h => absurd h (by decide), fun _ => rfl, fun _ => by decide, fun _ => by decide,
        fun _ h => absurd h (by decide), fun _ _ => by decide⟩⟩,
    by decide, by decide, rfl, rfl, by decide, by decide, by decide +kernel, by decide⟩

theorem witness_TwRunAlwaysEnds :
    busyState.Inv ∧ busyState.seq = .idle ∧ busyState.tw.active = true ∧ busyState.tree.mode = .general ∧
    busyState.tw.done = false ∧ busyState.bu.isOpen = true := ⟨inv_busyState, rfl, rfl, rfl, rfl, rfl⟩

/-- The walk of `insideCode` where the stream has ended. -/
def cutState : State := { insideCode with ibuf := bufOf [0xE0] 1 }

theorem inv_cutState : cutState.Inv where
  tree := ⟨fun _ h => absurd h (by decide), fun _ h => absurd h (by decide), fun _ _ => ⟨shapeABC, general_insideCode⟩⟩
  codes := ⟨fun h => absurd h (by decide), fun x => by
    show (symGet emptyCodes x).length ≤ 255
    rw [emptyCodes, symGet_replicate]
    decide⟩
  packer := ⟨fun h => absurd h (by decide), fun _ => by decide, by decide⟩
  inbuf := ⟨by decide +kernel, by decide +kernel, by decide +kernel⟩
  unpacker := ⟨fun _ => by decide +kernel⟩
  walker := ⟨by decide, fun h => absurd h (by decide), fun _ => rfl, fun _ => by decide, fun _ => by decide,
    fun _ h => absurd h (by decide), fun _ _ => by decide⟩
  err := ⟨fun _ => rfl, fun h => absurd h (by decide)⟩

/-- `TW_RUN` fails: the stream ends inside a code, behind the bit 1 of "11". -/
theorem witness_TwRunAlwaysEnds_cut :
    (cutState.Inv ∧ cutState.seq = .idle ∧ cutState.tw.active = true ∧ cutState.tree.mode = .general ∧
      cutState.bu.isOpen = true ∧ GeneralTree cutState.tree shapeABC) ∧
    shapeABC.subtreeAt [true] = some (.node 256 (.leaf 97) (.leaf 98)) ∧
    cutState.tw.cur = (HTree.node 256 (.leaf 97) (.leaf 98)).root ∧ (∀ x ∈ ([] : List (Sym × Bits)), x ∈ shapeABC.codes []) ∧
    [true] ++ unread cutState.ibuf cutState.bu = ([] : List (Sym × Bits)).flatMap Prod.snd ++ [true] ∧
    (∃ x more, more ≠ [] ∧ (x, [true] ++ more) ∈ shapeABC.codes []) ∧
    cutState.tw.count.toNat + 0 < cutState.origLen.toNat ∧ cutState.tw.count.toNat + 0 ≤ cutState.caps.sout.toNat :=
  ⟨⟨inv_cutState, rfl, rfl, rfl, rfl, general_insideCode⟩, rfl, rfl, by decide, by decide +kernel,
    ⟨98, [true], by decide, by decide⟩, by decide, by decide⟩

/-- `busyState` with room for one of the two symbols owed. -/
def fullState : State := { busyState with caps := ⟨busyState.caps.obuf, busyState.caps.ibuf, 1⟩ }

theorem inv_fullState : fullState.Inv where
  tree := treeInv_busyState
  codes := inv_busyState.codes
  packer := packerInv_busyState
  inbuf := inbufInv_busyState
  unpacker := unpackerInv_busyState
  walker := ⟨by decide, walkerInv_busyState.inactive, walkerInv_busyState.tree, walkerInv_busyState.counted,
    walkerInv_busyState.done, walkerInv_busyState.emptyMode, walkerInv_busyState.onNode⟩
  err := ⟨fun _ => rfl, fun h => absurd h (by decide)⟩

/-- `TW_RUN` fails: the second code ends in a full `SOUT`. -/
theorem witness_TwRunAlwaysEnds_full :
    (fullState.Inv ∧ fullState.seq = .idle ∧ fullState.tw.active = true ∧ fullState.tree.mode = .general ∧
      fullState.bu.isOpen = true ∧ GeneralTree fullState.tree shapeAB) ∧
    shapeAB.subtreeAt [] = some shapeAB ∧ fullState.tw.cur = shapeAB.root ∧
    (∀ x ∈ [(97#8, [false]), (98#8, [true])], x ∈ shapeAB.codes []) ∧
    [] ++ unread fullState.ibuf fullState.bu =
      [(97#8, [false]), (98#8, [true])].flatMap Prod.snd ++ [false, false, false, false, false, false] ∧
    fullState.tw.count.toNat + 2 = fullState.caps.sout.toNat + 1 ∧ fullState.caps.sout.toNat < fullState.origLen.toNat :=
  ⟨⟨inv_fullState, rfl, rfl, rfl, rfl, general_treeAB⟩, rfl, rfl, by decide, by decide +kernel, by decide, by decide⟩

/-- `copying` with room for two of the three copies. -/
def fullCopying : State := { copying with caps := ⟨1, 1, 2⟩ }

theorem inv_fullCopying : fullCopying.Inv where
  tree := ⟨fun _ h => absurd h (by decide), fun _ _ => by decide +kernel, fun _ h => absurd h (by decide)⟩
  codes := ⟨fun h => absurd h (by decide), fun x => by
    show (symGet emptyCodes x).length ≤ 255
    rw [emptyCodes, symGet_replicate]
    decide⟩
  packer := ⟨fun h => absurd h (by decide), fun _ => by decide, by decide⟩
  inbuf := ⟨by decide +kernel, by decide +kernel, by decide +kernel⟩
  unpacker := ⟨fun h => absurd h (by decide)⟩
  walker := ⟨by decide, fun h => absurd h (by decide), fun _ => rfl, fun _ => by decide, fun _ => by decide,
    fun _ h => absurd h (by decide), fun _ h => absurd h (by decide)⟩
  err := ⟨fun _ => rfl, fun h => absurd h (by decide)⟩

theorem witness_TwRunAlwaysEnds_single :
    fullCopying.Inv ∧ fullCopying.seq = .idle ∧ fullCopying.tw.active = true ∧ fullCopying.tree.mode = .single ∧
    fullCopying.tw.done = false ∧ fullCopying.caps.sout.toNat < fullCopying.origLen.toNat :=
  ⟨inv_fullCopying, rfl, rfl, rfl, rfl, by decide⟩

/-- 45_tree_walker.md R236: the stream that ends inside a code is `COR_EOS`, `ERRINFO` the limit. -/
theorem test_tw_run_cut : after (exec .twStep cutState) errOf = some (0x330, 1) := by decide +kernel

/-- An operation at rest meets `Performs`. -/
theorem performs_doing (s : State) (op : HostOp) (h1 : s.running = none) (h2 : s.awaitingReset = false) :
    Performs (doing s op) op [] := ⟨h1, h2, 0, rfl⟩

theorem witness_ReadsHaveNoSideEffect : Performs (doing busyState (.read .word Reg.obufData.offset))
    (.read .word Reg.obufData.offset) [] := performs_doing _ _ rfl rfl

theorem witness_RegistersShowState :
    (symGet busyState.codes.entries busyState.sel.code).length ≤ 255 ∧ busyState.awaitingReset = false ∧
    isInternal (255 : NodeIdx) = false ∧ isInternal (511 : NodeIdx) = false ∧
    busyState.bp.obuf.length ≤ busyState.caps.obuf.toNat ∧ busyState.tw.sout.length ≤ busyState.caps.sout.toNat ∧
    [0x58#8][(0#32).toNat]? = some 0x58#8 ∧ [0x58#8].length ≤ (1#32).toNat ∧
    (4095#32).toNat < busyState.caps.ibuf.toNat ∧ busyState.caps.ibuf.toNat ≤ (4096#32).toNat := by decide +kernel

theorem witness_SelectAndReadOnlyWrites :
    (∀ r : Reg, Performs (doing busyState (.write .word r.offset 0x3FF)) (.write .word r.offset 0x3FF) []) ∧
    Reg.buPosLo ∉ [Reg.cmd, .origlenLo, .origlenHi, .freqSel, .freqData, .nodeSel, .codeSel, .obufIdx, .ibufLen, .ibufIdx,
      .ibufData, .buBase, .buLimitLo, .buLimitHi, .soutIdx] := ⟨fun _ => performs_doing _ _ rfl rfl, by decide⟩

/-- The last register's offset and the first unmapped one, an unaligned one, and a narrow access. -/
theorem witness_UnmappedAccess :
    Performs (doing busyState (.read .word 0xC8)) (.read .word 0xC8) [] ∧ 0xC8 ≤ (0xC8#8).toNat ∧
    Performs (doing busyState (.write .word 0x06 1)) (.write .word 0x06 1) [] ∧ (0x06#8).toNat % 4 ≠ 0 ∧
    Performs (doing busyState (.read .byte 0)) (.read .byte 0) [] ∧ AccessWidth.byte ≠ .word :=
  ⟨performs_doing _ _ rfl rfl, by decide, performs_doing _ _ rfl rfl, by decide, performs_doing _ _ rfl rfl, by decide⟩

theorem witness_InputWritesClearFlags :
    Performs (doing busyState (.write .word Reg.freqData.offset 0)) (.write .word Reg.freqData.offset 0) [] ∧
    Performs (doing busyState (.write .word Reg.origlenLo.offset 2)) (.write .word Reg.origlenLo.offset 2) [] ∧
    Performs (doing busyState (.write .word Reg.origlenHi.offset 2)) (.write .word Reg.origlenHi.offset 2) [] ∧
    Performs (doing busyState (.write .word Reg.buBase.offset 0)) (.write .word Reg.buBase.offset 0) [] ∧
    Performs (doing busyState (.write .word Reg.buLimitLo.offset 8)) (.write .word Reg.buLimitLo.offset 8) [] ∧
    Performs (doing busyState (.write .word Reg.buLimitHi.offset 0)) (.write .word Reg.buLimitHi.offset 0) [] ∧
    Performs (doing busyState (.write .word Reg.ibufLen.offset 5000)) (.write .word Reg.ibufLen.offset 5000) [] :=
  ⟨performs_doing _ _ rfl rfl, performs_doing _ _ rfl rfl, performs_doing _ _ rfl rfl, performs_doing _ _ rfl rfl,
    performs_doing _ _ rfl rfl, performs_doing _ _ rfl rfl, performs_doing _ _ rfl rfl⟩

/-- The last byte of `IBUF` and the first index beyond it. -/
theorem witness_IbufWriteStoresOneByte :
    InBufInv busyState.caps.ibuf busyState.ibuf ∧
    Performs (doing busyState (.write .word Reg.ibufData.offset 1)) (.write .word Reg.ibufData.offset 1) [] ∧
    ({ busyState with sel := { busyState.sel with ibuf := 4095 } } : State).sel.ibuf.toNat < busyState.caps.ibuf.toNat ∧
    busyState.caps.ibuf.toNat ≤ ({ busyState with sel := { busyState.sel with ibuf := 4096 } } : State).sel.ibuf.toNat :=
  ⟨inbufInv_busyState, performs_doing _ _ rfl rfl, by decide, by decide⟩

theorem witness_CommandsKeepHostInputs :
    Instr.bpInit ≠ .softReset ∧ exec .bpInit start = .next { start with bp := ⟨true, 0, 0, []⟩ } := ⟨by decide, rfl⟩

theorem witness_CapsAreConstant : ∃ t, step (giving start 0x01000000 0) = .next t := ⟨_, rfl⟩

theorem witness_StepKeepsInvariants :
    (giving busyState 0x54000000 0).Inv ∧ ∃ t, step (giving busyState 0x30000000 0) = .next t := by
  refine ⟨?_, _, rfl⟩
  obtain ⟨h1, h2, h3, h4, h5, h6, h7, h8⟩ := inv_busyState
  exact ⟨h1, h2, h3, h4, h5, h6, h7, h8⟩

theorem witness_NoFaultWithinInvariants : busyState.Inv := inv_busyState

end Sys2Proof.Tests
end

/-! SUPPORT. What every step keeps: the rule that takes a property of states from the commands, error entry and register
writes to every step of HUFFCORE and its host; and the invariants of 10_state.md R49 through each command. -/

namespace Sys2Proof.Machine

/-! ## From the commands to every step -/

/-- What it takes for a property to be kept by every step: it does not speak of the model's own fields and the read data
port, and error entry, register writes and commands keep it. -/
structure Kept (P : State → Prop) : Prop where
  hostSide : ∀ s running rdata events freeCount awaitingReset, P s →
    P { s with running := running, rdata := rdata, events := events, freeCount := freeCount, awaitingReset := awaitingReset }
  abortRun : ∀ s e info, s.seq = .idle → P s → P (abortRun e info s)
  regWrite : ∀ s v r, P s → P (regWrite s v r)
  exec : ∀ i s t, P s → exec i s = .next t → P t

namespace Kept

variable {P : State → Prop} (k : Kept P)
include k

/-- A command that is ignored or raises keeps the property. -/
theorem ignored_or_raised {s t : State} (hs : P s) (h : Ignored s t ∨ Raised s t) : P t := by
  rcases h with ⟨-, rfl⟩ | ⟨hi, e, info, rfl⟩
  · exact hs
  · exact k.abortRun s e info hi hs

/-- So does a word that is refused with an error. -/
theorem raiseWord {s t : State} {e : ErrCode} {c : Word} (hs : P s)
    (h : whenIdle s (raiseWord e c) = .next t) : P t := by
  rcases whenIdle_cases h with h | h | ⟨-, h⟩
  · exact k.ignored_or_raised hs (.inl h)
  · exact k.ignored_or_raised hs (.inr h)
  · exact absurd h (raise_ne_ok _ _ _)

theorem runWord {s t : State} {c : Word} (hs : P s) (h : runWord c s = .next t) : P t := by
  unfold Machine.runWord at h
  split at h
  · exact k.exec _ _ _ hs h
  · exact k.raiseWord hs h
  · exact k.raiseWord hs h

theorem writeCmd {s t : State} {c : Word} {hold : Nat} (hs : P s) (h : writeCmd c hold s = .next t) : P t := by
  unfold Machine.writeCmd at h
  split at h
  · cases hold with
    | zero => exact k.runWord hs h
    | succ n =>
      obtain rfl := Host.Outcome.next.inj h
      exact k.hostSide s _ _ _ _ _ hs
  · obtain rfl := Host.Outcome.next.inj h
    exact hs

theorem resetElements {s : State} (hs : P s) : P (resetElements s) := k.exec .softReset s _ hs rfl

theorem hardReset {s : State} (hs : P s) (hold : Nat) : P (hardReset hold s) := by
  cases hold with
  | zero => exact k.resetElements hs
  | succ n => exact k.hostSide _ _ _ _ _ _ (k.resetElements hs)

theorem powerUp {s : State} (hs : P s) : P (powerUp s) := k.hostSide s _ _ _ _ _ hs

theorem readIdle {s : State} (hs : P s) (w : AccessWidth) (off : BitVec 8) : P (readIdle w off s) := by
  unfold Machine.readIdle
  split <;> exact k.hostSide s _ _ _ _ _ hs

theorem readBusy {s : State} (hs : P s) (w : AccessWidth) (off : BitVec 8) : P (readBusy w off s) := by
  unfold Machine.readBusy
  split <;> exact k.hostSide s _ _ _ _ _ hs

theorem writeIdle {s t : State} {w : AccessWidth} {off : BitVec 8} {v : Word} {hold : Nat} (hs : P s)
    (h : writeIdle w off v hold s = .next t) : P t := by
  unfold Machine.writeIdle at h
  split at h
  · obtain rfl := Host.Outcome.next.inj h
    exact hs
  · exact k.writeCmd hs h
  · obtain rfl := Host.Outcome.next.inj h
    exact k.regWrite s v _ hs

theorem hostOpIdle {s t : State} {e : HostEvent} (hs : P s) (h : hostOpIdle e s = .next t) : P t := by
  obtain ⟨op, hold⟩ := e
  cases op with
  | read w off =>
    obtain rfl := Host.Outcome.next.inj h
    exact k.readIdle hs w off
  | write w off v => exact k.writeIdle hs h
  | hardReset =>
    obtain rfl := Host.Outcome.next.inj h
    exact k.hardReset hs hold
  | powerUp =>
    obtain rfl := Host.Outcome.next.inj h
    exact k.powerUp hs

theorem hostOpBusy {s : State} (hs : P s) (e : HostEvent) : P (hostOpBusy e s) := by
  obtain ⟨op, hold⟩ := e
  cases op with
  | read w off => exact k.readBusy hs w off
  | write w off v => exact hs
  | hardReset => exact k.hardReset hs hold
  | powerUp => exact k.powerUp hs

theorem hostOpUnreset {s t : State} {e : HostEvent} (hs : P s) (h : hostOpUnreset e s = .next t) : P t := by
  obtain ⟨op, hold⟩ := e
  cases op with
  | read w off => cases h
  | write w off v => cases h
  | hardReset =>
    obtain rfl := Host.Outcome.next.inj h
    exact k.hardReset hs hold
  | powerUp =>
    obtain rfl := Host.Outcome.next.inj h
    exact k.powerUp hs

theorem complete {s t : State} {work : Work} (hs : P s) (h : complete work s = .next t) : P t := by
  cases work with
  | command c => exact k.runWord hs h
  | clearing =>
    obtain rfl := Host.Outcome.next.inj h
    exact hs

/-- A property that error entry, register writes and commands keep is kept by every step. -/
theorem step {s t : State} (hs : P s) (h : step s = .next t) : P t := by
  unfold Machine.step at h
  split at h
  · split at h
    · obtain rfl := Host.Outcome.next.inj h
      exact k.hostOpBusy (k.hostSide s _ _ _ _ _ hs) _
    · exact k.complete (k.hostSide s _ _ _ _ _ hs) h
  · split at h
    · obtain rfl := Host.Outcome.next.inj h
      exact hs
    · split at h
      · exact k.hostOpUnreset (k.hostSide s _ _ _ _ _ hs) h
      · exact k.hostOpIdle (k.hostSide s _ _ _ _ _ hs) h

end Kept

/-! ## The invariants through one unit's change -/

/-- A walker that is not active meets its invariant for any tree and length. -/
theorem WalkerInv.of_inactive {cap : Word} {t t' : Tree} {l l' : Len} {k : Walker} (h : WalkerInv cap t l k)
    (ha : k.active = false) : WalkerInv cap t' l' k := by
  constructor <;> simp [ha, h.fits, h.inactive ha]

/-- Every element at its reset value meets the invariants, whatever the state before (10_state.md R50). -/
theorem resetElements_inv (s : State) : (resetElements s).Inv where
  tree := TreeInv.reset
  codes := CodesInv.reset _
  packer := PackerInv.reset _
  inbuf := InBufInv.reset _
  unpacker := UnpackerInv.reset _
  walker := WalkerInv.reset _ _ _
  err := ⟨fun _ => rfl, nofun⟩

namespace State.Inv

variable {s : State} (h : s.Inv)
include h

theorem withHostSide (running : Option Running) (rdata : Word) (events : List HostEvent) (freeCount : Nat)
    (awaitingReset : Bool) (freq : Vector Word 256) (sel : Selects) :
    State.Inv { s with
      running := running, rdata := rdata, events := events, freeCount := freeCount, awaitingReset := awaitingReset,
      freq := freq, sel := sel } :=
  { h with err := ⟨h.err.idle, h.err.error⟩ }

theorem withOrigLen (ha : s.tw.active = false) (l : Len) : State.Inv { s with origLen := l } :=
  { h with walker := h.walker.of_inactive ha, err := ⟨h.err.idle, h.err.error⟩ }

/-- In IDLE the error part says nothing of the units, so a unit may change alone. -/
theorem errInv_of_idle (hi : s.seq = .idle) {t : State} (hs : t.seq = s.seq) (he : t.err = s.err) : ErrInv t :=
  ⟨fun _ => he.trans (h.err.idle hi), fun hc => absurd ((hs.trans hi).symm.trans hc) (by decide)⟩

theorem withPacker (hi : s.seq = .idle) {p : Packer} (hp : PackerInv s.caps.obuf p) : State.Inv { s with bp := p } :=
  { h with packer := hp, err := h.errInv_of_idle hi rfl rfl }

theorem withUnpacker (hi : s.seq = .idle) {u : Unpacker} (hu : UnpackerInv s.ibuf u) : State.Inv { s with bu := u } :=
  { h with unpacker := hu, err := h.errInv_of_idle hi rfl rfl }

theorem withWalker (hi : s.seq = .idle) {k : Walker} (hk : WalkerInv s.caps.sout s.tree s.origLen k) :
    State.Inv { s with tw := k } :=
  { h with walker := hk, err := h.errInv_of_idle hi rfl rfl }

theorem withCodes (hi : s.seq = .idle) {c : CodeTable} (hc : CodesInv s.tree c) : State.Inv { s with codes := c } :=
  { h with codes := hc, err := h.errInv_of_idle hi rfl rfl }

/-- In ERROR the flags are clear already, so clearing them keeps every unit at its reset value. -/
theorem cancelWalk : (cancelWalk s).Inv :=
  { h with
    walker := h.walker.cancel
    err := ⟨h.err.idle, fun he => by
      obtain ⟨hc, ht, hcodes, hbp, hbu, htw⟩ := h.err.error he
      exact ⟨hc, ht, hcodes, hbp, hbu, by rw [cancelWalk_tw, htw]; rfl⟩⟩ }

theorem cancelTree : (cancelTree s).Inv where
  tree := by constructor <;> simp
  codes := ⟨by simp, h.codes.short⟩
  packer := h.packer
  inbuf := h.inbuf
  unpacker := h.unpacker
  walker := h.walker.cancel
  err := ⟨h.err.idle, fun he => by
    obtain ⟨hc, ht, hcodes, hbp, hbu, htw⟩ := h.err.error he
    exact ⟨hc, by rw [cancelTree_tree, ht]; rfl, by rw [cancelTree_codes, hcodes]; rfl, hbp, hbu,
      by rw [cancelTree_tw, htw]; rfl⟩⟩

/-- A closed unpacker meets its invariant whatever the window. -/
theorem closeUnpacker {w : InBuf} (hw : InBufInv s.caps.ibuf w) : State.Inv { closeUnpacker s with ibuf := w } :=
  { h with
    inbuf := hw
    unpacker := ⟨by simp⟩
    err := ⟨h.err.idle, fun he => by
      obtain ⟨hc, ht, hcodes, hbp, hbu, htw⟩ := h.err.error he
      exact ⟨hc, ht, hcodes, hbp, by simp only [closeUnpacker_bu, hbu]; rfl, htw⟩⟩ }

theorem writeIbuf (v : Word) : (writeIbuf s v).Inv := by
  unfold Machine.writeIbuf
  split
  · rename_i hx
    exact { h with
      inbuf := h.inbuf.write hx _
      unpacker := ⟨h.unpacker.opened⟩
      err := ⟨h.err.idle, h.err.error⟩ }
  · exact h

theorem readable (ho : s.bu.isOpen = true) : Readable s.caps.ibuf s.ibuf s.bu := .of_inv h.inbuf h.unpacker ho

theorem clearError : (clearError s).Inv := { h with err := ⟨fun _ => rfl, nofun⟩ }

theorem regWrite (v : Word) (r : Reg) : (regWrite s v r).Inv := by
  cases r with
  | origlenLo => exact h.cancelWalk.withOrigLen rfl _
  | origlenHi => exact h.cancelWalk.withOrigLen rfl _
  | freqData => exact h.cancelTree.withHostSide _ _ _ _ _ _ _
  | freqSel => exact h.withHostSide _ _ _ _ _ _ _
  | nodeSel => exact h.withHostSide _ _ _ _ _ _ _
  | codeSel => exact h.withHostSide _ _ _ _ _ _ _
  | obufIdx => exact h.withHostSide _ _ _ _ _ _ _
  | ibufIdx => exact h.withHostSide _ _ _ _ _ _ _
  | soutIdx => exact h.withHostSide _ _ _ _ _ _ _
  | ibufLen =>
    refine h.closeUnpacker ⟨h.inbuf.wf, h.inbuf.within, ?_⟩
    rw [clampLen_toNat]
    exact Nat.min_le_right _ _
  | ibufData => exact h.writeIbuf v
  | buBase => exact h.closeUnpacker ⟨h.inbuf.wf, h.inbuf.within, h.inbuf.lenFits⟩
  | buLimitLo => exact h.closeUnpacker ⟨h.inbuf.wf, h.inbuf.within, h.inbuf.lenFits⟩
  | buLimitHi => exact h.closeUnpacker ⟨h.inbuf.wf, h.inbuf.within, h.inbuf.lenFits⟩
  | _ => exact h

end State.Inv

/-! ## The invariants through each unit's work -/

/-- A flushed packer meets its invariant (43_bit_packer.md R184). -/
theorem PackerInv.flush {cap : Word} {p q : Packer} (h : PackerInv cap p) (ho : p.isOpen = true)
    (hq : bpFlush cap p = .ok q) : PackerInv cap q := by
  by_cases hc : (p.bitcnt.toNat + 7) / 8 ≤ cap.toNat
  · obtain ⟨bytes, h1, h2, -⟩ := bpFlush_ok h ho hc
    exact Except.ok.inj (h1.symm.trans hq) ▸ h2
  · rw [bpFlush_full h ho (by omega)] at hq
    exact absurd hq (raise_ne_ok _ _ _)

/-- `BU_GET` leaves the cursor within the window (44_bit_unpacker.md R204). -/
theorem Readable.buGet {cap : Word} {w : InBuf} {u u' : Unpacker} (h : Readable cap w u) {n : BitVec 5}
    (hn : n.toNat ≤ 16) (hu : buGet cap w n u = .ok u') : UnpackerInv w u' := by
  unfold Machine.buGet at hu
  split at hu
  · obtain rfl := Except.ok.inj hu
    exact ⟨fun _ => ⟨h.pos, h.fits⟩⟩
  · rename_i hle
    obtain ⟨y, hy, -, -⟩ := buTake_ok h.buf h.fits n.toNat 0 0 u (by decide) (by omega) (by rw [unread_length]; omega)
    rw [hy] at hu
    obtain rfl := Except.ok.inj hu
    refine ⟨fun _ => ⟨?_, h.fits⟩⟩
    have hpos := h.pos
    simp only [BitVec.toNat_add, BitVec.toNat_ofNat]
    omega

/-- A tree that was loaded meets its invariant, and so does the cursor behind its description (45_tree_walker.md R225). -/
theorem Readable.loadTree {cap : Word} {w : InBuf} {u u' : Unpacker} {t : Tree} (h : Readable cap w u)
    (hl : loadTree cap w u = .ok (t, u')) : TreeInv t ∧ UnpackerInv w u' := by
  rcases loadTree_sound h with ⟨t', g, h1, hg, hm, -, hr, -⟩ | ⟨e, h1, -⟩
  · obtain ⟨rfl, rfl⟩ := Prod.mk.inj (Except.ok.inj (h1.symm.trans hl))
    refine ⟨⟨fun _ he => ?_, fun _ he => ?_, fun _ _ => ⟨g, hg⟩⟩, hr.unpackerInv⟩
    · exact absurd (hm.symm.trans he) (by decide)
    · exact absurd (hm.symm.trans he) (by decide)
  · exact absurd (h1.symm.trans hl) nofun

/-- The root of a general tree is one of its internal nodes. -/
theorem GeneralTree.root_bounds {t : Tree} {h : HTree} (g : GeneralTree t h) :
    256 ≤ t.root.toNat ∧ t.root.toNat ≤ 254 + t.k.toNat := by
  obtain ⟨l, r, rfl⟩ := g.exists_node
  exact (g.inner t.root).1 (by simp [HTree.inner])

/-- A walk begins at the root with nothing emitted (45_tree_walker.md R230). -/
theorem WalkerInv.start {cap : Word} {t : Tree} {origLen : Len} (ht : TreeInv t) (hv : t.valid = true)
    (hl : t.mode = .empty → origLen = 0) : WalkerInv cap t origLen ⟨true, origLen == 0, t.root, 0, []⟩ where
  fits := by simp
  inactive := nofun
  tree := fun _ => hv
  counted := by simp
  done := fun _ => by simpa using eq_comm
  emptyMode := fun _ => hl
  onNode := fun _ hm => (ht.general hv hm).elim fun _ hg => hg.root_bounds

/-- A step of the walk keeps the walker's invariant and the unpacker's (45_tree_walker.md R231). -/
theorem State.Inv.twStep {s : State} (h : s.Inv) (ha : s.tw.active = true) (hd : s.tw.done = false)
    (ho : s.tree.mode = .general → s.bu.isOpen = true) {u : Unpacker} {k : Walker}
    (hs : twStep s.caps s.ibuf s.tree s.origLen s.bu s.tw = .ok (u, k)) :
    UnpackerInv s.ibuf u ∧ WalkerInv s.caps.sout s.tree s.origLen k := by
  cases hm : s.tree.mode with
  | empty =>
    rw [h.walker.done_of_empty ha hm] at hd
    exact Bool.noConfusion hd
  | single =>
    rcases twStep_single_cases (w := s.ibuf) (u := s.bu) hm h.walker ha hd with h1 | ⟨k', h1, -, hk, -⟩
    · exact absurd (h1.symm.trans hs) (raise_ne_ok _ _ _)
    · obtain ⟨rfl, rfl⟩ := Prod.mk.inj (Except.ok.inj (h1.symm.trans hs))
      exact ⟨h.unpacker, hk⟩
  | general =>
    obtain ⟨g, hg⟩ := h.tree.general (h.walker.tree ha) hm
    rcases twStep_general_cases hm hg (h.readable (ho hm)) h.walker ha hd with h1 | h1 | ⟨k', h1, -, hk, hr, -⟩
    · exact absurd (h1.symm.trans hs) (raise_ne_ok _ _ _)
    · exact absurd (h1.symm.trans hs) (raise_ne_ok _ _ _)
    · obtain ⟨rfl, rfl⟩ := Prod.mk.inj (Except.ok.inj (h1.symm.trans hs))
      exact ⟨hr.unpackerInv, hk⟩

/-- A whole run of the walk keeps them too (45_tree_walker.md R233). -/
theorem State.Inv.twRun {s : State} (h : s.Inv) (ha : s.tw.active = true)
    (ho : s.tree.mode = .general → s.tw.done = false → s.bu.isOpen = true) {u : Unpacker} {k : Walker}
    (hs : twLoop s.caps s.ibuf s.tree s.origLen walkFuel s.bu s.tw = .ok (u, k)) :
    UnpackerInv s.ibuf u ∧ WalkerInv s.caps.sout s.tree s.origLen k := by
  rcases twLoop_cases h.tree walkFuel h.walker ha (fun hm hd => h.readable (ho hm hd)) (lt_walkFuel _ _ _ _ _) with
    h1 | h1 | ⟨n, k', h1, -, -, hk, hr⟩
  · exact absurd (h1.symm.trans hs) (raise_ne_ok _ _ _)
  · exact absurd (h1.symm.trans hs) (raise_ne_ok _ _ _)
  · obtain ⟨rfl, rfl⟩ := Prod.mk.inj (Except.ok.inj (h1.symm.trans hs))
    exact ⟨⟨fun hopen => (hr (h.readable hopen)).unpackerInv.opened hopen⟩, hk⟩

/-! ## The invariants through each command -/

/-- Every command keeps the invariants: it is ignored or raises, or it changes units that keep theirs. -/
theorem State.Inv.exec {i : Instr} {s t : State} (h : s.Inv) (hx : exec i s = .next t) : t.Inv := by
  have ended : Ignored s t ∨ Raised s t → t.Inv := by
    rintro (⟨-, rfl⟩ | ⟨-, e, info, rfl⟩)
    · exact h
    · exact h.abortRun e info
  cases i with
  | nop =>
    obtain rfl := Host.Outcome.next.inj hx
    exact h
  | softReset =>
    obtain rfl := Host.Outcome.next.inj hx
    exact resetElements_inv s
  | clrErr =>
    obtain rfl := Host.Outcome.next.inj hx
    exact h.clearError
  | ioAbort => exact ended (execIoAbort_cases hx)
  | tbBuild =>
    rcases execTbBuild_cases hx with hx | ⟨hi, rfl⟩
    · exact ended (.inl hx)
    · exact (h.withNewTree hi (TreeInv.buildTree s.freq)).withOrigLen rfl _
  | cgGen =>
    rcases execCgGen_cases hx with hx | hx | ⟨hi, hv, c, hc, rfl⟩
    · exact ended (.inl hx)
    · exact ended (.inr hx)
    · obtain ⟨c', hc', hshort⟩ := genCodes_ok h.tree hv
      obtain rfl := Except.ok.inj (hc.symm.trans hc')
      exact h.withCodes hi ⟨fun _ => ⟨hv, hc⟩, hshort⟩
  | cgEmit =>
    rcases execCgEmit_cases hx with hx | hx | ⟨hi, -, -, ho, bits, p, -, hp, rfl⟩
    · exact ended (.inl hx)
    · exact ended (.inr hx)
    · exact h.withPacker hi (h.packer.putAll ho hp)
  | bpInit =>
    rcases execBpInit_cases hx with hx | ⟨hi, rfl⟩
    · exact ended (.inl hx)
    · exact h.withPacker hi ⟨by simp, nofun, by simp⟩
  | bpPutbits n v =>
    rcases execBpPutbits_cases hx with hx | hx | ⟨hi, -, ho, p, hp, rfl⟩
    · exact ended (.inl hx)
    · exact ended (.inr hx)
    · exact h.withPacker hi (h.packer.putAll ho hp)
  | bpPutsym x =>
    rcases execBpPutsym_cases hx with hx | hx | ⟨hi, ho, -, -, p, hp, rfl⟩
    · exact ended (.inl hx)
    · exact ended (.inr hx)
    · exact h.withPacker hi (h.packer.putAll ho hp)
  | bpFlush =>
    rcases execBpFlush_cases hx with hx | hx | ⟨hi, ho, p, hp, rfl⟩
    · exact ended (.inl hx)
    · exact ended (.inr hx)
    · exact h.withPacker hi (h.packer.flush ho hp)
  | buInit =>
    rcases execBuInit_cases hx with hx | hx | ⟨hi, hw, rfl⟩
    · exact ended (.inl hx)
    · exact ended (.inr hx)
    · exact h.withUnpacker hi ⟨fun _ => ⟨Nat.zero_le _, hw⟩⟩
  | buGet n =>
    rcases execBuGet_cases hx with hx | hx | ⟨hi, hn, ho, u, hu, rfl⟩
    · exact ended (.inl hx)
    · exact ended (.inr hx)
    · exact h.withUnpacker hi ((h.readable ho).buGet hn hu)
  | twCfg m x =>
    rcases execTwCfg_cases hx with hx | hx | ⟨hi, mode, -, rfl⟩
    · exact ended (.inl hx)
    · exact ended (.inr hx)
    · exact h.withNewTree hi (TreeInv.cfgTree mode x)
  | twLoad =>
    rcases execTwLoad_cases hx with hx | hx | ⟨hi, ho, tree, u, hl, rfl⟩
    · exact ended (.inl hx)
    · exact ended (.inr hx)
    · obtain ⟨ht, hu⟩ := (h.readable ho).loadTree hl
      exact (h.withNewTree hi ht).withUnpacker hi hu
  | twStart =>
    rcases execTwStart_cases hx with hx | hx | ⟨hi, hv, -, hl, rfl⟩
    · exact ended (.inl hx)
    · exact ended (.inr hx)
    · exact h.withWalker hi (.start h.tree hv hl)
  | twStep =>
    rcases execTwStep_cases hx with hx | hx | ⟨hi, ha, hd, ho, u, k, hs, rfl⟩
    · exact ended (.inl hx)
    · exact ended (.inr hx)
    · obtain ⟨hu, hk⟩ := h.twStep ha hd ho hs
      exact (h.withUnpacker hi hu).withWalker hi hk
  | twRun =>
    rcases execTwRun_cases hx with hx | hx | ⟨hi, ha, ho, u, k, hs, rfl⟩
    · exact ended (.inl hx)
    · exact ended (.inr hx)
    · obtain ⟨hu, hk⟩ := h.twRun ha ho hs
      exact (h.withUnpacker hi hu).withWalker hi hk

/-- The invariants of 10_state.md R49 are kept by every step. -/
theorem State.Inv.kept : Kept State.Inv where
  hostSide := fun _ _ _ _ _ _ h => h.withHostSide _ _ _ _ _ _ _
  abortRun := fun _ e info _ h => h.abortRun e info
  regWrite := fun _ v r h => h.regWrite v r
  exec := fun _ _ _ h hx => h.exec hx

/-- Settles O59: every command, error entry and every register write keep the invariants. -/
theorem stepKeepsInvariants : Obligations.StepKeepsInvariants := fun _ _ h ht => State.Inv.kept.step h ht

/-- Settles O58: the reset state is what a reset of it leaves. -/
theorem resetMeetsInvariants : Obligations.ResetMeetsInvariants := resetElements_inv State.reset

end Sys2Proof.Machine

/-! SUPPORT. What a step does when the host presents a command word, and how a word that is no command ends
(30_encoding.md R103 to R105, 20_memory.md R77). -/

namespace Sys2Proof.Machine

/-- A step in which the host presents a command word is its acceptance, in the state with that operation done. -/
theorem Presents.step_eq {s : State} {c : Word} {hold : Nat} {es : List HostEvent} (h : Presents s c hold es) :
    step s = writeCmd c hold { s with events := es } := by
  obtain ⟨hr, ha, he⟩ := h
  unfold step
  simp only [hr, he, ha]
  rfl

/-- The three words that run in ERROR, as numbers (30_encoding.md R103 step 2). -/
theorem runsInError_iff {c : Word} :
    runsInError c = true ↔ c = 0x00000000#32 ∨ c = 0x01000000#32 ∨ c = 0x02000000#32 := by
  have h1 : encode .nop = 0x00000000#32 := rfl
  have h2 : encode .softReset = 0x01000000#32 := rfl
  have h3 : encode .clrErr = 0x02000000#32 := rfl
  simp [runsInError, h1, h2, h3, or_assoc]

/-- A word that is acted on, with host operations in its busy window, only makes `BUSY` rise. -/
theorem writeCmd_succ {s : State} {c : Word} (h : actsOn s c = true) (n : Nat) :
    writeCmd c (n + 1) s = .next { s with running := some ⟨.command c, n + 1⟩ } := by
  simp only [writeCmd, h, if_true]

theorem runWord_ok {c : Word} {i : Instr} (h : decode c = .ok i) (s : State) : runWord c s = exec i s := by
  simp only [runWord, h]

/-- An undefined opcode in IDLE (30_encoding.md R104). -/
theorem runWord_illegal {s : State} {c : Word} (hi : s.seq = .idle) (h : ∀ op ∈ allOpcodes, op.code ≠ opcField c) :
    runWord c s = .next (abortRun .illegalCmd (c.setWidth 64) s) := by
  simp only [runWord, decode_illegal h, whenIdle_idle hi, raiseWord_eq, runCommand_raise]

/-- A reserved bit set in IDLE (30_encoding.md R105). -/
theorem runWord_reserved {s : State} {c : Word} {op : Opcode} (hi : s.seq = .idle) (hc : op.code = opcField c)
    (hr : argField c &&& op.reserved ≠ 0) : runWord c s = .next (abortRun .badArg (c.setWidth 64) s) := by
  simp only [runWord, decode_of_code hc, if_neg hr, whenIdle_idle hi, raiseWord_eq, runCommand_raise]

/-- Settles O7: the acceptance with a busy window only sets the running field, and when the window is over the step is the
acceptance's work on the word, by what the word decodes to. -/
theorem busyRisesThenCommandCompletes : Obligations.BusyRisesThenCommandCompletes := by
  refine ⟨fun s c n es hp hc => ?_, fun s c i hw hd => ?_,
    fun s c hw hi => ⟨fun hop => ?_, fun op _ hcode hres => ?_⟩⟩
  · rw [hp.step_eq]
    refine writeCmd_succ ?_ n
    rcases hc with hi | hc
    · simp [actsOn, hi]
    · simp [actsOn, runsInError_iff.2 hc]
  · exact (step_of_windowOver hw).trans (runWord_ok hd _)
  · exact (step_of_windowOver hw).trans (runWord_illegal hi hop)
  · exact (step_of_windowOver hw).trans (runWord_reserved hi hcode hres)

end Sys2Proof.Machine

/-! SUPPORT. What the host put in is kept by every command but `SOFT_RESET` (10_state.md R25, R42), and the capacities by
every step (R46). -/

namespace Sys2Proof.Machine

/-- The elements that no command but `SOFT_RESET` and `TB_BUILD` writes, and the host's side of State, are the same. -/
structure SameInputs (s t : State) : Prop where
  freq : t.freq = s.freq
  ibuf : t.ibuf = s.ibuf
  sel : t.sel = s.sel
  caps : t.caps = s.caps
  rdata : t.rdata = s.rdata
  events : t.events = s.events
  origLen : t.origLen = s.origLen

/-- Whatever becomes of the sequencer and of what the block produces, the inputs stay. -/
theorem SameInputs.update (s : State) (seq : Resting) (err : ErrRegs) (tree : Tree) (codes : CodeTable) (bp : Packer)
    (bu : Unpacker) (tw : Walker) : SameInputs s
      { s with seq := seq, err := err, tree := tree, codes := codes, bp := bp, bu := bu, tw := tw } :=
  ⟨rfl, rfl, rfl, rfl, rfl, rfl, rfl⟩

/-- Every command but `SOFT_RESET` and `TB_BUILD` is ignored, enters ERROR, or updates what the block produces. -/
theorem exec_sameInputs {i : Instr} {s t : State} (hr : i ≠ .softReset) (hb : i ≠ .tbBuild) (h : exec i s = .next t) :
    SameInputs s t := by
  cases i with
  | nop =>
    obtain rfl := Host.Outcome.next.inj h
    exact .update ..
  | softReset => exact absurd rfl hr
  | clrErr =>
    obtain rfl := Host.Outcome.next.inj h
    exact .update ..
  | ioAbort =>
    rcases execIoAbort_cases h with ⟨-, rfl⟩ | ⟨-, _, _, rfl⟩ <;>
      exact .update ..
  | tbBuild => exact absurd rfl hb
  | cgGen =>
    rcases execCgGen_cases h with ⟨-, rfl⟩ | ⟨-, _, _, rfl⟩ | ⟨-, -, _, -, rfl⟩ <;>
      exact .update ..
  | cgEmit =>
    rcases execCgEmit_cases h with ⟨-, rfl⟩ | ⟨-, _, _, rfl⟩ | ⟨-, -, -, -, _, _, -, -, rfl⟩ <;>
      exact .update ..
  | bpInit =>
    rcases execBpInit_cases h with ⟨-, rfl⟩ | ⟨-, rfl⟩ <;>
      exact .update ..
  | bpPutbits n v =>
    rcases execBpPutbits_cases h with ⟨-, rfl⟩ | ⟨-, _, _, rfl⟩ | ⟨-, -, -, _, -, rfl⟩ <;>
      exact .update ..
  | bpPutsym x =>
    rcases execBpPutsym_cases h with ⟨-, rfl⟩ | ⟨-, _, _, rfl⟩ | ⟨-, -, -, -, _, -, rfl⟩ <;>
      exact .update ..
  | bpFlush =>
    rcases execBpFlush_cases h with ⟨-, rfl⟩ | ⟨-, _, _, rfl⟩ | ⟨-, -, _, -, rfl⟩ <;>
      exact .update ..
  | buInit =>
    rcases execBuInit_cases h with ⟨-, rfl⟩ | ⟨-, _, _, rfl⟩ | ⟨-, -, rfl⟩ <;>
      exact .update ..
  | buGet n =>
    rcases execBuGet_cases h with ⟨-, rfl⟩ | ⟨-, _, _, rfl⟩ | ⟨-, -, -, _, -, rfl⟩ <;>
      exact .update ..
  | twCfg m x =>
    rcases execTwCfg_cases h with ⟨-, rfl⟩ | ⟨-, _, _, rfl⟩ | ⟨-, _, -, rfl⟩ <;>
      exact .update ..
  | twLoad =>
    rcases execTwLoad_cases h with ⟨-, rfl⟩ | ⟨-, _, _, rfl⟩ | ⟨-, -, _, _, -, rfl⟩ <;>
      exact .update ..
  | twStart =>
    rcases execTwStart_cases h with ⟨-, rfl⟩ | ⟨-, _, _, rfl⟩ | ⟨-, -, -, -, rfl⟩ <;>
      exact .update ..
  | twStep =>
    rcases execTwStep_cases h with ⟨-, rfl⟩ | ⟨-, _, _, rfl⟩ | ⟨-, -, -, -, _, _, -, rfl⟩ <;>
      exact .update ..
  | twRun =>
    rcases execTwRun_cases h with ⟨-, rfl⟩ | ⟨-, _, _, rfl⟩ | ⟨-, -, -, _, _, -, rfl⟩ <;>
      exact .update ..

/-- `TB_BUILD` writes `ORIGLEN` and no other of them (41_tree_builder.md R149). -/
theorem execTbBuild_sameInputs {s t : State} (h : exec .tbBuild s = .next t) :
    SameInputs { s with origLen := t.origLen } t := by
  rcases execTbBuild_cases h with ⟨-, rfl⟩ | ⟨-, rfl⟩ <;> exact ⟨rfl, rfl, rfl, rfl, rfl, rfl, rfl⟩

/-- Settles O56: `TB_BUILD` keeps all but `ORIGLEN`, every other command all. -/
theorem commandsKeepHostInputs : Obligations.CommandsKeepHostInputs := by
  intro i s t hr h
  by_cases hb : i = .tbBuild
  · subst hb
    obtain ⟨hfreq, hibuf, hsel, hcaps, hrdata, hevents, -⟩ := execTbBuild_sameInputs h
    exact ⟨hfreq, hibuf, fun a => by rw [hibuf], hsel, hcaps, hrdata, hevents, fun hn => absurd rfl hn⟩
  · obtain ⟨hfreq, hibuf, hsel, hcaps, hrdata, hevents, hlen⟩ := exec_sameInputs hr hb h
    exact ⟨hfreq, hibuf, fun a => by rw [hibuf], hsel, hcaps, hrdata, hevents, fun _ => hlen⟩

/-- No command changes the capacities, `SOFT_RESET` included (10_state.md R46). -/
theorem exec_caps {i : Instr} {s t : State} (h : exec i s = .next t) : t.caps = s.caps := by
  by_cases hr : i = .softReset
  · subst hr
    obtain rfl := Host.Outcome.next.inj h
    exact resetElements_caps s
  · obtain ⟨-, -, -, -, hcaps, -⟩ := commandsKeepHostInputs i s t hr h
    exact hcaps

/-- No register write changes the capacities. -/
theorem regWrite_caps (s : State) (v : Word) (r : Reg) : (regWrite s v r).caps = s.caps := by
  cases r with
  | ibufData =>
    simp only [regWrite, writeIbuf]
    split <;> rfl
  | _ => rfl

/-- Settles O57: commands, error entry and register writes keep the capacities, so every step does. -/
theorem capsAreConstant : Obligations.CapsAreConstant := by
  intro s t h
  have kept : Kept (fun x => x.caps = s.caps) :=
    { hostSide := fun _ _ _ _ _ _ hx => hx
      abortRun := fun _ _ _ _ hx => hx
      regWrite := fun x v r hx => (regWrite_caps x v r).trans hx
      exec := fun _ _ _ hx ht => (exec_caps ht).trans hx }
  exact kept.step rfl h

end Sys2Proof.Machine

/-! SUPPORT. The host's accesses when nothing runs: what a step answers to a write of a register other than `CMD`, and to an
access that reaches no register (10_state.md R30 to R47, 20_memory.md R83). -/

namespace Sys2Proof.Machine

/-- A step in which the host acts and nothing runs serves that operation. -/
theorem Performs.step_eq {s : State} {op : HostOp} {es : List HostEvent} (h : Performs s op es) :
    ∃ hold, step s = hostOpIdle ⟨op, hold⟩ { s with events := es } := by
  obtain ⟨hr, ha, hold, he⟩ := h
  refine ⟨hold, ?_⟩
  unfold step
  simp only [hr, he, ha]
  rfl

theorem writeIdle_offset {r : Reg} (hr : r ≠ .cmd) (v : Word) (hold : Nat) (s : State) :
    writeIdle .word r.offset v hold s = .next (regWrite s v r) := by
  unfold writeIdle
  rw [regAt_offset]
  split
  · rename_i h
    exact absurd h nofun
  · rename_i h
    exact absurd (Option.some.inj h) hr
  · rename_i h
    rw [Option.some.inj h]

/-- A word write of a register other than `CMD` is that register's write. -/
theorem Performs.write_reg {s : State} {r : Reg} {v : Word} {es : List HostEvent}
    (h : Performs s (.write .word r.offset v) es) (hr : r ≠ .cmd) :
    step s = .next (regWrite { s with events := es } v r) := by
  obtain ⟨hold, hs⟩ := h.step_eq
  exact hs.trans (writeIdle_offset hr v hold _)

/-- A write of a read-only register is ignored (10_state.md R30). -/
theorem regWrite_readOnly (s : State) (v : Word) {r : Reg}
    (hr : r ∉ [Reg.cmd, .origlenLo, .origlenHi, .freqSel, .freqData, .nodeSel, .codeSel, .obufIdx, .ibufLen, .ibufIdx,
      .ibufData, .buBase, .buLimitLo, .buLimitHi, .soutIdx]) : regWrite s v r = s := by
  cases r <;> simp [regWrite] at hr ⊢

/-- Settles O51: each is the register's write, which is the update named or none. -/
theorem selectAndReadOnlyWrites : Obligations.SelectAndReadOnlyWrites := by
  intro s v es r h
  refine ⟨fun hr => ?_, fun hr => ?_, fun hr => ?_, fun hr => ?_, fun hr => ?_, fun hr => ?_, fun hr => ?_⟩
  on_goal 7 => rw [h.write_reg (fun hc => hr (by simp [hc])), regWrite_readOnly _ v hr]
  all_goals
    subst hr
    exact h.write_reg nofun

/-- Settles O53: such an access reaches no register. -/
theorem unmappedAccess : Obligations.UnmappedAccess := by
  intro s w off es hoff
  have hnone := regAt_none hoff
  refine ⟨fun h => ?_, fun v h => ?_⟩
  · obtain ⟨hold, hs⟩ := h.step_eq
    simp only [hs, hostOpIdle, readIdle, hnone]
  · obtain ⟨hold, hs⟩ := h.step_eq
    simp only [hs, hostOpIdle, writeIdle, hnone]

/-- Settles O54: each is the register's write, with the value it stores named. -/
theorem inputWritesClearFlags : Obligations.InputWritesClearFlags := by
  intro s v es
  exact ⟨fun h => h.write_reg nofun,
    fun h => ⟨setLowHalf s.origLen v, lowHalf_setLowHalf _ _, highHalf_setLowHalf _ _, h.write_reg nofun⟩,
    fun h => ⟨setHighHalf s.origLen v, highHalf_setHighHalf _ _, lowHalf_setHighHalf _ _, h.write_reg nofun⟩,
    fun h => h.write_reg nofun,
    fun h => ⟨setLowHalf s.ibuf.limit v, lowHalf_setLowHalf _ _, highHalf_setLowHalf _ _, h.write_reg nofun⟩,
    fun h => ⟨setHighHalf s.ibuf.limit v, highHalf_setHighHalf _ _, lowHalf_setHighHalf _ _, h.write_reg nofun⟩,
    fun h => ⟨clampLen s.caps.ibuf v, clampLen_toNat _ _, h.write_reg nofun⟩⟩

/-- Settles O55: a byte written is the byte read, and the only one that changes. -/
theorem ibufWriteStoresOneByte : Obligations.IbufWriteStoresOneByte := by
  intro s v es hinv h
  have hs : step s = .next (writeIbuf { s with events := es } v) := h.write_reg nofun
  refine ⟨fun hx => ⟨Memory.write s.ibuf.mem s.sel.ibuf.toNat (v.setWidth 8), ?_, ?_, fun a ha => ?_⟩, fun hx => ?_⟩
  · rw [hs, writeIbuf, if_pos hx]
  · exact Memory.read_write_same hinv.wf _ _
  · exact Memory.read_write_ne ha _
  · rw [hs, writeIbuf, if_neg (Nat.not_lt.2 hx)]

end Sys2Proof.Machine

/-! SUPPORT. Where each piece of state stands in the registers: the images of 10_state.md R34 to R46 as numbers. -/

namespace Sys2Proof.Machine

open BitVec (toNat_setWidth_of_le)

theorem errWord_toNat (e : ErrRegs) : (errWord e).toNat = e.code.toNat + 2 ^ 8 * e.cls.toNat := by
  simp only [errWord, append_toNat, BitVec.toNat_ofNat]
  omega

theorem treeInfo_toNat (t : Tree) :
    (treeInfo t).toNat = t.k.toNat + 2 ^ 16 * t.root.toNat + 2 ^ 28 * (modeCode t.mode).toNat := by
  simp only [treeInfo, append_toNat, BitVec.toNat_ofNat]
  omega

theorem nodeLR_toNat (e : NodeEntry) : (nodeLR e).toNat = e.left.toNat + 2 ^ 16 * e.right.toNat := by
  simp only [nodeLR, append_toNat, BitVec.toNat_ofNat]
  omega

/-- The two weight registers together are the weight (10_state.md R38). -/
theorem nodeW_toNat (e : NodeEntry) : (nodeWLo e).toNat + 2 ^ 32 * (nodeWHi e).toNat = e.weight.toNat := by
  have := e.weight.isLt
  simp only [nodeWLo, nodeWHi, append_toNat, BitVec.toNat_ofNat, BitVec.extractLsb'_toNat]
  omega

/-- A length that fits a register is read in full. -/
theorem ofNat_toNat_of_le {n : Nat} {cap : Word} (h : n ≤ cap.toNat) : (BitVec.ofNat 32 n).toNat = n := by
  rw [BitVec.toNat_ofNat, Nat.mod_eq_of_lt (h.trans_lt cap.isLt)]

/-- A data register shows the byte at the index. -/
theorem byteAt_register {buf : List Byte} {i : Nat} {b : Byte} (h : buf[i]? = some b) :
    ((byteAt buf i).setWidth 32).toNat = b.toNat := by
  have hb : byteAt buf i = b := by simp [byteAt, h]
  rw [hb, toNat_setWidth_of_le (by decide)]

/-- Beyond the buffer it shows 0 (20_memory.md R85). -/
theorem byteAt_register_beyond {buf : List Byte} {i : Nat} (h : buf.length ≤ i) :
    (byteAt buf i).setWidth 32 = (0 : Word) := by
  have hb : byteAt buf i = 0 := by simp [byteAt, List.getElem?_eq_none h]
  rw [hb]
  rfl

/-- `CODE_LEN` is the length of the code, when no code is longer than 255 bits. -/
theorem codeLen_register {code : Bits} (h : code.length ≤ 255) : ((codeLen code).setWidth 32).toNat = code.length := by
  rw [toNat_setWidth_of_le (by decide), codeLen, BitVec.toNat_ofNat]
  omega

/-- A word access at the number that is a register's offset reaches that register. -/
theorem regAt_of_offset {r : Reg} {n : Nat} (h : r.offset = BitVec.ofNat 8 n) :
    r.offset = BitVec.ofNat 8 n ∧ regAt .word (BitVec.ofNat 8 n) = some r := ⟨h, h ▸ regAt_offset r⟩

/-- Settles O50: the offsets by the table, and each register by the lemma that reads its image. -/
theorem registersShowState : Obligations.RegistersShowState := by
  refine ⟨fun p hp => regAt_of_offset ?_, fun s => ⟨⟨rfl, rfl⟩, statusWord_getLsbD s, fun ha => ?_, errWord_toNat s.err,
    ?_, nodeLR_toNat _, nodeW_toNat _, fun hn => ?_, codeLen_register, fun j i hi => codeWord_getLsbD _ j.isLt hi,
    ⟨half_append_half _, half_append_half _, half_append_half _, half_append_half _, half_append_half _,
      half_append_half _⟩,
    ⟨toNat_setWidth_of_le (by decide), toNat_setWidth_of_le (by decide), toNat_setWidth_of_le (by decide),
      toNat_setWidth_of_le (by decide), toNat_setWidth_of_le (by decide), toNat_setWidth_of_le (by decide)⟩,
    ⟨rfl, rfl, rfl, rfl, rfl, rfl, rfl, rfl, rfl, rfl⟩, ofNat_toNat_of_le, ofNat_toNat_of_le, fun _ => byteAt_register,
    byteAt_register_beyond, fun _ => byteAt_register, byteAt_register_beyond, fun hi => ?_, fun hi => ?_⟩⟩
  · -- the table of offsets
    revert p
    decide
  · -- the two ports
    simp only [busyPort, errPort, ha]
    exact ⟨rfl, rfl⟩
  · -- `TREEINFO`
    show (treeInfo s.tree).toNat = _
    rw [treeInfo_toNat]
    cases s.tree.mode <;> rfl
  · -- a node without an entry
    simp only [regRead, nodeGet_of_not_internal _ hn]
    exact ⟨rfl, rfl, rfl⟩
  · -- `IBUF_DATA` within `IBUF`
    simp only [regRead, if_pos hi]
    exact toNat_setWidth_of_le (by decide)
  · -- and beyond it
    simp only [regRead, if_neg (Nat.not_lt.2 hi)]

end Sys2Proof.Machine

/-! SUPPORT. What a decoded command tells of its word: the opcode is in `OPC`, the reserved bits of `ARG` are 0
(30_encoding.md R100 to R103). -/

namespace Sys2Proof

/-- A word is a command exactly when its opcode is one of the 18 and its reserved bits are 0. -/
theorem decode_eq_ok {c : Word} {i : Instr} :
    decode c = .ok i ↔ ∃ op : Opcode, op.code = opcField c ∧ argField c &&& op.reserved = 0 ∧ instrOf op (argField c) = i := by
  constructor
  · intro h
    unfold decode at h
    split at h
    · exact absurd h nofun
    · rename_i op hf
      split at h
      · rename_i hr
        exact ⟨op, by simpa using List.find?_some hf, hr, Except.ok.inj h⟩
      · exact absurd h nofun
  · rintro ⟨op, hc, hr, rfl⟩
    rw [decode_of_code hc, if_pos hr]

@[simp] theorem opcode_instrOf (op : Opcode) (arg : BitVec 24) : (instrOf op arg).opcode = op := by
  cases op <;> rfl

@[simp] theorem arg_instrOf_zero (op : Opcode) : (instrOf op 0).arg = 0 := by
  cases op <;> rfl

/-- A command without operands, all of `ARG` reserved, has one word. -/
theorem encode_of_decode_noOperand {c : Word} {i : Instr} (h : decode c = .ok i)
    (hr : i.opcode.reserved = BitVec.allOnes 24) : encode i = c := by
  obtain ⟨op, hc, harg, rfl⟩ := decode_eq_ok.1 h
  rw [opcode_instrOf] at hr
  rw [hr, BitVec.and_allOnes] at harg
  calc encode (instrOf op (argField c))
      = op.code ++ (instrOf op 0).arg := by rw [encode, opcode_instrOf, harg]
    _ = opcField c ++ argField c := by rw [arg_instrOf_zero, hc, harg]
    _ = c := opcField_append_argField c

end Sys2Proof

/-! SUPPORT. One host operation as a step: a command word that decodes, a register read when nothing runs, and any access that
falls into a busy window (20_memory.md R75 to R79). -/

namespace Sys2Proof.Machine

/-- A command whose word is not acted on is one that ERROR ignores: it changes nothing (30_encoding.md R103 step 2). -/
theorem exec_of_not_actsOn {s : State} {c : Word} {i : Instr} (hd : decode c = .ok i) (hn : actsOn s c = false) :
    exec i s = .next s := by
  have ⟨hidle, hword⟩ : (s.seq == .idle) = false ∧ runsInError c = false := by simpa [actsOn] using hn
  have he : s.seq = .error := by
    cases hs : s.seq with
    | idle => simp [hs] at hidle
    | error => rfl
  rw [exec_inError he]
  cases i with
  | softReset =>
    obtain rfl := encode_of_decode_noOperand hd rfl
    exact absurd hword (by decide)
  | clrErr =>
    obtain rfl := encode_of_decode_noOperand hd rfl
    exact absurd hword (by decide)
  | _ => rfl

/-- A word that decodes, with no host operation in its busy window, is that command, in IDLE and in ERROR. -/
theorem writeCmd_zero {c : Word} {i : Instr} (hd : decode c = .ok i) (s : State) : writeCmd c 0 s = exec i s := by
  cases h : actsOn s c with
  | true => simp only [writeCmd, h, if_true, runWord_ok hd]
  | false => simp only [writeCmd, h, Bool.false_eq_true, if_false, exec_of_not_actsOn hd h]

/-- `withFetchWord` of a command word presents that word. -/
theorem presents_withFetchWord (s : State) (c : Word) : Presents (s.withFetchWord 32 c.toNat) c 0 s.events where
  notBusy := rfl
  wasReset := rfl
  next := by
    rw [State.withFetchWord, cmdEvent, Nat.min_self, Nat.mod_eq_of_lt c.isLt, BitVec.ofNat_toNat, BitVec.setWidth_eq]

/-- Settles O6: the step is the acceptance of the word, which runs the command; `withFetchWord` is one way to present it. -/
theorem stepRunsDecodedCommand : Obligations.StepRunsDecodedCommand := by
  intro s c es i hd
  exact ⟨fun hp => hp.step_eq.trans (writeCmd_zero hd _),
    (presents_withFetchWord s c).step_eq.trans (writeCmd_zero hd _)⟩

/-! ## Reads when nothing runs -/

theorem readIdle_offset (r : Reg) (s : State) : readIdle .word r.offset s = { s with rdata := regRead s r } := by
  unfold readIdle
  rw [regAt_offset]

/-- No register shows what the host is going to do. -/
theorem regRead_events (s : State) (es : List HostEvent) (r : Reg) : regRead { s with events := es } r = regRead s r := by
  cases r <;> rfl

/-- Settles O52: the read is served at once, as `readIdle` of the register its offset reaches. -/
theorem readsHaveNoSideEffect : Obligations.ReadsHaveNoSideEffect := by
  intro s r es h
  obtain ⟨hold, hs⟩ := h.step_eq
  calc step s
      = .next (readIdle .word r.offset { s with events := es }) := hs
    _ = .next { s with events := es, rdata := regRead s r } := by rw [readIdle_offset, regRead_events]

/-! ## The busy window -/

/-- A host operation that falls into a busy window is served as one, and uses up one place of the window. -/
theorem step_of_busy {s : State} {work : Work} {n : Nat} {e : HostEvent} {es : List HostEvent}
    (hr : s.running = some ⟨work, n + 1⟩) (he : s.events = e :: es) :
    step s = .next (hostOpBusy e { s with events := es, running := some ⟨work, n⟩ }) := by
  unfold step
  rw [hr, he]

theorem readBusy_id (s : State) : readBusy .word Reg.id.offset s = { s with rdata := 0x48554601#32 } := by
  unfold readBusy
  rw [regAt_offset]
  rfl

theorem readBusy_status (s : State) : readBusy .word Reg.status.offset s = { s with rdata := statusWord s } := by
  unfold readBusy
  rw [regAt_offset]
  rfl

/-- Whatever a read finds in a busy window, it changes the read data port and the free-value counter only. -/
theorem readBusy_eq (w : AccessWidth) (off : BitVec 8) (s : State) :
    ∃ v k, readBusy w off s = { s with rdata := v, freeCount := k } := by
  unfold readBusy
  split <;> exact ⟨_, _, rfl⟩

/-- Of what keeps the block busy `STATUS` shows only that something does. -/
theorem statusWord_of_busy {s : State} {r : Running} (hr : s.running = some r) (r' : Running) (es : List HostEvent) :
    statusWord { s with events := es, running := some r' } = statusWord s := by
  simp only [statusWord, State.busy, State.errorFlag, hr, Option.isSome_some]

/-- Settles O8: the step is `hostOpBusy` of the access, whose reads are `readBusy_id`, `readBusy_status` and
`readBusy_eq`, and whose writes do nothing. -/
theorem hostAccessWhileBusy : Obligations.HostAccessWhileBusy := by
  intro s work n hold op es hr he
  have hstep := step_of_busy hr he
  refine ⟨?_, ?_, ?_, ?_⟩
  · rintro rfl
    exact hstep.trans (congrArg _ (readBusy_id _))
  · rintro rfl
    refine ⟨hstep.trans (congrArg _ ((readBusy_status _).trans ?_)), ?_⟩
    · rw [statusWord_of_busy hr]
    · rw [statusWord_getLsbD, hr]
      rfl
  · rintro w off rfl
    obtain ⟨v, k, hread⟩ := readBusy_eq w off { s with events := es, running := some ⟨work, n⟩ }
    exact ⟨v, k, hstep.trans (congrArg _ hread)⟩
  · rintro w off v rfl
    exact hstep

end Sys2Proof.Machine

/-! SUPPORT. The operand field of a command, both ways: what `ARG` holds for each row of 30_encoding.md R101, that its operands
are read back from it, and that a field with the reserved bits 0 is the field of the command it stands for. -/

namespace Sys2Proof

open Machine (append_toNat)

/-! ## Words and fields as numbers -/

/-- A command's word is `OPC << 24 | ARG` (30_encoding.md R100). -/
theorem encode_toNat (i : Instr) : (encode i).toNat = 2 ^ 24 * i.opcode.code.toNat + i.arg.toNat := by
  rw [encode, append_toNat, Nat.mul_comm]

theorem arg_bpPutbits_toNat (n : BitVec 5) (v : BitVec 16) :
    (Instr.bpPutbits n v).arg.toNat = 2 ^ 16 * n.toNat + v.toNat := by
  simp only [Instr.arg, append_toNat, BitVec.toNat_ofNat]
  omega

theorem arg_bpPutsym_toNat (x : Sym) : (Instr.bpPutsym x).arg.toNat = x.toNat := by
  simp only [Instr.arg, append_toNat, BitVec.toNat_ofNat]
  omega

theorem arg_buGet_toNat (n : BitVec 5) : (Instr.buGet n).arg.toNat = n.toNat := by
  simp only [Instr.arg, append_toNat, BitVec.toNat_ofNat]
  omega

theorem arg_twCfg_toNat (m : Byte) (x : Sym) : (Instr.twCfg m x).arg.toNat = 2 ^ 8 * m.toNat + x.toNat := by
  simp only [Instr.arg, append_toNat, BitVec.toNat_ofNat]
  omega

/-! ## From a command to its field and back -/

/-- A command is read back from its opcode and its operand field. -/
@[simp] theorem instrOf_opcode_arg (i : Instr) : instrOf i.opcode i.arg = i := by
  cases i with
  | bpPutbits n v =>
    have hn : (Instr.bpPutbits n v).arg.extractLsb' 16 5 = n :=
      BitVec.eq_of_toNat_eq (by rw [BitVec.extractLsb'_toNat, arg_bpPutbits_toNat]; omega)
    rw [Instr.opcode, instrOf, hn, Instr.arg, BitVec.extractLsb'_append_eq_right]
  | bpPutsym x => rw [Instr.opcode, instrOf, Instr.arg, BitVec.extractLsb'_append_eq_right]
  | buGet n => rw [Instr.opcode, instrOf, Instr.arg, BitVec.extractLsb'_append_eq_right]
  | twCfg m x =>
    have hm : (Instr.twCfg m x).arg.extractLsb' 8 8 = m :=
      BitVec.eq_of_toNat_eq (by rw [BitVec.extractLsb'_toNat, arg_twCfg_toNat]; omega)
    rw [Instr.opcode, instrOf, hm, Instr.arg, BitVec.extractLsb'_append_eq_right]
  | _ => rfl

/-- The encoder sets no reserved bit (30_encoding.md R101), for every command. -/
theorem reservedBitsZero (i : Instr) : Laws.ReservedBitsZero.Statement i := by
  cases i with
  | bpPutbits n v => exact Laws.ReservedBitsZero.bpPutbits n v
  | bpPutsym x => exact Laws.ReservedBitsZero.bpPutsym x
  | buGet n => exact Laws.ReservedBitsZero.buGet n
  | twCfg m x => exact Laws.ReservedBitsZero.twCfg m x
  | _ => exact Laws.ReservedBitsZero.of_arg_zero rfl

/-- Settles O1: the opcode is found in `OPC`, no reserved bit is set, and the operands are read back from `ARG`. -/
theorem decodeOfEncode : Obligations.DecodeOfEncode := fun i =>
  decode_eq_ok.2 ⟨i.opcode, (opcField_encode i).symm, reservedBitsZero i, by rw [argField_encode, instrOf_opcode_arg]⟩

/-! ## From a field to its command and back -/

/-- How many low bits of `ARG` an opcode uses; the bits above them are its reserved ones (30_encoding.md R101). -/
def Opcode.operandBits : Opcode → Nat
  | .bpPutbits => 21
  | .bpPutsym => 8
  | .buGet => 5
  | .twCfg => 16
  | _ => 0

theorem Opcode.reserved_eq (op : Opcode) : op.reserved = BitVec.allOnes 24 <<< op.operandBits := by
  cases op <;> rfl

/-- A field with the reserved bits 0 is a number of the bits the opcode uses. -/
theorem toNat_lt_of_and_reserved {op : Opcode} {a : BitVec 24} (h : a &&& op.reserved = 0) :
    a.toNat < 2 ^ op.operandBits := by
  apply Nat.lt_pow_two_of_testBit
  intro k hk
  rw [BitVec.testBit_toNat]
  have hbit : (a &&& op.reserved).getLsbD k = false := by simp [h]
  rw [op.reserved_eq, BitVec.getLsbD_and, BitVec.getLsbD_shiftLeft, BitVec.getLsbD_allOnes] at hbit
  by_cases hk24 : k < 24
  · simpa [hk24, Nat.not_lt.2 hk, show k - op.operandBits < 24 by omega] using hbit
  · exact BitVec.getLsbD_of_ge _ _ (Nat.not_lt.1 hk24)

/-- A field with the reserved bits 0 is the field of the command it stands for: its operands are all there is in it. -/
theorem arg_instrOf {op : Opcode} {a : BitVec 24} (h : a &&& op.reserved = 0) : (instrOf op a).arg = a := by
  apply BitVec.eq_of_toNat_eq
  cases op with
  | bpPutbits =>
    have hlt : a.toNat < 2 ^ 21 := toNat_lt_of_and_reserved h
    rw [instrOf, arg_bpPutbits_toNat, BitVec.extractLsb'_toNat, BitVec.extractLsb'_toNat]
    omega
  | bpPutsym =>
    have hlt : a.toNat < 2 ^ 8 := toNat_lt_of_and_reserved h
    rw [instrOf, arg_bpPutsym_toNat, BitVec.extractLsb'_toNat]
    omega
  | buGet =>
    have hlt : a.toNat < 2 ^ 5 := toNat_lt_of_and_reserved h
    rw [instrOf, arg_buGet_toNat, BitVec.extractLsb'_toNat]
    omega
  | twCfg =>
    have hlt : a.toNat < 2 ^ 16 := toNat_lt_of_and_reserved h
    rw [instrOf, arg_twCfg_toNat, BitVec.extractLsb'_toNat, BitVec.extractLsb'_toNat]
    omega
  | _ => exact (Nat.lt_one_iff.1 (toNat_lt_of_and_reserved h)).symm

/-- Settles O2: the word is its two fields, which are the opcode and the operand field of the command it decodes to. -/
theorem encodeOfDecode : Obligations.EncodeOfDecode := by
  intro c i h
  obtain ⟨op, hc, harg, rfl⟩ := decode_eq_ok.1 h
  calc encode (instrOf op (argField c))
      = op.code ++ argField c := by rw [encode, opcode_instrOf, arg_instrOf harg]
    _ = c := by rw [hc, opcField_append_argField]

/-! ## Words the spec writes out -/

/-- Settles O3: the six words are encodings, so O1 decodes them; the tables are the model's own; and a word with operands is
its opcode and its operand field as numbers. -/
theorem specWordsDecode : Obligations.SpecWordsDecode := by
  refine ⟨⟨decodeOfEncode (.bpPutbits 3 5), decodeOfEncode (.bpPutsym 0x61), decodeOfEncode (.buGet 8),
    decodeOfEncode (.twCfg 1 0x61), decodeOfEncode .tbBuild, decodeOfEncode .nop⟩, rfl, rfl,
    fun n v => ?_, fun x => ?_, fun n => ?_, fun m x => ?_⟩
  · rw [encode_toNat, arg_bpPutbits_toNat, ← Nat.add_assoc]
    rfl
  · rw [encode_toNat, arg_bpPutsym_toNat]
    rfl
  · rw [encode_toNat, arg_buGet_toNat]
    rfl
  · rw [encode_toNat, arg_twCfg_toNat, ← Nat.add_assoc]
    rfl

end Sys2Proof

/-! SUPPORT. Words the block does not execute: those ERROR ignores, undefined opcodes, and operands out of range
(30_encoding.md R103 to R105). -/

namespace Sys2Proof.Machine

/-! ## Words that ERROR ignores -/

/-- In ERROR a word other than the three that run there is not acted on (30_encoding.md R103 step 2). -/
theorem Presents.step_ignored {s : State} {c : Word} {hold : Nat} {es : List HostEvent} (hp : Presents s c hold es)
    (he : s.seq = .error) (hc : runsInError c = false) : step s = .next { s with events := es } := by
  simp [hp.step_eq, writeCmd, actsOn, he, hc]

/-- Settles O9: the word is none of the three that run in ERROR. -/
theorem errorStateIgnoresOtherWords : Obligations.ErrorStateIgnoresOtherWords := by
  intro s c hold es hp he hnop hreset hclr
  have hc : runsInError c = false := by
    rw [← Bool.not_eq_true, runsInError_iff]
    simp only [hnop, hreset, hclr, or_self, not_false_eq_true]
  exact hp.step_ignored he hc

/-! ## Words that raise in IDLE -/

/-- In IDLE a word presented with no host operation in its busy window runs at once (30_encoding.md R103). -/
theorem Presents.step_eq_runWord {s : State} {c : Word} {es : List HostEvent} (hp : Presents s c 0 es) (hi : s.seq = .idle) :
    step s = runWord c { s with events := es } := by
  simp [hp.step_eq, writeCmd, actsOn, hi]

/-- Settles O4: in IDLE the word runs and has no reading; in ERROR it is ignored, since the three words that run there are
defined. -/
theorem undefinedOpcodeIsIllegal : Obligations.UndefinedOpcodeIsIllegal := by
  intro s c es hp hop
  refine ⟨fun hi => ?_, fun he => ?_⟩
  · rw [hp.step_eq_runWord hi]
    exact runWord_illegal hi hop
  · refine errorStateIgnoresOtherWords s c 0 es hp he ?_ ?_ ?_
    · rintro rfl
      exact hop .nop (by decide) rfl
    · rintro rfl
      exact hop .softReset (by decide) rfl
    · rintro rfl
      exact hop .clrErr (by decide) rfl

/-- More than 16 bits to put (43_bit_packer.md R182). -/
theorem exec_bpPutbits_gt {s : State} {n : BitVec 5} {v : BitVec 16} (hi : s.seq = .idle) (hn : 16 < n.toNat) :
    exec (.bpPutbits n v) s = .next (abortRun .badArg ((encode (.bpPutbits n v)).setWidth 64) s) := by
  simp only [exec, execBpPutbits, whenIdle_idle hi, needCount_gt hn, cmd_raise_bind, runCommand_raise]

/-- More than 16 bits to get (44_bit_unpacker.md R204). -/
theorem exec_buGet_gt {s : State} {n : BitVec 5} (hi : s.seq = .idle) (hn : 16 < n.toNat) :
    exec (.buGet n) s = .next (abortRun .badArg ((encode (.buGet n)).setWidth 64) s) := by
  simp only [exec, execBuGet, whenIdle_idle hi, needCount_gt hn, cmd_raise_bind, runCommand_raise]

/-- A mode byte above 2 names no mode (30_encoding.md R127). -/
theorem modeOfByte_gt {m : Byte} (hm : 2 < m.toNat) : modeOfByte m = none := by
  have hne : ∀ k : Byte, k.toNat ≤ 2 → m ≠ k := by
    rintro k hk rfl
    omega
  simp only [modeOfByte, hne 0 (by decide), hne 1 (by decide), hne 2 (by decide), if_false]

/-- A mode byte above 2 (45_tree_walker.md R220). -/
theorem exec_twCfg_gt {s : State} {m : Byte} {x : Sym} (hi : s.seq = .idle) (hm : 2 < m.toNat) :
    exec (.twCfg m x) s = .next (abortRun .fmtMode ((encode (.twCfg m x)).setWidth 64) s) := by
  simp only [exec, execTwCfg, whenIdle_idle hi, modeOfByte_gt hm, raiseWord_eq, runCommand_raise]

/-- Settles O5: a reserved bit ends the acceptance; the other words decode, and their command raises with its own word, which
O2 says is the word presented. -/
theorem badOperandsAreRefused : Obligations.BadOperandsAreRefused := by
  intro s c es hp hi
  refine ⟨fun op _ hcode hres => ?_, fun n v hd hn => ?_, fun n hd hn => ?_, fun m x hd hm => ?_⟩
  · rw [hp.step_eq_runWord hi]
    exact runWord_reserved hi hcode hres
  · rw [(stepRunsDecodedCommand s c es _ hd).1 hp, ← encodeOfDecode _ _ hd]
    exact exec_bpPutbits_gt hi hn
  · rw [(stepRunsDecodedCommand s c es _ hd).1 hp, ← encodeOfDecode _ _ hd]
    exact exec_buGet_gt hi hn
  · rw [(stepRunsDecodedCommand s c es _ hd).1 hp, ← encodeOfDecode _ _ hd]
    exact exec_twCfg_gt hi hm

end Sys2Proof.Machine

/-! SUPPORT. What `TB_BUILD` leaves for no symbol, one symbol and more (41_tree_builder.md R143, R145, R146), and a merge as
the two least nodes of the queue (R144, R147). -/

namespace Sys2Proof.Machine

/-! ## The whole command -/

/-- In IDLE `TB_BUILD` completes with the tree of the counts and their sum (41_tree_builder.md R140, R151 (e)). -/
theorem exec_tbBuild_idle {s : State} (hi : s.seq = .idle) :
    exec .tbBuild s = .next { s with
      tree := buildTree s.freq, codes := { s.codes with valid := false }, tw := { s.tw with active := false, done := false },
      origLen := BitVec.ofNat 64 (freqSum s.freq) } :=
  whenIdle_idle hi _

/-! ## No symbol, and one -/

theorem liveSet_eq_nil {freq : Vector Word 256} (h : ∀ x, symGet freq x = 0) : liveSet freq = [] :=
  List.eq_nil_iff_forall_not_mem.2 fun x hx => (mem_liveSet freq x).1 hx (h x)

theorem liveSet_eq_singleton {freq : Vector Word 256} {x : Sym} (hx : symGet freq x ≠ 0)
    (hy : ∀ y, y ≠ x → symGet freq y = 0) : liveSet freq = [x] := by
  refine List.perm_singleton.1 ((List.perm_ext_iff_of_nodup (liveSet_nodup freq) (List.nodup_singleton x)).2 fun y => ?_)
  rw [mem_liveSet, List.mem_singleton]
  constructor
  · exact fun hne => by_contra fun hyx => hne (hy y hyx)
  · rintro rfl
    exact hx

theorem buildTree_empty {freq : Vector Word 256} (h : liveSet freq = []) :
    buildTree freq = ⟨clearNodes, 0, absent, .empty, 0, true⟩ := by
  have hl : liveLeaves freq = [] := by rw [liveLeaves_eq freq clearNodes, h, List.map_nil]
  unfold buildTree
  rw [hl]

theorem buildTree_single {freq : Vector Word 256} {x : Sym} (h : liveSet freq = [x]) :
    buildTree freq =
      ⟨nodeSet clearNodes 256 ⟨leafIdx x, absent, (symGet freq x).setWidth 40⟩, 1, 256, .single, x, true⟩ := by
  have hl : liveLeaves freq = [⟨(symGet freq x).toNat, leafIdx x⟩] := by
    rw [liveLeaves_eq freq clearNodes, h]
    rfl
  unfold buildTree
  rw [hl]
  simp only [leafIdx_setWidth, BitVec.ofNat_toNat]

/-- Settles O19: no symbol is live, so no node is made and the counts sum to 0. -/
theorem tbBuildEmptyTable : Obligations.TbBuildEmptyTable := by
  intro s hi h0
  have hl := liveSet_eq_nil h0
  rw [exec_tbBuild_idle hi, buildTree_empty hl, ← liveSet_sum, hl]
  rfl

/-- Settles O20: one symbol is live, so its leaf is the queue and its count the sum. -/
theorem tbBuildSingleSymbol : Obligations.TbBuildSingleSymbol := by
  intro s x hi hx hy
  have hl := liveSet_eq_singleton hx hy
  have hsum : freqSum s.freq = (symGet s.freq x).toNat := by simp [← liveSet_sum, hl]
  rw [exec_tbBuild_idle hi, buildTree_single hl, hsum, BitVec.ofNat_toNat]
  rfl

/-! ## Two symbols or more -/

/-- Settles O21: the tree is the one `buildTree_general` describes. -/
theorem tbBuildGeneralTree : Obligations.TbBuildGeneralTree := by
  intro s hi h2
  obtain ⟨h, hg, hmode, hvalid, hsym, hk, hroot, hleaves, hweighed, hbelow, hweight⟩ := buildTree_general h2
  exact ⟨buildTree s.freq, h, exec_tbBuild_idle hi, hg, hmode, hvalid, hsym, hk, hk.symm ▸ hroot, hleaves, hweighed, hbelow,
    hweight, freqSum_lt s.freq⟩

/-- Settles O23: from the root, no edge is taken yet, so `cost_of_weighed` leaves the weights of the internal nodes. -/
theorem tbBuildCostIdentity : Obligations.TbBuildCostIdentity := by
  intro s t hi h2 ht
  obtain rfl := Host.Outcome.next.inj ((exec_tbBuild_idle hi).symm.trans ht)
  obtain ⟨h, hg, -, -, -, -, -, -, hweighed, -⟩ := buildTree_general h2
  refine ⟨h, hg, ?_⟩
  calc h.cost s.freq
      = h.weight (buildTree s.freq).nodes s.freq * 0 + h.innerWeight (buildTree s.freq).nodes :=
        HTree.cost_of_weighed hweighed []
    _ = h.innerWeight (buildTree s.freq).nodes := by rw [Nat.mul_zero, Nat.zero_add]

/-! ## One merge -/

/-- From a queue of distinct indices the least node leaves, and it comes before every other (41_tree_builder.md R144). -/
theorem popLeast_least {live : List QNode} (hne : live ≠ []) (hn : (live.map QNode.idx).Nodup) :
    ∃ a rest, popLeast live = some (a, rest) ∧ live.Perm (a :: rest) ∧ (rest.map QNode.idx).Nodup ∧
      ∀ x ∈ rest, a.before x = true := by
  obtain ⟨a, rest, hpop⟩ := popLeast_ne_nil hne
  obtain ⟨hperm, hleast⟩ := popLeast_some hpop
  have hn' := ((hperm.map QNode.idx).nodup_iff).1 hn
  rw [List.map_cons, List.nodup_cons] at hn'
  obtain ⟨hfresh, hrest⟩ := hn'
  refine ⟨a, rest, hpop, hperm, hrest, fun x hx => QNode.before_total ?_ ?_⟩
  · exact hleast x (hperm.mem_iff.2 (List.mem_cons_of_mem _ hx))
  · exact fun e => hfresh (e ▸ List.mem_map_of_mem hx)

/-- A round of the merge loop, once the two nodes it takes are known (41_tree_builder.md R140). -/
theorem mergeLoop_succ {live rest rest' : List QNode} {a b : QNode} (ha : popLeast live = some (a, rest))
    (hb : popLeast rest = some (b, rest')) (fuel next : Nat) (nodes : Nodes) :
    mergeLoop (fuel + 1) next live nodes =
      mergeLoop fuel (next + 1) (rest' ++ [⟨a.weight + b.weight, BitVec.ofNat 9 next⟩])
        (nodeSet nodes (BitVec.ofNat 9 next) (mergedEntry a b)) := by
  rw [mergeLoop, ha]
  simp only [hb]

/-- A round on two nodes or more merges the least and the least of the rest (41_tree_builder.md R144, R147). -/
theorem mergeLoop_takesTwoLeast (fuel next : Nat) {live : List QNode} (nodes : Nodes) (h2 : 2 ≤ live.length)
    (hn : (live.map QNode.idx).Nodup) :
    ∃ a b rest, live.Perm (a :: b :: rest) ∧ a.before b = true ∧ (∀ x ∈ rest, b.before x = true) ∧
      mergeLoop (fuel + 1) next live nodes =
        mergeLoop fuel (next + 1) (rest ++ [⟨a.weight + b.weight, BitVec.ofNat 9 next⟩])
          (nodeSet nodes (BitVec.ofNat 9 next) (mergedEntry a b)) := by
  obtain ⟨a, others, ha, hp, hn', habefore⟩ := popLeast_least (List.ne_nil_of_length_pos (by omega)) hn
  have hlen := hp.length_eq
  rw [List.length_cons] at hlen
  obtain ⟨b, rest, hb, hp', -, hbbefore⟩ := popLeast_least (List.ne_nil_of_length_pos (by omega)) hn'
  exact ⟨a, b, rest, hp.trans (hp'.cons a), habefore b (hp'.mem_iff.2 (List.mem_cons_self ..)), hbbefore,
    mergeLoop_succ ha hb fuel next nodes⟩

/-- Settles O22: the order is the queue's own, a round is `mergeLoop_takesTwoLeast`, and `buildTree` is the rounds from the
live leaves on. -/
theorem mergeTakesTheTwoLeast : Obligations.MergeTakesTheTwoLeast := by
  refine ⟨fun x y => QNode.before_iff, fun fuel next live nodes => mergeLoop_takesTwoLeast fuel next nodes, mergeLoop_one,
    fun s hi h2 => ?_⟩
  obtain ⟨root, nodes, hmerges, hbuild⟩ := buildTree_merges h2
  exact ⟨liveLeaves s.freq, root, nodes, liveLeaves_nodup s.freq, fun q => mem_liveLeaves, hmerges,
    (exec_tbBuild_idle hi).trans (by rw [hbuild])⟩

end Sys2Proof.Machine

/-! SUPPORT. How `CG_GEN` and `CG_EMIT` end in IDLE (42_code_generator.md R160, R165), and that the code table of a general
tree covers every infinite bit sequence (R162 (f)). -/

namespace Sys2Proof.Machine

/-! ## Preconditions -/

/-- `CG_GEN` without a valid tree (42_code_generator.md R160). -/
theorem exec_cgGen_invalid {s : State} (hi : s.seq = .idle) (hv : s.tree.valid = false) :
    exec .cgGen s = .next (abortRun .badSeq ((encode .cgGen).setWidth 64) s) := by
  simp only [exec, execCgGen, whenIdle_idle hi, hv, need_false, cmd_raise_bind, runCommand_raise]

/-- `CG_EMIT` without a valid tree, outside general mode or with the packer closed: whichever check is the first to fail, it
raises the same error (42_code_generator.md R165). -/
theorem exec_cgEmit_unready {s : State} (hi : s.seq = .idle)
    (h : s.tree.valid = false ∨ s.tree.mode ≠ .general ∨ s.bp.isOpen = false) :
    exec .cgEmit s = .next (abortRun .badSeq ((encode .cgEmit).setWidth 64) s) := by
  simp only [exec, execCgEmit, whenIdle_idle hi]
  cases hv : s.tree.valid
  · simp only [need_false, cmd_raise_bind, runCommand_raise]
  cases hm : s.tree.mode == .general
  · simp only [need_true, cmd_ok_bind, need_false, cmd_raise_bind, runCommand_raise]
  have ho : s.bp.isOpen = false := by simpa [hv, eq_of_beq hm] using h
  simp only [ho, need_true, cmd_ok_bind, need_false, cmd_raise_bind, runCommand_raise]

/-- Settles O26: the first condition that fails raises, with the word of the command as a number. -/
theorem cgNeedsItsTree : Obligations.CgNeedsItsTree :=
  fun _ hi => ⟨exec_cgGen_invalid hi, exec_cgEmit_unready hi⟩

/-! ## The code table -/

/-- `CG_GEN` on a valid tree completes with the tree's code table and touches nothing else (42_code_generator.md R160). -/
theorem exec_cgGen_valid {s : State} (hi : s.seq = .idle) (hv : s.tree.valid = true) {entries : Vector Bits 256}
    (hg : genCodes s.tree = .ok entries) : exec .cgGen s = .next { s with codes := ⟨entries, true⟩ } := by
  simp only [exec, execCgGen, whenIdle_idle hi, hv, need_true, cmd_ok_bind, hg, runCommand_ok]

theorem genCodes_single {t : Tree} (hm : t.mode = .single) : genCodes t = .ok (symSet emptyCodes t.singleSym [false]) := by
  simp only [genCodes, hm]

theorem genCodes_empty {t : Tree} (hm : t.mode = .empty) : genCodes t = .ok emptyCodes := by
  simp only [genCodes, hm]

@[simp] theorem symGet_emptyCodes (x : Sym) : symGet emptyCodes x = [] := symGet_replicate [] x

/-- Settles O24: the table is `recordCodes` of the tree's paths. -/
theorem cgGenGivesPathCodes : Obligations.CgGenGivesPathCodes :=
  fun _ h hi hv hm hg => ⟨recordCodes emptyCodes (h.codes []), exec_cgGen_valid hi hv (genCodes_general hg hm),
    fun _ => genCodes_path hg.leavesOnce, fun _ => genCodes_absent⟩

/-- Settles O25: the empty table, with one entry written in SINGLE mode. -/
theorem cgGenSpecialModes : Obligations.CgGenSpecialModes := by
  intro s hi hv
  refine ⟨fun hm => ⟨_, exec_cgGen_valid hi hv (genCodes_single hm), symGet_symSet_same .., fun x hx => ?_⟩,
    fun hm => ⟨_, exec_cgGen_valid hi hv (genCodes_empty hm), symGet_emptyCodes⟩⟩
  rw [symGet_symSet_ne _ hx, symGet_emptyCodes]

/-! ## Completeness -/

/-- A general tree has an edge above every leaf, so no code is empty (42_code_generator.md R162 (c)). -/
theorem GeneralTree.code_ne_nil {t : Tree} {h : HTree} (g : GeneralTree t h) {x : Sym × Bits} (hx : x ∈ h.codes []) :
    x.2 ≠ [] := by
  obtain ⟨l, r, rfl⟩ := g.exists_node
  rcases List.mem_append.1 hx with hx | hx <;> exact (HTree.prefix_of_mem_codes hx).ne_nil (by simp)

/-- Two leaves whose codes both begin one infinite bit sequence are one leaf: the shorter code begins the longer. -/
theorem HTree.eq_of_begin {h : HTree} {f : Nat → Bool} {x y : Sym × Bits} (hx : x ∈ h.codes []) (hy : y ∈ h.codes [])
    (hxf : x.2 = (List.range x.2.length).map f) (hyf : y.2 = (List.range y.2.length).map f) : x = y := by
  wlog hle : x.2.length ≤ y.2.length generalizing x y
  · exact (this hy hx hyf hxf (Nat.le_of_not_le hle)).symm
  refine HTree.eq_of_prefix hx hy ?_
  rw [hxf, hyf, ← Nat.min_eq_left hle, ← List.take_range, List.map_take]
  exact List.take_prefix ..

/-- A valid code table in general mode records the codes of the tree now held (10_state.md R49 (c), (d)). -/
theorem State.Inv.general_codes {s : State} (hs : s.Inv) (hv : s.codes.valid = true) (hm : s.tree.mode = .general) :
    ∃ h, GeneralTree s.tree h ∧ s.codes.entries = recordCodes emptyCodes (h.codes []) := by
  obtain ⟨htv, hgen⟩ := hs.codes.generated hv
  obtain ⟨h, hg⟩ := hs.tree.general htv hm
  exact ⟨h, hg, Except.ok.inj (hgen.symm.trans (genCodes_general hg hm))⟩

/-- Settles O28: following the bits from the root ends at a leaf, and the codes of two leaves never continue each other. -/
theorem codesAreComplete : Obligations.CodesAreComplete := by
  intro s hs hv hm f
  obtain ⟨h, hg, hentries⟩ := hs.general_codes hv hm
  obtain ⟨x, hx, m, hxm⟩ := h.exists_code f 0
  have hxf : x.2 = (List.range x.2.length).map f := by simp [hxm]
  have hcode : symGet s.codes.entries x.1 = x.2 := hentries ▸ genCodes_path hg.leavesOnce hx
  refine ⟨x.1, ?_, fun y hy hyf => ?_⟩
  · rw [hcode]
    exact ⟨hg.code_ne_nil hx, hxf⟩
  · rw [hentries] at hy hyf
    exact congrArg Prod.fst (HTree.eq_of_begin (genCodes_mem hg.leavesOnce hy) hx hyf hxf)

/-! ## The description -/

/-- `CG_EMIT` with its conditions met puts the bits of the description (42_code_generator.md R165). -/
theorem exec_cgEmit_ready {s : State} (hi : s.seq = .idle) (hv : s.tree.valid = true) (hm : s.tree.mode = .general)
    (ho : s.bp.isOpen = true) {bits : Bits} (hd : desc s.tree.nodes maxDepth s.tree.root = .ok bits) {p : Packer}
    (hp : bpPutAll s.caps.obuf s.bp bits = .ok p) : exec .cgEmit s = .next { s with bp := p } := by
  simp only [exec, execCgEmit, whenIdle_idle hi, hv, hm, ho, beq_self_eq_true, need_true, cmd_ok_bind, hd, hp, runCommand_ok]

/-- The description of a general tree (30_encoding.md R120). -/
theorem GeneralTree.desc_root {t : Tree} {h : HTree} (g : GeneralTree t h) : desc t.nodes maxDepth t.root = .ok h.desc :=
  g.root ▸ desc_held g.held g.inner_length

/-- 9 bits a leaf and 1 bit an internal node, of which there is one fewer (30_encoding.md R121). -/
theorem GeneralTree.desc_length {t : Tree} {h : HTree} (g : GeneralTree t h) : h.desc.length = 10 * t.k.toNat - 1 := by
  have := h.desc_length
  rw [← g.count]
  omega

/-- Settles O29: the packer takes a string of bits it has room for whole, here the description. -/
theorem cgEmitAppendsDescription : Obligations.CgEmitAppendsDescription := by
  intro s h hi hv hm hg ho hp hroom
  rw [← hg.desc_length] at hroom ⊢
  obtain ⟨p, hput, -, hopen, hstream, hcount⟩ := bpPutAll_ok h.desc hp ho hroom
  exact ⟨p, exec_cgEmit_ready hi hv hm ho hg.desc_root hput, hopen, hstream, hcount⟩

end Sys2Proof.Machine

/-! SUPPORT. How the commands of the bit packer end in IDLE (43_bit_packer.md R180 to R184): each, and `CG_EMIT`, is checks
and then work on the packer alone, so what a string of bits does to the stream, and where it finds `OBUF` full, is said once
for all of them (R187). -/

namespace Sys2Proof.Machine

/-! ## Work on the packer -/

/-- A command, its checks passed, whose effect is work on the packer and nothing else. -/
def runPacker (s : State) (work : Cmd Packer) : Host.Outcome State Fault Refusal :=
  runCommand s (work >>= fun p => .ok { s with bp := p })

@[simp] theorem runPacker_ok (s : State) (p : Packer) : runPacker s (.ok p) = .next { s with bp := p } := rfl

@[simp] theorem runPacker_raise (s : State) (e : ErrCode) (info : Len) :
    runPacker s (raise e info) = .next (abortRun e info s) := rfl

/-- A string of bits with room for it (43_bit_packer.md R181, R187). -/
theorem runPacker_putAll_ok {s : State} (bits : Bits) (ho : s.bp.isOpen = true) (hp : PackerInv s.caps.obuf s.bp)
    (hroom : (s.bp.bitcnt.toNat + bits.length) / 8 ≤ s.caps.obuf.toNat) :
    ∃ p, runPacker s (bpPutAll s.caps.obuf s.bp bits) = .next { s with bp := p } ∧ p.isOpen = true ∧
      p.stream = s.bp.stream ++ bits ∧ p.bitcnt.toNat = s.bp.bitcnt.toNat + bits.length := by
  obtain ⟨p, hput, -, hopen, hstream, hcount⟩ := bpPutAll_ok bits hp ho hroom
  exact ⟨p, by rw [hput, runPacker_ok], hopen, hstream, hcount⟩

/-- A string of bits `OBUF` has no room for (43_bit_packer.md R187, 20_memory.md R76). -/
theorem runPacker_putAll_full {s : State} (bits : Bits) (ho : s.bp.isOpen = true) (hp : PackerInv s.caps.obuf s.bp)
    (hfull : s.caps.obuf.toNat < (s.bp.bitcnt.toNat + bits.length) / 8) :
    runPacker s (bpPutAll s.caps.obuf s.bp bits) = .next (abortRun .obufFull (s.caps.obuf.setWidth 64) s) := by
  rw [bpPutAll_full bits hp ho hfull, runPacker_raise]

/-! ## Commands with their preconditions met -/

section Ready

variable {s : State} (hi : s.seq = .idle) (ho : s.bp.isOpen = true)
include hi ho

theorem exec_bpPutbits_ready {n : BitVec 5} (hn : n.toNat ≤ 16) (v : BitVec 16) :
    exec (.bpPutbits n v) s = runPacker s (bpPutAll s.caps.obuf s.bp (lowBits v n.toNat)) := by
  simp only [exec, execBpPutbits, whenIdle_idle hi, needCount_le hn, ho, need_true, cmd_ok_bind, runPacker]

theorem exec_bpPutsym_ready {x : Sym} (hv : s.codes.valid = true) (hx : symGet s.codes.entries x ≠ []) :
    exec (.bpPutsym x) s = runPacker s (bpPutAll s.caps.obuf s.bp (symGet s.codes.entries x)) := by
  simp only [exec, execBpPutsym, whenIdle_idle hi, ho, hv, need_true, cmd_ok_bind, if_neg hx, runPacker]

theorem exec_cgEmit_general {h : HTree} (hv : s.tree.valid = true) (hm : s.tree.mode = .general)
    (hg : GeneralTree s.tree h) : exec .cgEmit s = runPacker s (bpPutAll s.caps.obuf s.bp h.desc) := by
  simp only [exec, execCgEmit, whenIdle_idle hi, hv, hm, ho, beq_self_eq_true, need_true, cmd_ok_bind, hg.desc_root, runPacker]

theorem exec_bpFlush_open : exec .bpFlush s = runPacker s (bpFlush s.caps.obuf s.bp) := by
  simp only [exec, execBpFlush, whenIdle_idle hi, ho, need_true, cmd_ok_bind, runPacker]

end Ready

/-- Settles O31: the string is the `n` low bits of `v`. -/
theorem putBitsAppends : Obligations.PutBitsAppends := by
  intro s n v hi hn ho hp hroom
  rw [exec_bpPutbits_ready hi ho hn]
  simpa only [lowBits_length] using
    runPacker_putAll_ok (lowBits v n.toNat) ho hp (by rwa [lowBits_length])

/-- Settles O32: the string is the code of the symbol. -/
theorem putSymAppends : Obligations.PutSymAppends := by
  intro s x hi ho hv hx hp hroom
  rw [exec_bpPutsym_ready hi ho hv hx]
  exact runPacker_putAll_ok _ ho hp hroom

/-- Settles O34: three of the commands put a string of bits that does not fit, the flush a partial byte that does not. -/
theorem packerRaisesWhenFull : Obligations.PackerRaisesWhenFull := by
  intro s hi ho hp
  refine ⟨fun n v hn hfull => ?_, fun x hv hx hfull => ?_, fun h hv hm hg hfull => ?_, fun hfull => ?_⟩
  · rw [exec_bpPutbits_ready hi ho hn]
    exact runPacker_putAll_full _ ho hp (by rwa [lowBits_length])
  · rw [exec_bpPutsym_ready hi ho hv hx]
    exact runPacker_putAll_full _ ho hp hfull
  · rw [exec_cgEmit_general hi ho hv hm hg]
    exact runPacker_putAll_full _ ho hp (by rwa [hg.desc_length])
  · rw [exec_bpFlush_open hi ho, bpFlush_full hp ho hfull, runPacker_raise]

/-- Settles O35: the bytes are those `bpFlush_ok` gives. -/
theorem flushPadsAndCloses : Obligations.FlushPadsAndCloses := by
  intro s hi ho hp hroom
  obtain ⟨bytes, hflush, -, hlen, hpad⟩ := bpFlush_ok hp ho hroom
  exact ⟨bytes, by rw [exec_bpFlush_open hi ho, hflush, runPacker_ok], hlen, hpad⟩

/-- Settles O30: `BP_INIT` has no precondition but IDLE. -/
theorem bpInitOpensEmpty : Obligations.BpInitOpensEmpty :=
  fun _ hi => whenIdle_idle hi _

/-! ## Preconditions not met -/

theorem exec_bpPutbits_closed {s : State} {n : BitVec 5} (hi : s.seq = .idle) (hn : n.toNat ≤ 16)
    (hc : s.bp.isOpen = false) (v : BitVec 16) :
    exec (.bpPutbits n v) s = .next (abortRun .badSeq ((encode (.bpPutbits n v)).setWidth 64) s) := by
  simp only [exec, execBpPutbits, whenIdle_idle hi, needCount_le hn, cmd_ok_bind, hc, need_false, cmd_raise_bind,
    runCommand_raise]

/-- Whichever of the two flags is the first that is not set, the error is the same (43_bit_packer.md R183). -/
theorem exec_bpPutsym_unready {s : State} (hi : s.seq = .idle) (h : s.bp.isOpen = false ∨ s.codes.valid = false) (x : Sym) :
    exec (.bpPutsym x) s = .next (abortRun .badSeq ((encode (.bpPutsym x)).setWidth 64) s) := by
  simp only [exec, execBpPutsym, whenIdle_idle hi]
  cases ho : s.bp.isOpen
  · simp only [need_false, cmd_raise_bind, runCommand_raise]
  · have hv : s.codes.valid = false := h.resolve_left (by simp [ho])
    simp only [need_true, cmd_ok_bind, hv, need_false, cmd_raise_bind, runCommand_raise]

theorem exec_bpPutsym_noCode {s : State} {x : Sym} (hi : s.seq = .idle) (ho : s.bp.isOpen = true)
    (hv : s.codes.valid = true) (hx : symGet s.codes.entries x = []) :
    exec (.bpPutsym x) s = .next (abortRun .noCode (x.setWidth 64) s) := by
  simp only [exec, execBpPutsym, whenIdle_idle hi, ho, hv, need_true, cmd_ok_bind, if_pos hx, runCommand_raise]

/-- The word is that of the command, `0x33000000`. -/
theorem exec_bpFlush_closed {s : State} (hi : s.seq = .idle) (hc : s.bp.isOpen = false) :
    exec .bpFlush s = .next (abortRun .badSeq ((encode .bpFlush).setWidth 64) s) := by
  simp only [exec, execBpFlush, whenIdle_idle hi, hc, need_false, cmd_raise_bind, runCommand_raise]

/-- Settles O33: the first condition that fails raises; the word of `BP_FLUSH` is its encoding as a number. -/
theorem packerPreconditions : Obligations.PackerPreconditions :=
  fun _ hi => ⟨fun _ v hn hc => exec_bpPutbits_closed hi hn hc v, fun x h => exec_bpPutsym_unready hi h x,
    fun _ => exec_bpPutsym_noCode hi, exec_bpFlush_closed hi⟩

end Sys2Proof.Machine

/-! SUPPORT. How `BU_INIT` and `BU_GET` end in IDLE (44_bit_unpacker.md R203, R204): what `buGet` answers for the bits left,
and the commands in terms of it. -/

namespace Sys2Proof.Machine

/-! ## BU_INIT -/

theorem exec_buInit_fits {s : State} (hi : s.seq = .idle) (hw : windowFits s.ibuf = true) :
    exec .buInit s = .next { s with bu := ⟨true, 0, 0⟩ } := by
  simp only [exec, execBuInit, whenIdle_idle hi, if_pos hw, runCommand_ok]

theorem exec_buInit_badRange {s : State} (hi : s.seq = .idle) (hw : ¬ windowFits s.ibuf = true) :
    exec .buInit s = .next (abortRun .badRange s.ibuf.limit s) := by
  simp only [exec, execBuInit, whenIdle_idle hi, if_neg hw, runCommand_raise]

theorem windowFits_iff {w : InBuf} :
    windowFits w = true ↔ 8 * w.base.toNat + w.limit.toNat ≤ 8 * w.len.toNat := decide_eq_true_iff

/-- Settles O36: the two conditions are `windowFits` and its negation. -/
theorem buInitOpensOrRefuses : Obligations.BuInitOpensOrRefuses :=
  fun _ hi => ⟨fun hfit => exec_buInit_fits hi (windowFits_iff.2 hfit),
    fun hover => exec_buInit_badRange hi (mt windowFits_iff.1 (Nat.not_le_of_lt hover))⟩

/-! ## BU_GET -/

/-- `BU_DATA` of a read that found its bits, as a number (10_state.md R43). -/
theorem buData_toNat (n : BitVec 5) (x : BitVec 16) : (buData false n x).toNat = x.toNat + 2 ^ 16 * n.toNat := by
  simp only [buData, append_toNat, BitVec.toNat_ofBool, Bool.toNat_false, BitVec.toNat_ofNat]
  omega

/-- With bits too few only `BU_DATA` changes: `EOS` alone is set. -/
theorem buGet_eos {w : InBuf} {n : BitVec 5} {u : Unpacker} (hfew : w.limit.toNat - u.pos.toNat < n.toNat) (cap : Word) :
    buGet cap w n u = .ok { u with data := 0x80000000#32 } := if_pos hfew

/-- With bits enough the next `n` are the result, and the cursor moves by `n`. -/
theorem Readable.buGet_bits {cap : Word} {w : InBuf} {u : Unpacker} (h : Readable cap w u) {n : BitVec 5}
    (hn : n.toNat ≤ 16) (hleft : n.toNat ≤ (unread w u).length) :
    ∃ x : BitVec 16, Machine.buGet cap w n u = .ok { u with pos := u.pos + n.setWidth 64, data := buData false n x } ∧
      lowBits x n.toNat = (unread w u).take n.toNat ∧ x.toNat < 2 ^ n.toNat := by
  obtain ⟨x, htake, hbits, hlt⟩ := buTake_ok h.buf h.fits n.toNat 0 0 u (by decide) (by omega) hleft
  rw [Nat.zero_add] at hbits hlt
  rw [BitVec.ofNat_toNat] at htake
  have henough : ¬ w.limit.toNat - u.pos.toNat < n.toNat := by rwa [← unread_length, Nat.not_lt]
  exact ⟨x, by simp only [Machine.buGet, if_neg henough, htake], hbits, hlt⟩

theorem exec_buGet_ok {s : State} {n : BitVec 5} {u : Unpacker} (hi : s.seq = .idle) (hn : n.toNat ≤ 16)
    (ho : s.bu.isOpen = true) (hu : buGet s.caps.ibuf s.ibuf n s.bu = .ok u) :
    exec (.buGet n) s = .next { s with bu := u } := by
  simp only [exec, execBuGet, whenIdle_idle hi, needCount_le hn, ho, need_true, cmd_ok_bind, hu, runCommand_ok]

theorem exec_buGet_closed {s : State} {n : BitVec 5} (hi : s.seq = .idle) (hn : n.toNat ≤ 16) (hc : s.bu.isOpen = false) :
    exec (.buGet n) s = .next (abortRun .badSeq ((encode (.buGet n)).setWidth 64) s) := by
  simp only [exec, execBuGet, whenIdle_idle hi, needCount_le hn, cmd_ok_bind, hc, need_false, cmd_raise_bind,
    runCommand_raise]

/-- Settles O37: the bits are those `Readable.buGet_bits` gives, and `BU_DATA` is the number `buData_toNat` says. -/
theorem buGetTakesBits : Obligations.BuGetTakesBits := by
  intro s n hi hn ho hbu hbuf hleft
  obtain ⟨x, hget, hbits, hlt⟩ := (Readable.of_inv hbuf hbu ho).buGet_bits hn hleft
  rw [ho] at hget
  exact ⟨x, buData false n x, exec_buGet_ok hi hn ho hget, buData_toNat n x, hbits, hlt⟩

/-- Settles O38: the unpacker's answer is `buGet_eos`; a closed one is the failed precondition. -/
theorem buGetAtTheEnd : Obligations.BuGetAtTheEnd := by
  intro s n hi hn
  refine ⟨fun ho hfew => ?_, exec_buGet_closed hi hn⟩
  have hget := buGet_eos hfew s.caps.ibuf
  rw [ho] at hget
  exact exec_buGet_ok hi hn ho hget

end Sys2Proof.Machine

/-! SUPPORT. How `TW_CFG`, `TW_LOAD` and `TW_START` end in IDLE (45_tree_walker.md R220 to R230): the checks of each command,
and then its effect; for `TW_LOAD` the outcomes are those of `loadTree`. -/

namespace Sys2Proof.Machine

/-! ## TW_CFG -/

/-- A mode byte that names a mode leaves that mode's tree, and clears the flags a new tree clears (45_tree_walker.md R220). -/
theorem exec_twCfg_mode {s : State} {m : Byte} {mode : Mode} (hi : s.seq = .idle) (hm : modeOfByte m = some mode)
    (x : Sym) : exec (.twCfg m x) s = .next (withNewTree s (cfgTree mode x)) := by
  simp only [exec, execTwCfg, whenIdle_idle hi, hm, runCommand_ok]

/-- Settles O39: the bytes 0, 1 and 2 name the three modes. -/
theorem twCfgModes : Obligations.TwCfgModes :=
  fun _ x hi => ⟨exec_twCfg_mode (mode := .empty) hi rfl x, exec_twCfg_mode (mode := .single) hi rfl x,
    exec_twCfg_mode (mode := .general) hi rfl x⟩

/-! ## TW_LOAD -/

theorem exec_twLoad_closed {s : State} (hi : s.seq = .idle) (hc : s.bu.isOpen = false) :
    exec .twLoad s = .next (abortRun .badSeq ((encode .twLoad).setWidth 64) s) := by
  simp only [exec, execTwLoad, whenIdle_idle hi, hc, need_false, cmd_raise_bind, runCommand_raise]

section Open

variable {s : State} (hi : s.seq = .idle) (ho : s.bu.isOpen = true)
include hi ho

/-- A description that is read: the tree is new, and the cursor stands behind it (45_tree_walker.md R225). -/
theorem exec_twLoad_ok {t : Tree} {u : Unpacker} (hl : loadTree s.caps.ibuf s.ibuf s.bu = .ok (t, u)) :
    exec .twLoad s = .next { withNewTree s t with bu := u } := by
  simp only [exec, execTwLoad, whenIdle_idle hi, ho, need_true, cmd_ok_bind, hl, runCommand_ok]

theorem exec_twLoad_raise {e : ErrCode} {info : Len} (hl : loadTree s.caps.ibuf s.ibuf s.bu = raise e info) :
    exec .twLoad s = .next (abortRun e info s) := by
  simp only [exec, execTwLoad, whenIdle_idle hi, ho, need_true, cmd_ok_bind, hl, cmd_raise_bind, runCommand_raise]

end Open

/-- The load at the end of the window (45_tree_walker.md R225). -/
theorem loadTree_eos {w : InBuf} {u : Unpacker} (h : u.pos = w.limit) (cap : Word) :
    loadTree cap w u = raise .fmtTreeTrunc u.pos := by
  simp only [loadTree, parseBit, buNext_eos h]
  rfl

/-- The load of a stream whose first marker is 1 (45_tree_walker.md R225). -/
theorem Readable.loadTree_rootleaf {cap : Word} {w : InBuf} {u : Unpacker} (hr : Readable cap w u)
    (hfirst : (unread w u).head? = some true) : Machine.loadTree cap w u = raise .fmtTreeRootleaf (u.pos + 1) := by
  obtain ⟨rest, hu⟩ := List.head?_eq_some_iff.1 hfirst
  obtain ⟨hbit, -, -⟩ := parseBit_cons (p := ⟨u, 256, [], clearNodes⟩) hr hu
  simp only [Machine.loadTree, hbit]
  rfl

/-- Settles O42: the unpacker is checked before a bit is read, and the first bit read decides the other two. -/
theorem twLoadFirstMarker : Obligations.TwLoadFirstMarker :=
  fun _ hi => ⟨exec_twLoad_closed hi, fun ho hend => exec_twLoad_raise hi ho (loadTree_eos hend _),
    fun ho hu hw hfirst => exec_twLoad_raise hi ho ((Readable.of_inv hw hu ho).loadTree_rootleaf hfirst)⟩

/-- Settles O40: the tree and the cursor are those of `loadTree_complete`. -/
theorem twLoadReadsDescription : Obligations.TwLoadReadsDescription := by
  intro s i l r hi ho hu hw hn hp
  obtain ⟨t, h, hload, hfacts⟩ := loadTree_complete (.of_inv hw hu ho) hn hp
  exact ⟨t, h, exec_twLoad_ok hi ho hload, hfacts⟩

/-- Settles O41: every outcome is one of `loadTree_sound`, a fault behind a fault-free beginning is `loadTree_fault`, and a
repeated symbol `loadTree_dup`. -/
theorem twLoadAcceptsOnlyTrees : Obligations.TwLoadAcceptsOnlyTrees := by
  intro s hi ho hu hw behind
  have hr := Readable.of_inv hw hu ho
  refine ⟨?_, fun ts hts hbig hp => exec_twLoad_raise hi ho (loadTree_fault (t := .inner) hr hts hbig hp),
    fun ts x hts hx hp => exec_twLoad_raise hi ho (loadTree_fault (t := .leaf x) hr hts hx hp), fun i l r hp hle hn => ?_⟩
  · rcases loadTree_sound hr with ⟨t, g, hload, hg, hm, hv, -, hp⟩ | ⟨e, hload, herr⟩
    · exact ⟨_, exec_twLoad_ok hi ho hload, .inl ⟨hi, hv, hm, g, hg, hp, rfl⟩⟩
    · cases herr with
      | trunc => exact ⟨_, exec_twLoad_raise hi ho hload, .inr (.inl rfl)⟩
      | rootleaf hfirst => exact ⟨_, exec_twLoad_raise hi ho hload, .inr (.inr (.inl ⟨hfirst, rfl⟩))⟩
      | @fault ts t hts hf hp =>
        refine ⟨_, exec_twLoad_raise hi ho hload, .inr (.inr (.inr ?_))⟩
        cases t with
        | inner => exact .inl ⟨ts, hts, hf, hp, rfl⟩
        | leaf x => exact .inr ⟨ts, x, hts, hf, hp, rfl⟩
  · obtain ⟨ts, x, hpre, hx, hload⟩ := loadTree_dup hr hn hle hp
    exact ⟨ts, x, hpre, hx, exec_twLoad_raise hi ho hload⟩

/-! ## TW_START -/

/-- A tree that is not valid, or general mode without the unpacker: whichever check fails, the error is the same
(45_tree_walker.md R230). -/
theorem exec_twStart_unready {s : State} (hi : s.seq = .idle)
    (h : s.tree.valid = false ∨ (s.tree.mode = .general ∧ s.bu.isOpen = false)) :
    exec .twStart s = .next (abortRun .badSeq ((encode .twStart).setWidth 64) s) := by
  simp only [exec, execTwStart, whenIdle_idle hi]
  cases hv : s.tree.valid
  · simp only [need_false, cmd_raise_bind, runCommand_raise]
  · obtain ⟨hm, hc⟩ := h.resolve_left (by simp [hv])
    simp only [need_true, cmd_ok_bind, hm, hc, bne_self_eq_false, Bool.or_false, need_false, cmd_raise_bind,
      runCommand_raise]

/-- The check on the unpacker that `TW_START`, `TW_STEP` and `TW_RUN` share: only general mode reads bits. -/
theorem unpackerReady {t : Tree} {isOpen : Bool} (h : t.mode = .general → isOpen = true) :
    (t.mode != .general || isOpen) = true := by
  cases hm : t.mode <;> simp [h, hm]

/-- The checks passed, only the length is left to check in EMPTY mode (45_tree_walker.md R230). -/
theorem exec_twStart_ready {s : State} (hi : s.seq = .idle) (hv : s.tree.valid = true)
    (ho : s.tree.mode = .general → s.bu.isOpen = true) :
    exec .twStart s = if s.tree.mode = .empty ∧ s.origLen ≠ 0 then .next (abortRun .fmtLenMode s.origLen s)
      else .next { s with tw := ⟨true, s.origLen == 0, s.tree.root, 0, []⟩ } := by
  simp only [exec, execTwStart, whenIdle_idle hi, hv, need_of (unpackerReady ho), need_true, cmd_ok_bind]
  split
  · exact runCommand_raise ..
  · exact runCommand_ok ..

/-- Settles O43: the checks in their order. -/
theorem twStartBegins : Obligations.TwStartBegins := by
  refine fun s hi => ⟨fun hv ho hl => ?_, exec_twStart_unready hi, fun hv hm hl => ?_⟩
  · rw [exec_twStart_ready hi hv ho, if_neg fun ⟨hm, hne⟩ => hne (hl hm)]
  · rw [exec_twStart_ready hi hv (by simp [hm]), if_pos ⟨hm, hl⟩]

end Sys2Proof.Machine

/-! SUPPORT. How `TW_STEP` and `TW_RUN` end in IDLE (45_tree_walker.md R231 to R237): each is checks and then work on the
unpacker and the walker, whose outcomes are those of `twStep` and `twLoop`. -/

namespace Sys2Proof.Machine

/-! ## Work on the unpacker and the walker -/

/-- A command, its checks passed, whose effect is work on the unpacker and the walker and nothing else. -/
def runWalker (s : State) (work : Cmd (Unpacker × Walker)) : Host.Outcome State Fault Refusal :=
  runCommand s (work >>= fun x => .ok { s with bu := x.1, tw := x.2 })

@[simp] theorem runWalker_ok (s : State) (u : Unpacker) (k : Walker) :
    runWalker s (.ok (u, k)) = .next { s with bu := u, tw := k } := rfl

@[simp] theorem runWalker_raise (s : State) (e : ErrCode) (info : Len) :
    runWalker s (raise e info) = .next (abortRun e info s) := rfl

/-- The unpacker and the walker a step has left do not show where the work that goes on from them ends: a completion writes
both, and error entry resets both (60_exceptions.md R300). -/
theorem runWalker_update (s : State) (u : Unpacker) (k : Walker) (work : Cmd (Unpacker × Walker)) :
    runWalker { s with bu := u, tw := k } work = runWalker s work := by
  rcases work with (⟨e, info⟩ | f) | x <;> rfl

/-- `TW_STEP` with its checks passed (45_tree_walker.md R232). -/
theorem exec_twStep_ready {s : State} (hi : s.seq = .idle) (ha : s.tw.active = true) (hd : s.tw.done = false)
    (ho : s.tree.mode = .general → s.bu.isOpen = true) :
    exec .twStep s = runWalker s (twStep s.caps s.ibuf s.tree s.origLen s.bu s.tw) := by
  simp only [exec, execTwStep, whenIdle_idle hi, ha, hd, Bool.not_false, need_of (unpackerReady ho), need_true, cmd_ok_bind,
    runWalker]

/-- `TW_RUN` with its checks passed (45_tree_walker.md R233). -/
theorem exec_twRun_ready {s : State} (hi : s.seq = .idle) (ha : s.tw.active = true)
    (ho : s.tree.mode = .general → s.tw.done = false → s.bu.isOpen = true) :
    exec .twRun s = runWalker s (twLoop s.caps s.ibuf s.tree s.origLen walkFuel s.bu s.tw) := by
  have hready : (s.tree.mode != .general || s.tw.done || s.bu.isOpen) = true := by
    rw [Bool.or_assoc]
    refine unpackerReady fun hm => ?_
    cases hd : s.tw.done
    · exact ho hm hd
    · rfl
  simp only [exec, execTwRun, whenIdle_idle hi, ha, need_of hready, need_true, cmd_ok_bind, runWalker]

/-! ## Preconditions -/

/-- Whichever check of `TW_STEP` is the first to fail, the error is the same (45_tree_walker.md R232). -/
theorem exec_twStep_unready {s : State} (hi : s.seq = .idle)
    (h : s.tw.active = false ∨ s.tw.done = true ∨ (s.tree.mode = .general ∧ s.bu.isOpen = false)) :
    exec .twStep s = .next (abortRun .badSeq ((encode .twStep).setWidth 64) s) := by
  simp only [exec, execTwStep, whenIdle_idle hi]
  cases ha : s.tw.active
  · simp only [need_false, cmd_raise_bind, runCommand_raise]
  cases hd : s.tw.done
  · obtain ⟨hm, hc⟩ : s.tree.mode = .general ∧ s.bu.isOpen = false := by simpa [ha, hd] using h
    simp only [Bool.not_false, need_true, cmd_ok_bind, hm, hc, bne_self_eq_false, Bool.or_false, need_false, cmd_raise_bind,
      runCommand_raise]
  · simp only [need_true, cmd_ok_bind, Bool.not_true, need_false, cmd_raise_bind, runCommand_raise]

/-- The same of `TW_RUN` (45_tree_walker.md R233). -/
theorem exec_twRun_unready {s : State} (hi : s.seq = .idle)
    (h : s.tw.active = false ∨ (s.tree.mode = .general ∧ s.tw.done = false ∧ s.bu.isOpen = false)) :
    exec .twRun s = .next (abortRun .badSeq ((encode .twRun).setWidth 64) s) := by
  simp only [exec, execTwRun, whenIdle_idle hi]
  cases ha : s.tw.active
  · simp only [need_false, cmd_raise_bind, runCommand_raise]
  · obtain ⟨hm, hd, hc⟩ := h.resolve_left (by simp [ha])
    simp only [need_true, cmd_ok_bind, hm, hd, hc, bne_self_eq_false, Bool.or_false, need_false, cmd_raise_bind,
      runCommand_raise]

/-- Settles O44: the checks are those of the two commands, and the loop of a walk that is done takes no step. -/
theorem twStepAndRunPreconditions : Obligations.TwStepAndRunPreconditions := by
  refine fun s hi => ⟨exec_twStep_unready hi, exec_twRun_unready hi, fun ha hd => ?_⟩
  rw [exec_twRun_ready hi ha (by simp [hd]), twLoop_done hd, runWalker_ok]

/-! ## One step -/

/-- Settles O45: the step is `twStep_single`, by whether `SOUT` is full. -/
theorem twStepSingleMode : Obligations.TwStepSingleMode := by
  intro s hi ha hd hm
  rw [exec_twStep_ready hi ha hd (by simp [hm]), twStep_single hm hd, ha]
  refine ⟨fun hroom => ?_, fun hfull => ?_⟩
  · rw [if_neg hroom.ne, runWalker_ok]
  · rw [if_pos hfull, runWalker_raise]

/-- Settles O46: the step is `twStep_eos` with no bit left, else `twStep_bit` by the child of the bit. -/
theorem twStepGeneralMode : Obligations.TwStepGeneralMode := by
  intro s hi ha hd hm ho hu hw
  have hr := Readable.of_inv hw hu ho
  have hns : s.tree.mode ≠ .single := by simp [hm]
  rw [exec_twStep_ready hi ha hd fun _ => ho]
  refine ⟨fun hend => by rw [twStep_eos hns hr hend, runWalker_raise], fun b rest c hb hc => ?_⟩
  obtain ⟨hinner, hleaf⟩ := twStep_bit (origLen := s.origLen) hns hd hr hb hc
  refine ⟨fun hint => by rw [hinner hint, runWalker_ok]; rfl, fun x hx hroom => ?_, fun x hx hfull => ?_⟩
  · rw [hleaf x hx, if_neg hroom.ne, runWalker_ok, ha]
    rfl
  · rw [hleaf x hx, if_pos hfull, runWalker_raise]

/-! ## A run to the end -/

/-- Settles O47: the loop emits the copies still owed. -/
theorem twRunSingleMode : Obligations.TwRunSingleMode := by
  intro s hi ha hm hk hroom
  obtain ⟨-, hcount⟩ := hk.counted ha
  have hfuel := lt_walkFuel s.tree s.origLen s.ibuf s.bu s.tw
  rw [if_pos hm] at hfuel
  rw [exec_twRun_ready hi ha (by simp [hm]),
    twLoop_single hm hroom _ hk ha (Nat.add_sub_cancel' hcount) hfuel.le, runWalker_ok]

/-- `walkFuel` as one step and the steps after it. -/
theorem walkFuel_eq : walkFuel = 2 ^ 64 + 1 := rfl

/-- `walkFuel` is more than the bits left. -/
theorem unread_lt_walkFuel (w : InBuf) (u : Unpacker) : (unread w u).length < walkFuel := by
  have := w.limit.isLt
  rw [unread_length, walkFuel_eq]
  omega

/-- What the stream begins with is shorter than `walkFuel`. -/
theorem lt_walkFuel_of_prefix {w : InBuf} {u : Unpacker} {bits : Bits} (h : bits <+: unread w u) :
    bits.length < walkFuel := h.length_le.trans_lt (unread_lt_walkFuel w u)

/-- Settles O48: the loop is `twLoop_payload` from the root and `twLoop_within` from inside a code. -/
theorem twRunDecodesPayload : Obligations.TwRunDecodesPayload := by
  intro s h payload padding hi ha hm ho hg hu hw hk hp hroom
  have hr := Readable.of_inv hw hu ho
  rw [exec_twRun_ready hi ha fun _ _ => ho]
  refine ⟨fun hcur hb hn => ?_, fun path code sub x hsub hcur hne hx hb hn => ?_⟩
  · rw [twLoop_payload hg hm hroom payload hp hr hb hk ha hcur hn walkFuel
      (lt_walkFuel_of_prefix ⟨_, hb.symm⟩).le, runWalker_ok]
    rfl
  · rw [twLoop_within hg hm hroom hp hsub hne hx hr hb hk ha hcur hn walkFuel
      (lt_walkFuel_of_prefix ⟨_, hb.symm⟩).le, runWalker_ok]
    rfl

/-! ## Within the invariants -/

/-- A walk to go on within the invariants: it is active, and in general mode it is done or the unpacker is open. -/
structure Walks (s : State) : Prop where
  inv : s.Inv
  idle : s.seq = .idle
  active : s.tw.active = true
  ready : s.tree.mode = .general → s.tw.done = false → s.bu.isOpen = true

namespace Walks

variable {s : State} (h : Walks s)
include h

theorem exec_twRun : exec .twRun s = runWalker s (twLoop s.caps s.ibuf s.tree s.origLen walkFuel s.bu s.tw) :=
  exec_twRun_ready h.idle h.active h.ready

theorem readable (hm : s.tree.mode = .general) (hd : s.tw.done = false) : Readable s.caps.ibuf s.ibuf s.bu :=
  .of_inv h.inv.inbuf h.inv.unpacker (h.ready hm hd)

/-- With symbols still owed the walk is not done. -/
theorem not_done (hlt : s.tw.count.toNat < s.origLen.toNat) : s.tw.done = false := by
  rw [← Bool.not_eq_true, h.inv.walker.done h.active]
  exact fun e => hlt.ne (congrArg BitVec.toNat e)

/-- The subtree an active walk stands on is an internal node: a leaf has no index from 256 on (45_tree_walker.md R231). -/
theorem standsAt {tree sub : HTree} {path : Bits} (hm : s.tree.mode = .general) (hsub : tree.subtreeAt path = some sub)
    (hcur : s.tw.cur = sub.root) : StandsAt tree path s.tw := by
  cases sub with
  | leaf x =>
    have hnode := (h.inv.walker.onNode h.active hm).1
    rw [hcur, HTree.root, leafIdx_toNat] at hnode
    exact absurd x.isLt (Nat.not_lt.2 hnode)
  | node i l r => exact ⟨i, l, r, hsub, hcur⟩

/-- The loop ends with `walkFuel` steps (45_tree_walker.md R233). -/
theorem twLoop_cases : twLoop s.caps s.ibuf s.tree s.origLen walkFuel s.bu s.tw = raise .corEos s.ibuf.limit ∨
    twLoop s.caps s.ibuf s.tree s.origLen walkFuel s.bu s.tw = raise .soutFull (s.caps.sout.setWidth 64) ∨
    ∃ u k, twLoop s.caps s.ibuf s.tree s.origLen walkFuel s.bu s.tw = .ok (u, k) ∧ k.done = true ∧ k.count = s.origLen ∧
      k.sout.length = s.origLen.toNat := by
  rcases Machine.twLoop_cases h.inv.tree walkFuel h.inv.walker h.active h.readable (lt_walkFuel ..) with
    hend | hend | ⟨n, k, hend, ha, hd, hk, -⟩
  · exact .inl hend
  · exact .inr (.inl hend)
  · have hc := (hk.done ha).1 hd
    exact .inr (.inr ⟨_, k, hend, hd, hc, by rw [(hk.counted ha).1, hc]⟩)

/-- `TW_RUN` ends done, at the end of the stream or with `SOUT` full (45_tree_walker.md R233, R236). -/
theorem exec_twRun_cases : ∃ t, exec .twRun s = .next t ∧
    ((t.seq = .idle ∧ t.tw.done = true ∧ t.tw.count = s.origLen ∧ t.tw.sout.length = s.origLen.toNat) ∨
      t = abortRun .corEos s.ibuf.limit s ∨ t = abortRun .soutFull (s.caps.sout.setWidth 64) s) := by
  rw [h.exec_twRun]
  rcases h.twLoop_cases with hend | hend | ⟨u, k, hend, hfacts⟩ <;> rw [hend]
  · exact ⟨_, runWalker_raise .., .inr (.inl rfl)⟩
  · exact ⟨_, runWalker_raise .., .inr (.inr rfl)⟩
  · exact ⟨_, runWalker_ok .., .inl ⟨h.idle, hfacts⟩⟩

/-- A step raises an error that is not `COR_WALKOFF`, or leaves the walk active and the unpacker as open as it was
(45_tree_walker.md R231, R236). -/
theorem twStep_cases (hd : s.tw.done = false) :
    (∃ e info, e ≠ .corWalkoff ∧ twStep s.caps s.ibuf s.tree s.origLen s.bu s.tw = raise e info) ∨
      ∃ u k, twStep s.caps s.ibuf s.tree s.origLen s.bu s.tw = .ok (u, k) ∧ k.active = true ∧ u.isOpen = s.bu.isOpen := by
  cases hm : s.tree.mode with
  | empty => exact absurd (h.inv.walker.done_of_empty h.active hm) (by simp [hd])
  | single =>
    rcases twStep_single_cases hm h.inv.walker h.active hd with hfull | ⟨k, hstep, ha, -⟩
    · exact .inl ⟨_, _, by decide, hfull⟩
    · exact .inr ⟨_, k, hstep, ha, rfl⟩
  | general =>
    obtain ⟨g, hg⟩ := h.inv.tree.general (h.inv.walker.tree h.active) hm
    rcases twStep_general_cases hm hg (h.readable hm hd) h.inv.walker h.active hd with
      heos | hfull | ⟨k, hstep, ha, -⟩
    · exact .inl ⟨_, _, by decide, heos⟩
    · exact .inl ⟨_, _, by decide, hfull⟩
    · exact .inr ⟨_, k, hstep, ha, rfl⟩

/-- A run whose first step raises raises the same. -/
theorem exec_twRun_of_raise (hd : s.tw.done = false) {e : ErrCode} {info : Len}
    (hs : twStep s.caps s.ibuf s.tree s.origLen s.bu s.tw = raise e info) :
    exec .twRun s = .next (abortRun e info s) := by
  rw [h.exec_twRun, walkFuel_eq, twLoop_stop hd hs]
  rfl

/-- A run whose first step completes is the run from there: the one step less that is left is enough as well. -/
theorem exec_twRun_of_step (hd : s.tw.done = false) {u : Unpacker} {k : Walker} (ha : k.active = true)
    (ho : u.isOpen = s.bu.isOpen) (hs : twStep s.caps s.ibuf s.tree s.origLen s.bu s.tw = .ok (u, k)) :
    exec .twRun s = exec .twRun { s with bu := u, tw := k } := by
  have hends : twLoop s.caps s.ibuf s.tree s.origLen walkFuel s.bu s.tw ≠ .error (.fault .noTree) := by
    rcases h.twLoop_cases with hend | hend | ⟨u, k, hend, -⟩ <;> rw [hend] <;> nofun
  have hloop : twLoop s.caps s.ibuf s.tree s.origLen walkFuel s.bu s.tw =
      twLoop s.caps s.ibuf s.tree s.origLen walkFuel u k := by
    rw [walkFuel_eq, twLoop_step hd hs] at hends ⊢
    exact (twLoop_succ _ hends).symm
  have hnext := exec_twRun_ready (s := { s with bu := u, tw := k }) h.idle ha fun hm _ => ho.trans (h.ready hm hd)
  rw [h.exec_twRun, hloop]
  exact (hnext.trans (runWalker_update ..)).symm

/-- While the walk is not done `TW_RUN` is a `TW_STEP`, and then `TW_RUN` again unless the step raised
(45_tree_walker.md R233). -/
theorem exec_twStep_twRun (hd : s.tw.done = false) : ∃ t, exec .twStep s = .next t ∧
    (t.seq = .error → exec .twRun s = .next t) ∧ (t.seq = .idle → exec .twRun s = exec .twRun t) := by
  rw [exec_twStep_ready h.idle h.active hd fun hm => h.ready hm hd]
  rcases h.twStep_cases hd with ⟨e, info, -, hs⟩ | ⟨u, k, hs, ha, ho⟩ <;> rw [hs]
  · exact ⟨_, runWalker_raise .., fun _ => h.exec_twRun_of_raise hd hs, nofun⟩
  · exact ⟨_, runWalker_ok .., fun he => absurd (h.idle.symm.trans he) nofun, fun _ => h.exec_twRun_of_step hd ha ho hs⟩

end Walks

/-- Settles O49: the outcomes and the steps are those above; the failing streams are `twLoop_cut` and `twLoop_full` from the
node the walk stands on, and in SINGLE mode `twLoop_single_full`. -/
theorem twRunAlwaysEnds : Obligations.TwRunAlwaysEnds := by
  intro s hinv hi ha ho
  have h : Walks s := ⟨hinv, hi, ha, ho⟩
  refine ⟨h.exec_twRun_cases, h.exec_twStep_twRun, fun tree sub payload path rest hm hg hsub hcur hp hb => ?_,
    fun hm hroom => ?_⟩ <;> rw [h.exec_twRun]
  · have hat := h.standsAt hm hsub hcur
    have hcount := (hinv.walker.counted ha).1
    have hfits := hinv.walker.fits
    refine ⟨fun ⟨x, more, hmore, hx⟩ hn hroom => ?_, fun hn hroom => ?_⟩
    · have hr := h.readable hm (h.not_done (by omega))
      rw [twLoop_cut hg hm hp hx hmore hr hb hinv.walker ha hat hn hroom walkFuel (unread_lt_walkFuel ..), runWalker_raise]
    · have hr := h.readable hm (h.not_done (by omega))
      rw [twLoop_full hg hm hp hr hb hinv.walker ha hat hn hroom walkFuel (unread_lt_walkFuel ..), runWalker_raise]
  · have hfuel := lt_walkFuel s.tree s.origLen s.ibuf s.bu s.tw
    rw [if_pos hm] at hfuel
    rw [twLoop_single_full hm hroom hinv.walker ha hfuel, runWalker_raise]

end Sys2Proof.Machine

/-! SUPPORT. How a command ends within the invariants, said once for each: it completes in IDLE, or it raises an error that is
not `COR_WALKOFF` (45_tree_walker.md R231, R236). No command raises that error but `TW_STEP` and `TW_RUN`, and there the walk
stands on an internal node of a general tree, whose children are never absent. -/

namespace Sys2Proof.Machine

/-! ## Two ways to end -/

/-- `COR_WALKOFF` has a `CODE` of its own (60_exceptions.md R291). -/
theorem ErrCode.eq_corWalkoff_of_code {e : ErrCode} : e.code = ErrCode.code .corWalkoff → e = .corWalkoff := by
  cases e <;> decide

/-- A command run in the state `s` completes in IDLE, or ends in error entry for an error other than `COR_WALKOFF`. -/
def EndsWell (s : State) (o : Host.Outcome State Fault Refusal) : Prop :=
  (∃ t, o = .next t ∧ t.seq = .idle) ∨ ∃ e info, o = .next (abortRun e info s) ∧ e ≠ .corWalkoff

namespace EndsWell

theorem completes {s t : State} {o : Host.Outcome State Fault Refusal} (h : o = .next t) (ht : t.seq = .idle) :
    EndsWell s o := .inl ⟨t, h, ht⟩

theorem raises {s : State} {o : Host.Outcome State Fault Refusal} {e : ErrCode} {info : Len}
    (h : o = .next (abortRun e info s)) (he : e ≠ .corWalkoff := by decide) : EndsWell s o := .inr ⟨e, info, h, he⟩

/-- What ends well is not error entry `COR_WALKOFF`: a completion is not in ERROR, another error has another code. -/
theorem ne_walkoff {s t : State} {o : Host.Outcome State Fault Refusal} (h : EndsWell s o) (ho : o = .next t) (info : Len) :
    t ≠ abortRun .corWalkoff info s := by
  rintro rfl
  rcases h with ⟨t, ht, hidle⟩ | ⟨e, info', ht, he⟩
  · obtain rfl := Host.Outcome.next.inj (ho.symm.trans ht)
    exact absurd hidle nofun
  · have herr := congrArg State.err (Host.Outcome.next.inj (ht.symm.trans ho))
    exact he (ErrCode.eq_corWalkoff_of_code (congrArg ErrRegs.code herr))

end EndsWell

/-! ## Each command within the invariants -/

/-- The faults of a tree description are format errors (60_exceptions.md R291). -/
theorem faultOf_ne_walkoff (t : Token) : faultOf t ≠ .corWalkoff := by
  cases t <;> nofun

/-- A mode byte up to 2 names a mode (30_encoding.md R127). -/
theorem exists_modeOfByte {m : Byte} (hm : m.toNat ≤ 2) : ∃ mode, modeOfByte m = some mode := by
  obtain rfl | rfl | rfl : m = 0 ∨ m = 1 ∨ m = 2 := by bv_omega
  · exact ⟨.empty, rfl⟩
  · exact ⟨.single, rfl⟩
  · exact ⟨.general, rfl⟩

section Idle

variable {s : State} (hi : s.seq = .idle)
include hi

theorem exec_ioAbort_endsWell : EndsWell s (exec .ioAbort s) := .raises (whenIdle_idle hi _)

theorem exec_buInit_endsWell : EndsWell s (exec .buInit s) := by
  by_cases hw : windowFits s.ibuf = true
  · exact .completes (exec_buInit_fits hi hw) hi
  · exact .raises (exec_buInit_badRange hi hw)

theorem exec_twCfg_endsWell (m : Byte) (x : Sym) : EndsWell s (exec (.twCfg m x) s) := by
  rcases Nat.lt_or_ge 2 m.toNat with hm | hm
  · exact .raises (exec_twCfg_gt hi hm)
  · obtain ⟨mode, hmode⟩ := exists_modeOfByte hm
    exact .completes (exec_twCfg_mode hi hmode x) hi

theorem exec_twStart_endsWell : EndsWell s (exec .twStart s) := by
  by_cases hnot : s.tree.valid = false ∨ (s.tree.mode = .general ∧ s.bu.isOpen = false)
  · exact .raises (exec_twStart_unready hi hnot)
  simp only [not_or, Bool.not_eq_false, not_and] at hnot
  obtain ⟨hv, ho⟩ := hnot
  rw [exec_twStart_ready hi hv ho]
  split
  · exact .raises rfl
  · exact .completes rfl hi

end Idle

section Invariants

variable {s : State} (h : s.Inv) (hi : s.seq = .idle)
include h hi

/-- A string of bits put into the open packer (43_bit_packer.md R187). -/
theorem runPacker_putAll_endsWell (ho : s.bp.isOpen = true) (bits : Bits) :
    EndsWell s (runPacker s (bpPutAll s.caps.obuf s.bp bits)) := by
  rcases bpPutAll_cases bits h.packer ho with ⟨p, hput, -⟩ | hput <;> rw [hput]
  · exact .completes (runPacker_ok s p) hi
  · exact .raises (runPacker_raise ..)

theorem exec_cgGen_endsWell : EndsWell s (exec .cgGen s) := by
  cases hv : s.tree.valid
  · exact .raises (exec_cgGen_invalid hi hv)
  · obtain ⟨c, hc, -⟩ := genCodes_ok h.tree hv
    exact .completes (exec_cgGen_valid hi hv hc) hi

theorem exec_cgEmit_endsWell : EndsWell s (exec .cgEmit s) := by
  by_cases hnot : s.tree.valid = false ∨ s.tree.mode ≠ .general ∨ s.bp.isOpen = false
  · exact .raises (exec_cgEmit_unready hi hnot)
  · simp only [not_or, Bool.not_eq_false, ne_eq, Decidable.not_not] at hnot
    obtain ⟨hv, hm, ho⟩ := hnot
    obtain ⟨g, hg⟩ := h.tree.general hv hm
    rw [exec_cgEmit_general hi ho hv hm hg]
    exact runPacker_putAll_endsWell h hi ho g.desc

theorem exec_bpPutbits_endsWell (n : BitVec 5) (v : BitVec 16) : EndsWell s (exec (.bpPutbits n v) s) := by
  rcases Nat.lt_or_ge 16 n.toNat with hn | hn
  · exact .raises (exec_bpPutbits_gt hi hn)
  cases ho : s.bp.isOpen
  · exact .raises (exec_bpPutbits_closed hi hn ho v)
  · rw [exec_bpPutbits_ready hi ho hn]
    exact runPacker_putAll_endsWell h hi ho _

theorem exec_bpPutsym_endsWell (x : Sym) : EndsWell s (exec (.bpPutsym x) s) := by
  by_cases hnot : s.bp.isOpen = false ∨ s.codes.valid = false
  · exact .raises (exec_bpPutsym_unready hi hnot x)
  simp only [not_or, Bool.not_eq_false] at hnot
  obtain ⟨ho, hv⟩ := hnot
  by_cases hx : symGet s.codes.entries x = []
  · exact .raises (exec_bpPutsym_noCode hi ho hv hx)
  · rw [exec_bpPutsym_ready hi ho hv hx]
    exact runPacker_putAll_endsWell h hi ho _

theorem exec_bpFlush_endsWell : EndsWell s (exec .bpFlush s) := by
  cases ho : s.bp.isOpen
  · exact .raises (exec_bpFlush_closed hi ho)
  rw [exec_bpFlush_open hi ho]
  rcases Nat.lt_or_ge s.caps.obuf.toNat ((s.bp.bitcnt.toNat + 7) / 8) with hfull | hroom
  · rw [bpFlush_full h.packer ho hfull]
    exact .raises (runPacker_raise ..)
  · obtain ⟨bytes, hflush, -⟩ := bpFlush_ok h.packer ho hroom
    rw [hflush]
    exact .completes (runPacker_ok ..) hi

theorem exec_buGet_endsWell (n : BitVec 5) : EndsWell s (exec (.buGet n) s) := by
  rcases Nat.lt_or_ge 16 n.toNat with hn | hn
  · exact .raises (exec_buGet_gt hi hn)
  cases ho : s.bu.isOpen
  · exact .raises (exec_buGet_closed hi hn ho)
  rcases Nat.lt_or_ge (unread s.ibuf s.bu).length n.toNat with hfew | hleft
  · rw [unread_length] at hfew
    exact .completes (exec_buGet_ok hi hn ho (buGet_eos hfew _)) hi
  · obtain ⟨x, hget, -⟩ := (h.readable ho).buGet_bits hn hleft
    exact .completes (exec_buGet_ok hi hn ho hget) hi

theorem exec_twLoad_endsWell : EndsWell s (exec .twLoad s) := by
  cases ho : s.bu.isOpen
  · exact .raises (exec_twLoad_closed hi ho)
  rcases loadTree_sound (h.readable ho) with ⟨t, g, hload, -⟩ | ⟨e, hload, herr⟩
  · exact .completes (exec_twLoad_ok hi ho hload) hi
  cases herr with
  | trunc => exact .raises (exec_twLoad_raise hi ho hload)
  | rootleaf => exact .raises (exec_twLoad_raise hi ho hload)
  | @fault ts t => exact .raises (exec_twLoad_raise hi ho hload) (faultOf_ne_walkoff t)

theorem exec_twStep_endsWell : EndsWell s (exec .twStep s) := by
  by_cases hnot : s.tw.active = false ∨ s.tw.done = true ∨ (s.tree.mode = .general ∧ s.bu.isOpen = false)
  · exact .raises (exec_twStep_unready hi hnot)
  simp only [not_or, Bool.not_eq_false, Bool.not_eq_true, not_and] at hnot
  obtain ⟨ha, hd, ho⟩ := hnot
  rw [exec_twStep_ready hi ha hd ho]
  rcases Walks.twStep_cases ⟨h, hi, ha, fun hm _ => ho hm⟩ hd with ⟨e, info, he, hs⟩ | ⟨u, k, hs, -⟩ <;> rw [hs]
  · exact .raises (runWalker_raise ..) he
  · exact .completes (runWalker_ok ..) hi

theorem exec_twRun_endsWell : EndsWell s (exec .twRun s) := by
  by_cases hnot : s.tw.active = false ∨ (s.tree.mode = .general ∧ s.tw.done = false ∧ s.bu.isOpen = false)
  · exact .raises (exec_twRun_unready hi hnot)
  simp only [not_or, Bool.not_eq_false, not_and] at hnot
  obtain ⟨ha, ho⟩ := hnot
  obtain ⟨t, hrun, ⟨ht, -⟩ | rfl | rfl⟩ := Walks.exec_twRun_cases ⟨h, hi, ha, ho⟩
  · exact .completes hrun ht
  · exact .raises hrun
  · exact .raises hrun

end Invariants

/-- Every command, within the invariants and in IDLE, completes in IDLE or raises an error that is not `COR_WALKOFF`. -/
theorem exec_endsWell {s : State} (h : s.Inv) (hi : s.seq = .idle) (i : Instr) : EndsWell s (exec i s) := by
  cases i with
  | nop => exact .completes rfl hi
  | softReset => exact .completes rfl rfl
  | clrErr => exact .completes rfl rfl
  | ioAbort => exact exec_ioAbort_endsWell hi
  | tbBuild => exact .completes (exec_tbBuild_idle hi) hi
  | cgGen => exact exec_cgGen_endsWell h hi
  | cgEmit => exact exec_cgEmit_endsWell h hi
  | bpInit => exact .completes (bpInitOpensEmpty s hi) hi
  | bpPutbits n v => exact exec_bpPutbits_endsWell h hi n v
  | bpPutsym x => exact exec_bpPutsym_endsWell h hi x
  | bpFlush => exact exec_bpFlush_endsWell h hi
  | buInit => exact exec_buInit_endsWell hi
  | buGet n => exact exec_buGet_endsWell h hi n
  | twCfg m x => exact exec_twCfg_endsWell hi m x
  | twLoad => exact exec_twLoad_endsWell h hi
  | twStart => exact exec_twStart_endsWell hi
  | twStep => exact exec_twStep_endsWell h hi
  | twRun => exact exec_twRun_endsWell h hi

/-- Settles O14: every command ends well. -/
theorem walkoffIsUnreachable : Obligations.WalkoffIsUnreachable :=
  fun i _ _ h hi ht => (exec_endsWell h hi i).ne_walkoff ht

end Sys2Proof.Machine

/-! SUPPORT. The system commands (46_system_commands.md R250 to R253) and the reset pin (70_reset_and_hazards.md R330, R332):
the pin is served at rest, in a busy window and while a reset is awaited, and always gives the same state. -/

namespace Sys2Proof.Machine

/-! ## The system commands -/

theorem exec_nop (s : State) : exec .nop s = .next s := rfl

theorem exec_softReset (s : State) : exec .softReset s = .next (resetElements s) := rfl

theorem exec_clrErr (s : State) : exec .clrErr s = .next (clearError s) := rfl

theorem exec_ioAbort_idle {s : State} (hi : s.seq = .idle) : exec .ioAbort s = .next (abortRun .ioAbort 0 s) :=
  (whenIdle_idle hi _).trans (runCommand_raise s .ioAbort 0)

/-- Settles O17: three commands have one rule in IDLE and in ERROR, `IO_ABORT` has one for each. -/
theorem nopClrErrIoAbort : Obligations.NopClrErrIoAbort :=
  fun s => ⟨exec_nop s, exec_clrErr s, exec_ioAbort_idle, fun he => exec_inError he .ioAbort⟩

/-! ## The reset pin -/

/-- The three ways a pending host operation is served when no busy window has just run out: at rest, while a reset is
awaited, or in the busy window. -/
theorem step_serves {s : State} {e : HostEvent} {es : List HostEvent} (he : s.events = e :: es)
    (hr : ∀ w, s.running ≠ some ⟨w, 0⟩) :
    step s = hostOpIdle e { s with events := es } ∨ step s = hostOpUnreset e { s with events := es } ∨
      ∃ r, step s = .next (hostOpBusy e { s with events := es, running := r }) := by
  match hrun : s.running with
  | some ⟨w, 0⟩ => exact absurd hrun (hr w)
  | some ⟨w, n + 1⟩ => exact .inr (.inr ⟨_, step_of_busy hrun he⟩)
  | none =>
    unfold step
    rw [hrun, he]
    cases s.awaitingReset with
    | false => exact .inl rfl
    | true => exact .inr (.inl rfl)

/-- Of the state before it a hardware reset keeps the capacities and the host's side only, whatever ran. -/
theorem hardReset_eq (hold : Nat) (s : State) (r : Option Running) :
    hardReset hold { s with running := r } =
      { resetElements s with running := if hold = 0 then none else some ⟨.clearing, hold⟩ } := by
  cases hold <;> rfl

/-- The reset pin acts whatever the block is doing (70_reset_and_hazards.md R330 (a)). -/
theorem step_hardReset {s : State} {hold : Nat} {es : List HostEvent} (he : s.events = ⟨.hardReset, hold⟩ :: es)
    (hr : ∀ w, s.running ≠ some ⟨w, 0⟩) :
    step s = .next { resetElements { s with events := es } with
      running := if hold = 0 then none else some ⟨.clearing, hold⟩ } := by
  rcases step_serves he hr with h | h | ⟨r, h⟩
  · exact h.trans (congrArg _ (hardReset_eq hold { s with events := es } s.running))
  · exact h.trans (congrArg _ (hardReset_eq hold { s with events := es } s.running))
  · exact h.trans (congrArg _ (hardReset_eq hold { s with events := es } r))

/-- Settles O16: the command and the pin both are `resetElements`, and the end of the clearing has no work left to do. -/
theorem softResetEqualsHardReset : Obligations.SoftResetEqualsHardReset :=
  ⟨exec_softReset, fun _ _ _ he hr => step_hardReset he hr, fun _ hw => step_of_windowOver hw⟩

end Sys2Proof.Machine

/-! SUPPORT. The codes of a valid table against each other (47_host_procedures.md R276): no symbol has a code in EMPTY mode,
one symbol has in SINGLE mode, and in GENERAL mode the codes are the paths to the leaves of one tree. -/

namespace Sys2Proof.Machine

/-- In SINGLE mode a symbol with a code is the tree's one symbol (42_code_generator.md R163). -/
theorem eq_singleSym_of_coded {t : Tree} {entries : Vector Bits 256} (hm : t.mode = .single)
    (hgen : genCodes t = .ok entries) {x : Sym} (hx : symGet entries x ≠ []) : x = t.singleSym := by
  obtain rfl := Except.ok.inj ((genCodes_single hm).symm.trans hgen)
  by_contra hne
  exact hx (by rw [symGet_symSet_ne _ hne, symGet_emptyCodes])

/-- In EMPTY mode no symbol has a code (42_code_generator.md R167 (a)). -/
theorem no_code_of_empty {t : Tree} {entries : Vector Bits 256} (hm : t.mode = .empty)
    (hgen : genCodes t = .ok entries) (x : Sym) : symGet entries x = [] := by
  obtain rfl := Except.ok.inj ((genCodes_empty hm).symm.trans hgen)
  exact symGet_emptyCodes x

/-- Settles O27: two symbols with codes are one where there are no two (EMPTY and SINGLE mode), and two leaves of a general
tree where the one path begins the other. -/
theorem codesArePrefixFree : Obligations.CodesArePrefixFree := by
  intro s hs hv a b hab ha hb hpre
  obtain ⟨-, hgen⟩ := hs.codes.generated hv
  cases hm : s.tree.mode with
  | empty => exact ha (no_code_of_empty hm hgen a)
  | single => exact hab ((eq_singleSym_of_coded hm hgen ha).trans (eq_singleSym_of_coded hm hgen hb).symm)
  | general =>
    obtain ⟨h, hg, hentries⟩ := hs.general_codes hv hm
    rw [hentries] at ha hb hpre
    have hleaf := HTree.eq_of_prefix (genCodes_mem hg.leavesOnce ha) (genCodes_mem hg.leavesOnce hb) hpre
    exact hab (congrArg Prod.fst hleaf)

end Sys2Proof.Machine

/-! SUPPORT. Errors (60_exceptions.md R291 to R303): what error entry leaves of each unit, that only `SOFT_RESET`, `CLR_ERR` and
error entry write the sequencer and the error registers, and that a command in ERROR raises nothing. -/

namespace Sys2Proof.Machine

/-! ## Error entry -/

/-- After reset every node reads as its reset entry (41_tree_builder.md R141). -/
@[simp] theorem nodeGet_treeReset (n : NodeIdx) : nodeGet Tree.reset.nodes n = NodeEntry.reset := nodeGet_clearNodes n

/-- After reset no symbol has a code. -/
@[simp] theorem symGet_codesReset (x : Sym) : symGet CodeTable.reset.entries x = [] := symGet_replicate [] x

/-- Settles O11: each unit is its reset value, of which only the two tables have to be read entry by entry. -/
theorem errorEntryState : Obligations.ErrorEntryState := by
  intro e info s
  have hnodes (n : NodeIdx) : nodeGet (abortRun e info s).tree.nodes n = ⟨511, 511, 0⟩ := nodeGet_treeReset n
  have hcodes (x : Sym) : symGet (abortRun e info s).codes.entries x = [] := symGet_codesReset x
  exact ⟨rfl, rfl, rfl, rfl, rfl, rfl, rfl, hnodes, hcodes, rfl, rfl, rfl, rfl, rfl, rfl, rfl, rfl⟩

/-- Settles O13: the 16 images, computed from `CODE` and `CLASS`. -/
theorem errorCodeTable : Obligations.ErrorCodeTable := by
  unfold Obligations.ErrorCodeTable
  decide

/-! ## Errors are precise -/

/-- `SEQ`, `ERR` and `ERRINFO` are as before. -/
def SameSequencer (s t : State) : Prop := t.seq = s.seq ∧ t.err = s.err

/-- A command of which each completion leaves the sequencer as it is changes it by error entry only: to be ignored changes
nothing. -/
theorem raised_or_sameSequencer {s t : State} {done : Prop} (h : Ignored s t ∨ Raised s t ∨ done)
    (hdone : done → SameSequencer s t) : Raised s t ∨ SameSequencer s t := by
  rcases h with ⟨-, rfl⟩ | h | h
  · exact .inr ⟨rfl, rfl⟩
  · exact .inl h
  · exact .inr (hdone h)

/-- No command but `SOFT_RESET` and `CLR_ERR` writes the sequencer, unless it raises: a completion writes the units only. -/
theorem exec_raised_or_sameSequencer {i : Instr} {s t : State} (hr : i ≠ .softReset) (hc : i ≠ .clrErr)
    (h : exec i s = .next t) : Raised s t ∨ SameSequencer s t := by
  cases i with
  | nop =>
    obtain rfl := Host.Outcome.next.inj h
    exact .inr ⟨rfl, rfl⟩
  | softReset => exact absurd rfl hr
  | clrErr => exact absurd rfl hc
  | ioAbort => exact raised_or_sameSequencer ((execIoAbort_cases h).imp_right .inl) False.elim
  | tbBuild => exact raised_or_sameSequencer ((execTbBuild_cases h).imp_right .inr) fun ⟨_, ht⟩ => ht ▸ ⟨rfl, rfl⟩
  | cgGen => exact raised_or_sameSequencer (execCgGen_cases h) fun ⟨_, _, _, _, ht⟩ => ht ▸ ⟨rfl, rfl⟩
  | cgEmit => exact raised_or_sameSequencer (execCgEmit_cases h) fun ⟨_, _, _, _, _, _, _, _, ht⟩ => ht ▸ ⟨rfl, rfl⟩
  | bpInit => exact raised_or_sameSequencer ((execBpInit_cases h).imp_right .inr) fun ⟨_, ht⟩ => ht ▸ ⟨rfl, rfl⟩
  | bpPutbits n v => exact raised_or_sameSequencer (execBpPutbits_cases h) fun ⟨_, _, _, _, _, ht⟩ => ht ▸ ⟨rfl, rfl⟩
  | bpPutsym x => exact raised_or_sameSequencer (execBpPutsym_cases h) fun ⟨_, _, _, _, _, _, ht⟩ => ht ▸ ⟨rfl, rfl⟩
  | bpFlush => exact raised_or_sameSequencer (execBpFlush_cases h) fun ⟨_, _, _, _, ht⟩ => ht ▸ ⟨rfl, rfl⟩
  | buInit => exact raised_or_sameSequencer (execBuInit_cases h) fun ⟨_, _, ht⟩ => ht ▸ ⟨rfl, rfl⟩
  | buGet n => exact raised_or_sameSequencer (execBuGet_cases h) fun ⟨_, _, _, _, _, ht⟩ => ht ▸ ⟨rfl, rfl⟩
  | twCfg m x => exact raised_or_sameSequencer (execTwCfg_cases h) fun ⟨_, _, _, ht⟩ => ht ▸ ⟨rfl, rfl⟩
  | twLoad => exact raised_or_sameSequencer (execTwLoad_cases h) fun ⟨_, _, _, _, _, ht⟩ => ht ▸ ⟨rfl, rfl⟩
  | twStart => exact raised_or_sameSequencer (execTwStart_cases h) fun ⟨_, _, _, _, ht⟩ => ht ▸ ⟨rfl, rfl⟩
  | twStep => exact raised_or_sameSequencer (execTwStep_cases h) fun ⟨_, _, _, _, _, _, _, ht⟩ => ht ▸ ⟨rfl, rfl⟩
  | twRun => exact raised_or_sameSequencer (execTwRun_cases h) fun ⟨_, _, _, _, _, _, ht⟩ => ht ▸ ⟨rfl, rfl⟩

/-- Settles O12: `SOFT_RESET` and `CLR_ERR` clear the sequencer, every other command raises or leaves it, here in IDLE. -/
theorem errorsArePrecise : Obligations.ErrorsArePrecise := by
  intro i s t hi h
  by_cases hr : i = .softReset
  · subst hr
    obtain rfl := Host.Outcome.next.inj ((exec_softReset s).symm.trans h)
    exact .inr (.inl ⟨resetElements_seq s, resetElements_err s⟩)
  by_cases hc : i = .clrErr
  · subst hc
    obtain rfl := Host.Outcome.next.inj ((exec_clrErr s).symm.trans h)
    exact .inr (.inl ⟨clearError_seq s, clearError_err s⟩)
  rcases exec_raised_or_sameSequencer hr hc h with ⟨-, hraised⟩ | ⟨hseq, herr⟩
  · exact .inr (.inr hraised)
  · exact .inl ⟨hseq.trans hi, herr⟩

/-! ## Errors are not nested -/

/-- Settles O10: in ERROR `SOFT_RESET` and `CLR_ERR` return to IDLE, every other command is ignored. -/
theorem errorsAreNotNested : Obligations.ErrorsAreNotNested := by
  intro i s he
  cases i with
  | softReset => exact .inr ⟨resetElements s, exec_softReset s, resetElements_seq s, resetElements_err s⟩
  | clrErr => exact .inr ⟨clearError s, exec_clrErr s, clearError_seq s, clearError_err s⟩
  | _ => exact .inl (exec_inError he _)

end Sys2Proof.Machine

/-! SUPPORT. Reset and power-up (70_reset_and_hazards.md R330, R331): the registers after reset, and what the host's next
operation meets while a reset is awaited; then, that within the invariants no step gets stuck (R350, R351). -/

namespace Sys2Proof.Machine

/-! ## The registers after reset -/

/-- The image of no code is 0 (30_encoding.md R111). -/
@[simp] theorem codeImage_nil : codeImage [] = 0 := by
  have hzero : shiftIn (0 : BitVec 256) false = 0 := by decide
  exact List.foldl_fixed' (fun _ => hzero) _

@[simp] theorem codeWord_nil (j : Nat) : codeWord [] j = 0 := by
  rw [codeWord, codeImage_nil]
  exact BitVec.extractLsb'_zero

/-- Settles O15: a register that shows a table's entry shows the table's reset entry, `IBUF_DATA` shows 0 within `IBUF` and
beyond it, whatever the capacity, and every other register is computed. -/
theorem resetRegisterImages : Obligations.ResetRegisterImages := by
  intro r
  cases r with
  | freqData => exact symGet_replicate 0 _
  | nodeLr => exact congrArg nodeLR (nodeGet_treeReset 0)
  | nodeWLo => exact congrArg nodeWLo (nodeGet_treeReset 0)
  | nodeWHi => exact congrArg nodeWHi (nodeGet_treeReset 0)
  | codeLen => exact congrArg (fun c => (codeLen c).setWidth 32) (symGet_codesReset 0)
  | codeBits j => exact (congrArg (codeWord · j) (symGet_codesReset 0)).trans (codeWord_nil j)
  | ibufData =>
    show regRead State.reset .ibufData = 0
    exact ite_self 0
  | _ => rfl

/-! ## Power-up -/

/-- While a reset is awaited the host's next operation is served by its own rule. -/
theorem step_of_awaitingReset {s : State} {e : HostEvent} {es : List HostEvent} (hr : s.running = none)
    (ha : s.awaitingReset = true) (he : s.events = e :: es) : step s = hostOpUnreset e { s with events := es } := by
  unfold step
  simp only [hr, he, ha, if_true]

/-- A power-up is served as `powerUp`, whatever the block is doing. -/
theorem step_powerUp {s : State} {hold : Nat} {es : List HostEvent} (he : s.events = ⟨.powerUp, hold⟩ :: es)
    (hr : ∀ w, s.running ≠ some ⟨w, 0⟩) : ∃ r, step s = .next (powerUp { s with events := es, running := r }) := by
  rcases step_serves he hr with h | h | ⟨r, h⟩
  · exact ⟨s.running, h⟩
  · exact ⟨s.running, h⟩
  · exact ⟨r, h⟩

/-- Settles O18: a power-up is `powerUp` however it is served, an access is refused by the rule of an awaited reset, and the
reset pin acts then as ever. -/
theorem noAccessBeforeReset : Obligations.NoAccessBeforeReset := by
  refine ⟨fun s hold es he hr => ?_, fun s op hold es hr ha he => ⟨?_, ?_, ?_⟩⟩
  · obtain ⟨r, h⟩ := step_powerUp he hr
    exact ⟨_, h, rfl, rfl, rfl, rfl⟩
  · rintro w off rfl
    exact step_of_awaitingReset hr ha he
  · rintro w off v rfl
    exact step_of_awaitingReset hr ha he
  · rintro rfl
    exact ⟨_, step_hardReset he (by simp [hr]), rfl, rfl⟩

/-! ## No step gets stuck -/

/-- A word that only raises gives error entry in IDLE and is ignored in ERROR; no invariant is needed. -/
theorem exists_whenIdle_raise_next (s : State) (e : ErrCode) (info : Len) : ∃ t, whenIdle s (raise e info) = .next t := by
  cases hs : s.seq with
  | idle => exact ⟨_, whenIdle_idle hs _⟩
  | error => exact ⟨_, whenIdle_error hs _⟩

section Invariants

variable {s : State} (h : s.Inv)
include h

/-- A command ends well in IDLE, and in ERROR it returns to IDLE or is ignored. -/
theorem exists_exec_next (i : Instr) : ∃ t, exec i s = .next t := by
  cases hs : s.seq with
  | idle =>
    rcases exec_endsWell h hs i with ⟨t, ht, -⟩ | ⟨e, info, ht, -⟩
    · exact ⟨t, ht⟩
    · exact ⟨_, ht⟩
  | error =>
    rcases errorsAreNotNested i s hs with ht | ⟨t, ht, -⟩
    · exact ⟨s, ht⟩
    · exact ⟨t, ht⟩

theorem exists_runWord_next (c : Word) : ∃ t, runWord c s = .next t := by
  unfold runWord
  split
  · exact exists_exec_next h _
  · exact exists_whenIdle_raise_next s _ _
  · exact exists_whenIdle_raise_next s _ _

theorem exists_writeCmd_next (c : Word) (hold : Nat) : ∃ t, writeCmd c hold s = .next t := by
  unfold writeCmd
  split
  · cases hold with
    | zero => exact exists_runWord_next h c
    | succ n => exact ⟨_, rfl⟩
  · exact ⟨s, rfl⟩

theorem exists_writeIdle_next (w : AccessWidth) (off : BitVec 8) (v : Word) (hold : Nat) :
    ∃ t, writeIdle w off v hold s = .next t := by
  unfold writeIdle
  split
  · exact ⟨s, rfl⟩
  · exact exists_writeCmd_next h v hold
  · exact ⟨_, rfl⟩

/-- Only a write can run a command; every other operation is its update of the state. -/
theorem exists_hostOpIdle_next (e : HostEvent) : ∃ t, hostOpIdle e s = .next t := by
  obtain ⟨op, hold⟩ := e
  cases op with
  | read w off => exact ⟨_, rfl⟩
  | write w off v => exact exists_writeIdle_next h w off v hold
  | hardReset => exact ⟨_, rfl⟩
  | powerUp => exact ⟨_, rfl⟩

theorem exists_complete_next (work : Work) : ∃ t, complete work s = .next t := by
  cases work with
  | command c => exact exists_runWord_next h c
  | clearing => exact ⟨s, rfl⟩

end Invariants

/-- HUFFCORE never acts on its own (10_state.md R20). -/
theorem step_of_nothingToDo {s : State} (hr : s.running = none) (he : s.events = []) : step s = .next s := by
  unfold step
  rw [hr, he]

/-- While a reset is awaited an operation of the host is an access, which is refused, or has a next state. -/
theorem hostOpUnreset_next_or_refused (e : HostEvent) (s : State) :
    (∃ t, hostOpUnreset e s = .next t) ∨ hostOpUnreset e s = .refused .accessBeforeReset := by
  obtain ⟨op, hold⟩ := e
  cases op with
  | read w off => exact .inr rfl
  | write w off v => exact .inr rfl
  | hardReset => exact .inl ⟨_, rfl⟩
  | powerUp => exact .inl ⟨_, rfl⟩

/-- Settles O60: by what runs and what the host does next. An operation in a busy window always has a next state, what
completes is a command or the end of the clearing, and at rest the operation is served, by its own rule while a reset is
awaited. -/
theorem noFaultWithinInvariants : Obligations.NoFaultWithinInvariants := by
  intro s h
  match hr : s.running, he : s.events with
  | some ⟨work, 0⟩, _ =>
    rw [step_of_windowOver ⟨0, hr, .inl rfl⟩]
    exact .inl (exists_complete_next (State.Inv.kept.hostSide s _ _ _ _ _ h) work)
  | some ⟨work, n + 1⟩, [] =>
    rw [step_of_windowOver ⟨n + 1, hr, .inr he⟩]
    exact .inl (exists_complete_next (State.Inv.kept.hostSide s _ _ _ _ _ h) work)
  | some ⟨work, n + 1⟩, e :: es => exact .inl ⟨_, step_of_busy hr he⟩
  | none, [] => exact .inl ⟨s, step_of_nothingToDo hr he⟩
  | none, e :: es =>
    cases ha : s.awaitingReset with
    | true =>
      rw [step_of_awaitingReset hr ha he]
      exact (hostOpUnreset_next_or_refused e _).imp_right fun hrefused => ⟨rfl, hrefused⟩
    | false =>
      obtain ⟨op, hold⟩ := e
      obtain ⟨hold, hstep⟩ := Performs.step_eq ⟨hr, ha, hold, he⟩
      rw [hstep]
      exact .inl (exists_hostOpIdle_next (State.Inv.kept.hostSide s _ _ _ _ _ h) _)

end Sys2Proof.Machine
